-- ==== Sys2Proof/Word.lean ====
section
/-! DEFINITION. The word types of the PDA230CN control core: a byte of the NV store or of a command, and the 16-bit
registers and operand fields (10_state.md, 30_encoding.md rule R88). An `int16` is a `Half` read with `BitVec.toInt`, a
`uint16` one read with `BitVec.toNat`. -/

namespace Sys2Proof

/-- A byte: the NV store's unit of access (20_memory.md R67) and the unit of a command (30_encoding.md R80). -/
abbrev Byte := BitVec 8

/-- A 16-bit field: `uint16` through `toNat`, `int16` through `toInt` (30_encoding.md R88). -/
abbrev Half := BitVec 16

end Sys2Proof
end

