-- ==== Sys2Proof/Config.lean ====
section
/-! DEFINITION. The configuration record `cfg` of 00_scope.md rule R9: every parameter is a field, so that every statement
holds for every value of it; the parameters R9 gives a value have that value as their default. DESIGN CHOICE (log entries 1,
12 and 13). -/

namespace Sys2Proof

/-- PID_ICLAMP_FN (R9): a function of the int16 setpoint, as plain data. `deflt` is its value at every setpoint without an
entry in `table`, and the first entry for a setpoint counts; every function on int16 can be written so. The spec's default
is the constant 1000 (92_eei_decisions.md D10). DESIGN CHOICE (log entry 13). -/
structure IclampFn where
  deflt : Int := 1000
  table : List (Half × Int) := []
  deriving DecidableEq, Repr

/-- The parameters of R9 that fix how the NV store is laid out and checked. The defaults are the values the spec decides (R9;
20_memory.md R63 to R65), and for the polynomial the one 44_param_store.md R190 gives, which the spec marks as general
knowledge. PRESUMED by the spec (log entry 18). Other values: log entry 12. -/
structure NvFormat where
  /-- NV_OP_BASE -/
  opBase : Nat := 0
  /-- NV_CAL_BASE -/
  calBase : Nat := 6
  /-- OP_LEN -/
  opLen : Nat := 5
  /-- CAL_LEN -/
  calLen : Nat := 8
  /-- CRC8_POLY_R, the reflected Dallas/iButton polynomial -/
  crcPoly : Byte := 0x8C
  deriving DecidableEq, Repr

/-- The configuration record of R9. `int16` parameters are `Half` read with `toInt`. P_MIN and APO_CNT_MAX default to the
values the spec decides (92_eei_decisions.md D17, D18), the six PID parameters of 93_implementation_defined.md U1 to the
source's literals (R5). -/
structure Config where
  /-- COARSE_TICKS -/
  coarseTicks : Nat
  /-- P_CEL -/
  pCel : Nat
  /-- P_PID -/
  pPid : Nat
  /-- P_LOG -/
  pLog : Nat
  /-- P_TEN -/
  pTen : Nat
  /-- P_MIN -/
  pMin : Nat := 6
  /-- APO_CNT_MAX, uint8 -/
  apoCntMax : Byte := 255
  /-- MAX_POWEROFF_TIMEOUT, uint8 -/
  maxPoweroffTimeout : Byte
  /-- MIN_SET_TEMP, int16 Celsius -/
  minSetTemp : Half
  /-- MAX_SET_TEMP, int16 Celsius -/
  maxSetTemp : Half
  /-- KP -/
  kp : Nat
  /-- KI -/
  ki : Nat
  /-- KD -/
  kd : Nat
  /-- SCALING_FACTOR -/
  scalingFactor : Nat
  /-- PID_ERR_THRESH -/
  pidErrThresh : Int := 100
  /-- PID_P_LIMIT -/
  pidPLimit : Int := 2000
  /-- PID_I_LIMIT, the reset value of `iclamp` (10_state.md R29; log entry 31) -/
  pidILimit : Int := 1000
  /-- PID_KI_DIV -/
  pidKiDiv : Int := 20
  /-- PID_DEPTH; `dbuf` has room for four samples (10_state.md R30, R32; log entries 12 and 27) -/
  pidDepth : Int := 4
  /-- DUTY_MAX (10_state.md R37; log entry 30) -/
  dutyMax : Int := 100
  /-- PID_ICLAMP_FN -/
  iclampFn : IclampFn := {}
  /-- APO_ROLL_THRESH, int16 Celsius -/
  apoRollThresh : Half
  /-- APO_ROLL_HYST, int16 Celsius -/
  apoRollHyst : Half
  /-- DEF_OP, the compiled-in OperatingParams image -/
  defOp : List Byte
  /-- DEF_CAL, the compiled-in CalibrationParams image -/
  defCal : List Byte
  /-- NV_SIZE -/
  nvSize : Nat
  /-- NV_OP_BASE, NV_CAL_BASE, OP_LEN, CAL_LEN and CRC8_POLY_R -/
  nvFormat : NvFormat := {}
  deriving DecidableEq, Repr

namespace Config

/-- Configuration E of 95_test_vectors.md section 1.1, the one configuration the spec writes out. `State.reset` uses it.
DESIGN CHOICE (log entry 1). -/
def exampleE : Config where
  coarseTicks := 20
  pCel := 1
  pPid := 2
  pLog := 5
  pTen := 2
  pMin := 6
  apoCntMax := 255
  maxPoweroffTimeout := 120
  minSetTemp := 50
  maxSetTemp := 250
  kp := 10
  ki := 2
  kd := 5
  scalingFactor := 10
  iclampFn := {}
  apoRollThresh := 60
  apoRollHyst := 5
  defOp := [0x96, 0x00, 0x01, 0x01, 0x0F]
  defCal := [0x14, 0x00, 0xC8, 0x00, 0xFA, 0x00, 0x84, 0x03]
  nvSize := 16

/-- The index DERIV_STEP leaves where the spec gives it none: at a PID_DEPTH that is not positive, and at one whose remainder
`didx` cannot hold (41_pid.md R121; 10_state.md R32). A free value of PID_DEPTH and the index: it has no body,
so nothing is known of it. DESIGN CHOICE (log entry 27). -/
opaque openDidx (depth : Int) (i : BitVec 2) : BitVec 2

/-- What `duty` holds after a write of an integer that its seven bits cannot hold (10_state.md R37). A free value of that
integer: it has no body. DESIGN CHOICE (log entry 30). -/
opaque openDuty (v : Int) : BitVec 7

/-- What `iclamp` holds after reset with a negative PID_I_LIMIT, within the range of the register (10_state.md R29). A free value
of PID_I_LIMIT: it has no body. DESIGN CHOICE (log entry 31). -/
opaque openIclamp (limit : Int) : Fin 32768

end Config

/-- The names of R10's well-formedness checks: a refused configuration is refused under the name of the check it fails. -/
inductive ConfigCheck where
  | wfPeriods | wfScale | wfSetpoint | wfApo | wfIclamp | wfHyst | wfNv | wfDefaults | wfInt32
  deriving DecidableEq, Repr

end Sys2Proof
end

