-- ==== Sys2Proof/Machine/ConfigCheck.lean ====
section
/-! DEFINITION. The well-formedness checks of a configuration (00_scope.md rule R10), each under the spec's name, and the
parameter function PID_ICLAMP_FN (R9). -/

namespace Sys2Proof

/-- The value of PID_ICLAMP_FN at a setpoint: its first entry in the table, else the default (R9; log entry 13). -/
def IclampFn.apply (f : IclampFn) (s : Half) : Int := (f.table.lookup s).getD f.deflt

/-- Every int16 setpoint has an entry in the table, so that none takes the default. -/
def IclampFn.tableTotal (f : IclampFn) : Bool := (List.range 65536).all fun n => (f.table.lookup (BitVec.ofNat 16 n)).isSome

namespace Config

/-- The largest int32 (R10, `wf_int32`). -/
def int32Max : Int := 2147483647

/-- `wf_periods`: every period lies in [1, 65535]. -/
def periodsOk (c : Config) : Bool :=
  [c.coarseTicks, c.pCel, c.pPid, c.pLog, c.pTen, c.pMin].all fun p => decide (1 ≤ p ∧ p ≤ 65535)

/-- `wf_scale`: SCALING_FACTOR >= 1. -/
def scaleOk (c : Config) : Bool := decide (1 ≤ c.scalingFactor)

/-- `wf_setpoint`: MIN_SET_TEMP <= MAX_SET_TEMP. -/
def setpointOk (c : Config) : Bool := decide (c.minSetTemp.toInt ≤ c.maxSetTemp.toInt)

/-- `wf_apo`: MAX_POWEROFF_TIMEOUT <= APO_CNT_MAX. -/
def apoOk (c : Config) : Bool := decide (c.maxPoweroffTimeout.toNat ≤ c.apoCntMax.toNat)

/-- A value of PID_ICLAMP_FN that fits its range [0, 32767]. -/
def iclampValueOk (v : Int) : Bool := decide (0 ≤ v ∧ v ≤ 32767)

/-- `wf_iclamp`: PID_ICLAMP_FN(s) lies in [0, 32767] for every int16 s, and PID_I_LIMIT <= 32767. The values are those at
the setpoints of the table, and the default unless the table has every setpoint. -/
def iclampOk (c : Config) : Bool :=
  c.iclampFn.table.all (fun e => iclampValueOk (c.iclampFn.apply e.1)) &&
    (iclampValueOk c.iclampFn.deflt || c.iclampFn.tableTotal) && decide (c.pidILimit ≤ 32767)

/-- `wf_hyst`: APO_ROLL_HYST >= 0 and APO_ROLL_THRESH + APO_ROLL_HYST <= 32767. -/
def hystOk (c : Config) : Bool :=
  decide (0 ≤ c.apoRollHyst.toInt ∧ c.apoRollThresh.toInt + c.apoRollHyst.toInt ≤ 32767)

/-- `wf_nv`: NV_SIZE >= NV_CAL_BASE + CAL_LEN + 1. -/
def nvOk (c : Config) : Bool := decide (c.nvFormat.calBase + c.nvFormat.calLen + 1 ≤ c.nvSize)

/-- `wf_defaults`: DEF_OP has OP_LEN bytes and DEF_CAL has CAL_LEN bytes. -/
def defaultsOk (c : Config) : Bool :=
  decide (c.defOp.length = c.nvFormat.opLen ∧ c.defCal.length = c.nvFormat.calLen)

/-- `wf_int32`, which bounds the PID intermediates by a signed 32-bit integer. The quotient is R120's `tdiv`, which has a value
only for a divisor other than 0 (R12), so the check fails for PID_KI_DIV = 0. DEDUCED (log entry 32). -/
def int32Ok (c : Config) : Bool :=
  decide (c.pidKiDiv ≠ 0 ∧ 32767 * (c.ki : Int) ≤ int32Max ∧
    max c.pidPLimit (c.pidErrThresh * c.kp) + Int.tdiv (32767 * (c.ki : Int)) c.pidKiDiv + 65535 * (c.kd : Int)
      ≤ int32Max)

/-- A check of R10, by its name. -/
def passes (c : Config) : ConfigCheck → Bool
  | .wfPeriods => c.periodsOk
  | .wfScale => c.scaleOk
  | .wfSetpoint => c.setpointOk
  | .wfApo => c.apoOk
  | .wfIclamp => c.iclampOk
  | .wfHyst => c.hystOk
  | .wfNv => c.nvOk
  | .wfDefaults => c.defaultsOk
  | .wfInt32 => c.int32Ok

/-- R10's checks in its order. -/
def allChecks : List ConfigCheck :=
  [.wfPeriods, .wfScale, .wfSetpoint, .wfApo, .wfIclamp, .wfHyst, .wfNv, .wfDefaults, .wfInt32]

/-- The first check of R10 that the configuration fails; `none` for a well-formed one. -/
def failedCheck (c : Config) : Option ConfigCheck := allChecks.find? fun k => !c.passes k

/-- A configuration that passes every check of R10. -/
def wellFormed (c : Config) : Bool := allChecks.all fun k => c.passes k

end Config
end Sys2Proof
end

