-- ==== Sys2Proof/Syntax.lean ====
section
/-! DEFINITION. The command interface's syntax: the nine commands of 30_encoding.md rule R82, one constructor each, with
their operands as fields (R83 to R87). Reserved operand bits are kept in the syntax, because a command that sets one is a
command with an effect, F_BAD_OPERAND (R90). DESIGN CHOICE (log entry 11). -/

namespace Sys2Proof

/-- The five buttons (R84). -/
inductive Button where
  | fwd | rev | cyc | menu | heat
  deriving DecidableEq, Repr

/-- One bit per button, in the bit order of R84. -/
abbrev ButtonSet := BitVec 5

/-- Format C, the CYCLE operands (R83). The `rsv` fields are the reserved bits 7:5 of operand bytes 0 to 3 and 6. An
operand left out is 0 (R92). -/
structure CycleOperands where
  /-- "pressed this cycle" edges -/
  pressed : ButtonSet := 0
  rsvPressed : BitVec 3 := 0
  /-- "released-after-short-hold this cycle" edges -/
  relShort : ButtonSet := 0
  rsvRelShort : BitVec 3 := 0
  /-- "long-held" levels -/
  longHeld : ButtonSet := 0
  rsvLongHeld : BitVec 3 := 0
  /-- "raw instantaneous state" levels -/
  raw : ButtonSet := 0
  rsvRaw : BitVec 3 := 0
  /-- derived Celsius reading, int16 -/
  tempC : Half := 0
  noSensor : Bool := false
  shorted : Bool := false
  epValid : Bool := false
  atFwdEnd : Bool := false
  atRevEnd : Bool := false
  rsvStatus : BitVec 3 := 0
  /-- the setpoint in the internal scale, uint16 -/
  spInt : Half := 0
  /-- the process value, uint16 -/
  pv : Half := 0
  deriving DecidableEq, Repr

/-- An OperatingParams record (10_state.md R48): the operand of PS_WRITE_OP (R85) and the active record `op`. -/
structure OpParams where
  /-- integer Celsius, int16 -/
  setpoint : Half
  rollCycles : Byte
  soundEn : Byte
  /-- minutes, 0 = disabled -/
  apoTimeout : Byte
  deriving DecidableEq, Repr

/-- A CalibrationParams record (10_state.md R49): the operand of PS_WRITE_CAL (R86) and the active record `cal`. -/
structure CalParams where
  /-- int16 Celsius -/
  c1 : Half
  /-- uint16 raw -/
  r1 : Half
  /-- int16 Celsius -/
  c2 : Half
  /-- uint16 raw -/
  r2 : Half
  deriving DecidableEq, Repr

/-- The commands of R82. -/
inductive Instr where
  | tick
  | cycle (o : CycleOperands)
  | psLoad
  | psSaveOp
  | psSaveCal
  | psWriteOp (p : OpParams)
  | psWriteCal (p : CalParams)
  /-- `rsv` holds the reserved bits 7:1 of the operand (R87). -/
  | setCalMode (v : Bool) (rsv : BitVec 7)
  | powerLoss
  deriving DecidableEq, Repr

/-- The mnemonics of R82, for the opcode map. -/
inductive Mnemonic where
  | tick | cycle | psLoad | psSaveOp | psSaveCal | psWriteOp | psWriteCal | setCalMode | powerLoss
  deriving DecidableEq, Repr

/-- The command formats of R81. -/
inductive Format where
  | n | c | w | k | b
  deriving DecidableEq, Repr

/-- The mnemonic of a command. -/
def Instr.mnemonic : Instr → Mnemonic
  | .tick => .tick
  | .cycle _ => .cycle
  | .psLoad => .psLoad
  | .psSaveOp => .psSaveOp
  | .psSaveCal => .psSaveCal
  | .psWriteOp _ => .psWriteOp
  | .psWriteCal _ => .psWriteCal
  | .setCalMode _ _ => .setCalMode
  | .powerLoss => .powerLoss

end Sys2Proof
end

