-- ==== Sys2Proof/Machine/Operands.lean ====
section
/-! DEFINITION. Operand forms: 16-bit fields from bytes and back, the bit fields of the CYCLE and SET_CAL_MODE operands, and
the record images `ser_op`, `de_op`, `ser_cal`, `de_cal` (20_memory.md rules R64 to R66, 30_encoding.md rules R83 to R88). -/

namespace Sys2Proof.Machine

/-- The low byte of a 16-bit field (R66). -/
def loByte (h : Half) : Byte := h.extractLsb' 0 8

/-- The high byte of a 16-bit field (R66). -/
def hiByte (h : Half) : Byte := h.extractLsb' 8 8

/-- A 16-bit field from its two bytes, low byte first (R88). -/
def halfOf (lo hi : Byte) : Half := hi ++ lo

/-- The bit number of a button in a button field (R84). -/
def buttonIndex : Button → Nat
  | .fwd => 0
  | .rev => 1
  | .cyc => 2
  | .menu => 3
  | .heat => 4

/-- The bit of a button in a button field (R84). -/
def hasButton (b : ButtonSet) (k : Button) : Bool := b.getLsbD (buttonIndex k)

/-- The set that holds the listed buttons (R92's button sets). -/
def buttonSet (ks : List Button) : ButtonSet :=
  ks.foldl (fun acc k => acc ||| BitVec.twoPow 5 (buttonIndex k)) 0

/-- A button operand byte: bits 4:0 the buttons, bits 7:5 reserved (R83). -/
def buttonByte (rsv : BitVec 3) (b : ButtonSet) : Byte := rsv ++ b

/-- The low five bits of a CYCLE operand byte (R83). -/
def lowFive (b : Byte) : BitVec 5 := b.extractLsb' 0 5

/-- The reserved bits 7:5 of a CYCLE operand byte (R83). -/
def highThree (b : Byte) : BitVec 3 := b.extractLsb' 5 3

/-- Operand byte 6 of CYCLE: bits 0 to 4 the status bits, bits 7:5 reserved (R83). -/
def statusByte (o : CycleOperands) : Byte :=
  o.rsvStatus ++ BitVec.ofBool o.atRevEnd ++ BitVec.ofBool o.atFwdEnd ++ BitVec.ofBool o.epValid
    ++ BitVec.ofBool o.shorted ++ BitVec.ofBool o.noSensor

/-- The eleven operand bytes of CYCLE (R83). -/
def cycleBytes (o : CycleOperands) : List Byte :=
  [buttonByte o.rsvPressed o.pressed, buttonByte o.rsvRelShort o.relShort, buttonByte o.rsvLongHeld o.longHeld,
   buttonByte o.rsvRaw o.raw, loByte o.tempC, hiByte o.tempC, statusByte o, loByte o.spInt, hiByte o.spInt,
   loByte o.pv, hiByte o.pv]

/-- The CYCLE operands in the eleven operand bytes `b0` to `b10` (R83). -/
def cycleOperandsOf (b0 b1 b2 b3 b4 b5 b6 b7 b8 b9 b10 : Byte) : CycleOperands where
  pressed := lowFive b0
  rsvPressed := highThree b0
  relShort := lowFive b1
  rsvRelShort := highThree b1
  longHeld := lowFive b2
  rsvLongHeld := highThree b2
  raw := lowFive b3
  rsvRaw := highThree b3
  tempC := halfOf b4 b5
  noSensor := b6.getLsbD 0
  shorted := b6.getLsbD 1
  epValid := b6.getLsbD 2
  atFwdEnd := b6.getLsbD 3
  atRevEnd := b6.getLsbD 4
  rsvStatus := highThree b6
  spInt := halfOf b7 b8
  pv := halfOf b9 b10

/-- `ser_op`: the five bytes of an OperatingParams record (20_memory.md R64). -/
def serOp (p : OpParams) : List Byte :=
  [loByte p.setpoint, hiByte p.setpoint, p.rollCycles, p.soundEn, p.apoTimeout]

/-- `de_op`: the record in an OperatingParams image (20_memory.md R64). A byte the list lacks reads as 0; the rules apply it
to lists of OP_LEN bytes only (log entry 23). -/
def deOp (img : List Byte) : OpParams where
  setpoint := halfOf (img.getD 0 0) (img.getD 1 0)
  rollCycles := img.getD 2 0
  soundEn := img.getD 3 0
  apoTimeout := img.getD 4 0

/-- `ser_cal`: the eight bytes of a CalibrationParams record (20_memory.md R65). -/
def serCal (p : CalParams) : List Byte :=
  [loByte p.c1, hiByte p.c1, loByte p.r1, hiByte p.r1, loByte p.c2, hiByte p.c2, loByte p.r2, hiByte p.r2]

/-- `de_cal`: the record in a CalibrationParams image (20_memory.md R65). A byte the list lacks reads as 0; the rules apply
it to lists of CAL_LEN bytes only (log entry 23). -/
def deCal (img : List Byte) : CalParams where
  c1 := halfOf (img.getD 0 0) (img.getD 1 0)
  r1 := halfOf (img.getD 2 0) (img.getD 3 0)
  c2 := halfOf (img.getD 4 0) (img.getD 5 0)
  r2 := halfOf (img.getD 6 0) (img.getD 7 0)

/-- The operand byte of SET_CAL_MODE: bit 0 the value, bits 7:1 reserved (30_encoding.md R87). -/
def calModeByte (v : Bool) (rsv : BitVec 7) : Byte := rsv ++ BitVec.ofBool v

end Sys2Proof.Machine
end

