-- ==== Sys2Proof/Machine/Width.lean ====
section
/-! DEFINITION. How a PID parameter of type int (00_scope.md rule R9) reaches a register that cannot hold every integer: `duty`
and the reset value of `iclamp` (10_state.md rules R29 and R37). Where the value fits it is stored; where it does not, the
spec says nothing of the stored value, which is then a free value. DESIGN CHOICE (log entries 30 and 31). -/

namespace Sys2Proof.Machine

/-- A duty in the seven bits of `duty` (R37): the value itself where they hold it, else a free value (log entry 30). -/
def dutyOf (v : Int) : BitVec 7 := if 0 ≤ v ∧ v ≤ 127 then BitVec.ofInt 7 v else Config.openDuty v

/-- The reset value of `iclamp`: PID_I_LIMIT (R29). A negative PID_I_LIMIT is no value of the register: a free value within
the range R29 gives the register (log entry 31). -/
def resetIclamp (limit : Int) : Half :=
  if 0 ≤ limit then BitVec.ofInt 16 limit else BitVec.ofNat 16 (Config.openIclamp limit).val

end Sys2Proof.Machine
end

