-- ==== Sys2Proof/Machine/State.lean ====
section
/-! DEFINITION. The machine's state as plain data: every register of 10_state.md under its unit (00_scope.md rule R3), the
NV store, the configuration record the commands run under, and what the environment has yet to do (10_state.md rules R20,
R21). With it the reasons a step can stop, and the state right after reset (70_reset_and_hazards.md rule R250). -/

namespace Sys2Proof.Machine

/-- Reasons the machine stops with a fault of the model. The core's own faults (60_exceptions.md R230) are next states. -/
inductive Fault where
  /-- An NV primitive was given an address outside [0, NV_SIZE-1] (20_memory.md R62, 93_implementation_defined.md U19).
  Raised by PS_LOAD, PS_SAVE_OP, PS_SAVE_CAL and POWER_LOSS only under a configuration that fails `wf_nv`. Safe. -/
  | nvOutOfRange (addr : Nat)
  deriving DecidableEq, Repr

/-- Reasons the model refuses a step. -/
inductive Refusal where
  /-- The dispatch has no meaning for the instruction yet. Safe. No arm of this model answers it. -/
  | notModelled (mnemonic : String)
  /-- The bytes of the agent whose turn it is end inside a command's operands: not a command (30_encoding.md R80,
  93_implementation_defined.md U16). Raised by the step. Safe. -/
  | incompleteCommand
  /-- The configuration fails the named check, so the model takes no step (00_scope.md R10). Raised by the step. Safe. -/
  | configIllFormed (check : ConfigCheck)
  deriving DecidableEq, Repr

/-- The motor direction (10_state.md R38). The encoding 3 is never written and has no value here (log entry 17). -/
inductive Direction where
  | stop | fwd | rev
  deriving DecidableEq, Repr

/-- `sflags`, the event flags of the most recent SCHED_ADVANCE (10_state.md R26). -/
structure SchedFlags where
  cel : Bool := false
  pid : Bool := false
  log : Bool := false
  ten : Bool := false
  min : Bool := false
  apoSoon : Bool := false
  apoExp : Bool := false
  deriving DecidableEq, Repr

/-- `hs`, the HeaterState bitset (10_state.md R34). -/
structure HeaterBits where
  en : Bool := false
  rr : Bool := false
  spc : Bool := false
  cal : Bool := false
  deriving DecidableEq, Repr

/-- `fbev`, the feedback-event set (10_state.md R45). -/
structure FeedbackEvents where
  dirPressed : Bool := false
  cycleStarted : Bool := false
  cycleStopped : Bool := false
  dirAuto : Bool := false
  cycleComplete : Bool := false
  cycleStartFail : Bool := false
  pointReset : Bool := false
  deriving DecidableEq, Repr

/-- `fault`, the sticky fault register (10_state.md R52). -/
structure FaultBits where
  illegalCmd : Bool := false
  badOperand : Bool := false
  notLoaded : Bool := false
  deriving DecidableEq, Repr

/-- `defaults_used`, the result of the last PS_LOAD (10_state.md R51). -/
structure DefaultsUsed where
  op : Bool := false
  cal : Bool := false
  deriving DecidableEq, Repr

/-- `dbuf[0..3]`, the derivative filter's circular buffer (10_state.md R30). -/
structure DerivBuf where
  s0 : Half := 0
  s1 : Half := 0
  s2 : Half := 0
  s3 : Half := 0
  deriving DecidableEq, Repr

/-- The tick divider (10_state.md R22, R23). -/
structure TickUnit where
  tickCnt : Half
  ready : Bool
  deriving DecidableEq, Repr

/-- The event scheduler (10_state.md R24 to R26). -/
structure Scheduler where
  cntCel : Half
  cntPid : Half
  cntLog : Half
  cntTen : Half
  cntMin : Half
  apoCnt : Byte
  sflags : SchedFlags
  deriving DecidableEq, Repr

/-- The PID controller (10_state.md R28 to R32). `acc` is an int16. -/
structure Pid where
  acc : Half
  iclamp : Half
  dbuf : DerivBuf
  dsum : BitVec 32
  didx : BitVec 2
  deriving DecidableEq, Repr

/-- The heater FSM (10_state.md R34 to R37). -/
structure Heater where
  hs : HeaterBits
  lastSp : Half
  lastSpValid : Bool
  duty : BitVec 7
  deriving DecidableEq, Repr

/-- The roll/motor FSM (10_state.md R38 to R46). `resume` is in the type of `dir`, `stop` standing for none (R41). -/
structure Roll where
  dir : Direction
  cyc : Bool
  dchg : Bool
  ccomp : Bool
  resume : Direction
  prevApo : Bool
  prevCycLong : Bool
  cyclesDone : Byte
  fbev : FeedbackEvents
  epReset : Bool
  deriving DecidableEq, Repr

/-- The parameter store's active records and result (10_state.md R48 to R51). -/
structure ParamStore where
  op : OpParams
  cal : CalParams
  loaded : Bool
  defaultsUsed : DefaultsUsed
  deriving DecidableEq, Repr

/-- The sensor status the core exports (00_scope.md R7; 60_exceptions.md R234), as the most recent coarse cycle sampled it
(45_system.md R213). The spec gives it no register: the model's own field. DESIGN CHOICE (log entry 26). -/
structure SensorStatus where
  noSensor : Bool := false
  shorted : Bool := false
  deriving DecidableEq, Repr

/-- The system state (10_state.md R52 to R54). -/
structure SysUnit where
  fault : FaultBits
  halted : Bool
  inert : Bool
  deriving DecidableEq, Repr

/-- Bytes by address, in the canonical form of `Memory.wf` (Machine/Ops.lean): addresses strictly rising, no entry equal to
what an unlisted address reads as. -/
abbrev Memory := List Host.Cell

/-- The NV store (10_state.md R55) with the event history of its writes, oldest first (20_memory.md R62, R68; log entry
20). -/
structure NvStore where
  bytes : Memory
  history : List Host.Cell
  deriving DecidableEq, Repr

/-- The agents that issue commands (10_state.md R21). -/
inductive Agent where
  | tick | main | host
  deriving DecidableEq, Repr

/-- What happens next: an agent has its turn to apply a command; the same, with reset falling after the command's first
`k` NV byte writes (20_memory.md R74); or reset falls between two commands (70_reset_and_hazards.md R252). DESIGN CHOICE
(log entries 7 and 8). -/
inductive Turn where
  | command (a : Agent)
  | commandCut (a : Agent) (k : Nat)
  | reset
  deriving DecidableEq, Repr

/-- What the environment has yet to do: each agent's command bytes and the order of the turns (10_state.md R20, R21;
20_memory.md R70). The model's own fields. DESIGN CHOICE (log entry 7). -/
structure Env where
  tickIn : List Byte := []
  mainIn : List Byte := []
  hostIn : List Byte := []
  schedule : List Turn := []
  deriving DecidableEq, Repr

/-- The whole machine. `cfg` is fixed for the life of an instance (10_state.md R57); it travels in the state as the model's
argument. DESIGN CHOICE (log entry 1). -/
structure State where
  cfg : Config
  tick : TickUnit
  sched : Scheduler
  pid : Pid
  heater : Heater
  roll : Roll
  store : ParamStore
  sensor : SensorStatus
  sys : SysUnit
  nv : NvStore
  env : Env
  deriving DecidableEq, Repr

/-- The state in which configuration `c` powers on with NV contents `m`: every register at its value of R250. `last_sp`,
`op` and `cal` have no reset value in the spec and hold 0 here (DESIGN CHOICE, log entries 3, 4 and 5), and so does the
exported sensor status (log entry 26). A negative PID_I_LIMIT leaves `iclamp` a free value (log entry 31). -/
def State.powerOn (c : Config) (m : Memory) : State where
  cfg := c
  tick := { tickCnt := BitVec.ofNat 16 c.coarseTicks, ready := false }
  sched :=
    { cntCel := BitVec.ofNat 16 c.pCel, cntPid := BitVec.ofNat 16 c.pPid, cntLog := BitVec.ofNat 16 c.pLog,
      cntTen := BitVec.ofNat 16 c.pTen, cntMin := BitVec.ofNat 16 c.pMin, apoCnt := 0, sflags := {} }
  pid := { acc := 0, iclamp := resetIclamp c.pidILimit, dbuf := {}, dsum := 0, didx := 0 }
  heater := { hs := {}, lastSp := 0, lastSpValid := false, duty := 0 }
  roll :=
    { dir := .stop, cyc := false, dchg := false, ccomp := false, resume := .stop, prevApo := false,
      prevCycLong := false, cyclesDone := 0, fbev := {}, epReset := false }
  store :=
    { op := { setpoint := 0, rollCycles := 0, soundEn := 0, apoTimeout := 0 },
      cal := { c1 := 0, r1 := 0, c2 := 0, r2 := 0 }, loaded := false, defaultsUsed := {} }
  sensor := {}
  sys := { fault := {}, halted := false, inert := false }
  nv := { bytes := m, history := [] }
  env := {}

/-- The machine right after reset: configuration E and an NV store with nothing listed (log entries 1 and 2). -/
def State.reset : State := State.powerOn Config.exampleE []

end Sys2Proof.Machine
end

