-- ==== Sys2Proof/Machine/Ops.lean ====
section
/-! DEFINITION. The shared operations over memory and registers: bytes of the NV store and their canonical form, the NV
primitives `NVRead`, `NVWrite` and `MemRead` (00_scope.md rule R12, 20_memory.md rule R62), raising a fault of the core
(60_exceptions.md rule R230), commands that have no step (45_system.md rule R218), the exact arithmetic of rules R11 and
R12, and the reset event (70_reset_and_hazards.md rule R252).

TAKING AN EXCEPTION is `raiseFault`: the core has no trap entry, saves no pc, status or address and changes no mode
(60_exceptions.md rule R239). There is no RETURN from one (R240). -/

namespace Sys2Proof.Machine

/-! ### Exact arithmetic -/

/-- `clamp(v, lo, hi)` (R12). -/
def clamp (v lo hi : Int) : Int := min (max v lo) hi

/-- `tdiv(a, b)`, division truncated toward zero (R12). -/
def tdiv (a b : Int) : Int := Int.tdiv a b

/-- Stores an integer into a 16-bit register (R11; log entry 14). -/
def toHalf (v : Int) : Half := BitVec.ofInt 16 v

/-! ### Bytes by address -/

/-- What an unlisted address reads as. The spec gives no power-on contents and forbids assuming 0xFF or 0x00 (20_memory.md
R61). DESIGN CHOICE, unsafe for statements about `State.reset` alone (log entry 2). -/
def Memory.fill : Byte := 0xA5#8

/-- The byte at an address. -/
def Memory.read : Memory → Nat → Byte
  | [], _ => Memory.fill
  | c :: m, a => if c.1 = a then c.2 else Memory.read m a

/-- The memory without any entry for an address. -/
def Memory.erase : Memory → Nat → Memory
  | [], _ => []
  | c :: m, a => if c.1 = a then Memory.erase m a else c :: Memory.erase m a

/-- The memory with one entry for an address, at its place in the rising order. -/
def Memory.insert : Memory → Nat → Byte → Memory
  | [], a, v => [(a, v)]
  | c :: m, a, v =>
    if a < c.1 then (a, v) :: c :: m
    else if c.1 = a then (a, v) :: m
    else c :: Memory.insert m a v

/-- Writes one byte, keeping the canonical form: writing what an unlisted address reads as removes the entry. -/
def Memory.write (m : Memory) (a : Nat) (v : Byte) : Memory :=
  if v = Memory.fill then Memory.erase m a else Memory.insert m a v

/-- The canonical form: addresses strictly rising, no entry equal to what an unlisted address reads as. -/
def Memory.wf : Memory → Bool
  | [] => true
  | c :: m => c.2 != Memory.fill && m.all (fun d => decide (c.1 < d.1)) && Memory.wf m

/-! ### The NV primitives -/

/-- `NVRead(a)`; an address outside the store faults (20_memory.md R62). -/
def nvRead (size : Nat) (n : NvStore) (a : Nat) : Except Fault Byte :=
  if a < size then .ok (Memory.read n.bytes a) else .error (.nvOutOfRange a)

/-- `NVWrite(a, v)`: writes the byte and records the event NVW(a, v); an address outside the store faults (R62). -/
def nvWrite (size : Nat) (n : NvStore) (a : Nat) (v : Byte) : Except Fault NvStore :=
  if a < size then .ok { bytes := Memory.write n.bytes a v, history := n.history ++ [(a, v)] }
  else .error (.nvOutOfRange a)

/-- `MemRead(a, n)`: the bytes from address `a` in ascending order (00_scope.md R12). -/
def memRead (size : Nat) (n : NvStore) (a : Nat) : Nat → Except Fault (List Byte)
  | 0 => .ok []
  | k + 1 => do
    let b ← nvRead size n a
    let bs ← memRead size n (a + 1) k
    .ok (b :: bs)

/-- The differ-only write of a byte string at ascending addresses: a byte that is there already is not written
(44_param_store.md R192; 20_memory.md R68). -/
def saveBytes (size : Nat) (n : NvStore) (a : Nat) : List Byte → Except Fault NvStore
  | [] => .ok n
  | b :: bs => do
    let old ← nvRead size n a
    if old = b then saveBytes size n (a + 1) bs
    else
      let n' ← nvWrite size n a b
      saveBytes size n' (a + 1) bs

/-! ### Ending a command -/

/-- The codes of the core's faults (60_exceptions.md R233). -/
inductive FaultCode where
  | illegalCmd | badOperand | notLoaded
  deriving DecidableEq, Repr

/-- Sets a bit of the fault register (60_exceptions.md R230, 10_state.md R52). -/
def setFaultBit (f : FaultBits) : FaultCode → FaultBits
  | .illegalCmd => { f with illegalCmd := true }
  | .badOperand => { f with badOperand := true }
  | .notLoaded => { f with notLoaded := true }

/-- `raise Fault(code)`: sets the sticky bit and leaves everything else as it was (60_exceptions.md R230). -/
def raiseFault (k : FaultCode) (s : State) : State :=
  { s with sys := { s.sys with fault := setFaultBit s.sys.fault k } }

/-- A command's outcome from an operation over the NV store, which may fault. -/
def ofNv (r : Except Fault NvStore) (f : NvStore → State) : Host.Outcome State Fault Refusal :=
  match r with
  | .ok n => .next (f n)
  | .error e => .fault e

/-- While `halted` is 1 no command has a step: the state stays as it is (45_system.md R218; log entry 6). -/
def unlessHalted (s : State) (o : Host.Outcome State Fault Refusal) : Host.Outcome State Fault Refusal :=
  if s.sys.halted then .next s else o

/-- A command that needs the active records raises F_NOT_LOADED before the first PS_LOAD (60_exceptions.md R232). -/
def ifLoaded (s : State) (o : Host.Outcome State Fault Refusal) : Host.Outcome State Fault Refusal :=
  if s.store.loaded then o else .next (raiseFault .notLoaded s)

/-! ### Reset -/

/-- The reset event: every register at its reset value, `nv` unchanged (70_reset_and_hazards.md R252). The configuration, the
NV event history and what the environment has yet to do are no registers and stay (log entry 9). -/
def resetEvent (s : State) : State :=
  { State.powerOn s.cfg s.nv.bytes with nv := s.nv, env := s.env }

/-- The NV store after the writes of an event list, in order. -/
def replayWrites (n : NvStore) : List Host.Cell → NvStore
  | [] => n
  | c :: cs => replayWrites { bytes := Memory.write n.bytes c.1 c.2, history := n.history ++ [c] } cs

/-- Reset falling inside a command after its first `k` NV byte writes: `s` is the state before the command and `t` the one
it would have left. The bytes already written stay written, the others keep their old values (20_memory.md R74;
70_reset_and_hazards.md R252; log entry 8). -/
def tornReset (k : Nat) (s t : State) : State :=
  resetEvent { t with nv := replayWrites s.nv ((t.nv.history.drop s.nv.history.length).take k) }

end Sys2Proof.Machine
end

