-- ==== Sys2Proof/Machine/ParamStore.lean ====
section
/-! DEFINITION. The parameter store: CRC8, VALIDATE and SAVE_BLOCK, and the commands PS_LOAD, PS_SAVE_OP, PS_SAVE_CAL,
PS_WRITE_OP and PS_WRITE_CAL (44_param_store.md rules R190 to R197). -/

namespace Sys2Proof.Machine

/-- One bit of the CRC with reflected polynomial `poly`, least significant bit first (R190). -/
def crcBit (poly c : Byte) : Byte := if c.getLsbD 0 then (c >>> 1) ^^^ poly else c >>> 1

/-- The eight bit steps of one byte (R190). -/
def crcShift (poly c : Byte) : Byte := Nat.iterate (crcBit poly) 8 c

/-- The running CRC after one more byte (R190). -/
def crcByte (poly c b : Byte) : Byte := crcShift poly (c ^^^ b)

/-- CRC8 over a byte string, initial value 0, no final XOR (R190). -/
def crc8 (poly : Byte) (bs : List Byte) : Byte := bs.foldl (crcByte poly) 0

/-- VALIDATE(base, len): the stored image and whether its CRC byte matches (R191). -/
def readBlock (poly : Byte) (size : Nat) (n : NvStore) (base len : Nat) : Except Fault (List Byte × Bool) := do
  let img ← memRead size n base len
  let c ← nvRead size n (base + len)
  .ok (img, crc8 poly img == c)

/-- SAVE_BLOCK(base, img): the differ-only save of the image and, last, of its CRC byte (R192). -/
def saveBlock (poly : Byte) (size : Nat) (n : NvStore) (base : Nat) (img : List Byte) : Except Fault NvStore :=
  saveBytes size n base (img ++ [crc8 poly img])

/-- A block as PS_LOAD takes it: the image that becomes the active record, whether it is the default, and the NV store
after the default was stored where it had to be (R193). -/
structure LoadedBlock where
  img : List Byte
  dflt : Bool
  nv : NvStore
  deriving DecidableEq, Repr

/-- The default-fallback multiplexer of one block (R193). -/
def loadBlock (poly : Byte) (size : Nat) (n : NvStore) (base len : Nat) (dflt : List Byte) :
    Except Fault LoadedBlock := do
  let r ← readBlock poly size n base len
  if r.2 then .ok { img := r.1, dflt := false, nv := n }
  else
    let n' ← saveBlock poly size n base dflt
    .ok { img := dflt, dflt := true, nv := n' }

/-- Both blocks, OperatingParams first (R193). -/
def loadBlocks (c : Config) (n : NvStore) : Except Fault (LoadedBlock × LoadedBlock) := do
  let f := c.nvFormat
  let op ← loadBlock f.crcPoly c.nvSize n f.opBase f.opLen c.defOp
  let cal ← loadBlock f.crcPoly c.nvSize op.nv f.calBase f.calLen c.defCal
  .ok (op, cal)

/-- The state PS_LOAD leaves when it took these blocks (R193). -/
def afterLoad (op cal : LoadedBlock) (s : State) : State :=
  { s with
    store :=
      { op := deOp op.img, cal := deCal cal.img, loaded := true, defaultsUsed := { op := op.dflt, cal := cal.dflt } }
    nv := cal.nv }

/-- PS_LOAD (R193). -/
def execPsLoad (s : State) : Host.Outcome State Fault Refusal :=
  unlessHalted s
    (match loadBlocks s.cfg s.nv with
     | .ok b => .next (afterLoad b.1 b.2 s)
     | .error e => .fault e)

/-- The save of the active OperatingParams (R194; 45_system.md R217). -/
def saveOp (s : State) : Except Fault NvStore :=
  saveBlock s.cfg.nvFormat.crcPoly s.cfg.nvSize s.nv s.cfg.nvFormat.opBase (serOp s.store.op)

/-- The save of the active CalibrationParams (R195). -/
def saveCal (s : State) : Except Fault NvStore :=
  saveBlock s.cfg.nvFormat.crcPoly s.cfg.nvSize s.nv s.cfg.nvFormat.calBase (serCal s.store.cal)

/-- PS_SAVE_OP (R194). -/
def execPsSaveOp (s : State) : Host.Outcome State Fault Refusal :=
  unlessHalted s (ifLoaded s (ofNv (saveOp s) fun n => { s with nv := n }))

/-- PS_SAVE_CAL (R195). -/
def execPsSaveCal (s : State) : Host.Outcome State Fault Refusal :=
  unlessHalted s (ifLoaded s (ofNv (saveCal s) fun n => { s with nv := n }))

/-- PS_WRITE_OP (R196). -/
def execPsWriteOp (p : OpParams) (s : State) : Host.Outcome State Fault Refusal :=
  unlessHalted s (ifLoaded s (.next { s with store := { s.store with op := p } }))

/-- PS_WRITE_CAL (R197). -/
def execPsWriteCal (p : CalParams) (s : State) : Host.Outcome State Fault Refusal :=
  unlessHalted s (ifLoaded s (.next { s with store := { s.store with cal := p } }))

end Sys2Proof.Machine
end

