-- ==== Sys2Proof/Machine/Pid.lean ====
section
/-! DEFINITION. The PID controller's operations PID_UPDATE, DERIV_STEP, PID_SET_ICLAMP and PID_CLEAR (41_pid.md rules R120
to R125), in exact integer arithmetic. They are invoked by the heater FSM only. -/

namespace Sys2Proof.Machine

/-- `dbuf[i]` (10_state.md R30). -/
def derivGet (b : DerivBuf) (i : BitVec 2) : Half :=
  if i = 0 then b.s0 else if i = 1 then b.s1 else if i = 2 then b.s2 else b.s3

/-- `dbuf[i] <- v` (10_state.md R30). -/
def derivSet (b : DerivBuf) (i : BitVec 2) (v : Half) : DerivBuf :=
  if i = 0 then { b with s0 := v }
  else if i = 1 then { b with s1 := v }
  else if i = 2 then { b with s2 := v }
  else { b with s3 := v }

/-- The sum of the four entries of `dbuf`, which `dsum` holds between commands (10_state.md R31). -/
def derivSum (b : DerivBuf) : Nat := b.s0.toNat + b.s1.toNat + b.s2.toNat + b.s3.toNat

/-- The proportional term: the limit replaces the multiply beyond the threshold (R120). -/
def pTerm (c : Config) (err : Int) : Int :=
  if err > c.pidErrThresh then c.pidPLimit
  else if err < -c.pidErrThresh then -c.pidPLimit
  else err * (c.kp : Int)

/-- The integral term of an accumulator value (R120). -/
def iTerm (c : Config) (acc : Int) : Int := tdiv (acc * (c.ki : Int)) c.pidKiDiv

/-- `dsum` after the new sample takes the oldest one's place (R121). -/
def newDerivSum (pv : Half) (p : Pid) : Int :=
  (p.dsum.toNat : Int) - (derivGet p.dbuf p.didx).toNat + pv.toNat

/-- The value DERIV_STEP returns (R121). -/
def dTerm (c : Config) (pv : Half) (p : Pid) : Int := (c.kd : Int) * ((p.dsum.toNat : Int) - newDerivSum pv p)

/-- The index after the one that took the new sample: the next modulo PID_DEPTH (R121). Where PID_DEPTH is not positive, or the
remainder is no index of the four entries, the spec gives no next index: a free value. DESIGN CHOICE (log entry 27). -/
def nextDidx (c : Config) (i : BitVec 2) : BitVec 2 :=
  if 0 < c.pidDepth ∧ ((i.toNat : Int) + 1) % c.pidDepth < 4 then BitVec.ofInt 2 (((i.toNat : Int) + 1) % c.pidDepth)
  else Config.openDidx c.pidDepth i

/-- The registers DERIV_STEP writes (R121). -/
def derivStep (c : Config) (pv : Half) (p : Pid) : Pid :=
  { p with dbuf := derivSet p.dbuf p.didx pv, didx := nextDidx c p.didx, dsum := BitVec.ofInt 32 (newDerivSum pv p) }

/-- `sp - pv` (R120). -/
def pidErr (sp pv : Half) : Int := (sp.toNat : Int) - pv.toNat

/-- The accumulator's next value: the error added, clamped to the anti-windup bound (R120). -/
def nextAcc (sp pv : Half) (p : Pid) : Int :=
  clamp (p.acc.toInt + pidErr sp pv) (-(p.iclamp.toNat : Int)) p.iclamp.toNat

/-- PID_UPDATE's output before the final clamp (R120). -/
def pidOut (c : Config) (sp pv : Half) (p : Pid) : Int :=
  tdiv (pTerm c (pidErr sp pv) + iTerm c (nextAcc sp pv p) + dTerm c pv p) c.scalingFactor

/-- The duty PID_UPDATE returns (R120). -/
def pidDuty (c : Config) (sp pv : Half) (p : Pid) : BitVec 7 :=
  dutyOf (clamp (pidOut c sp pv p) 0 c.dutyMax)

/-- The PID registers after PID_UPDATE (R120). -/
def pidUpdate (c : Config) (sp pv : Half) (p : Pid) : Pid := derivStep c pv { p with acc := toHalf (nextAcc sp pv p) }

/-- PID_SET_ICLAMP(s) (R122). -/
def pidSetIclamp (c : Config) (s : Half) (p : Pid) : Pid :=
  let b := c.iclampFn.apply s
  { p with iclamp := toHalf b, acc := toHalf (clamp p.acc.toInt (-b) b) }

/-- PID_CLEAR (R123). -/
def pidClear (p : Pid) : Pid := { p with acc := 0, dbuf := {}, dsum := 0, didx := 0 }

end Sys2Proof.Machine
end

