-- ==== Sys2Proof/Machine/Heater.lean ====
section
/-! DEFINITION. The heater FSM: HEATER_STEP in its parts (42_heater_fsm.md rules R140 to R146). It is step 6 of CYCLE. -/

namespace Sys2Proof.Machine

/-- The sensor error of this cycle's inputs (R140). -/
def sensorErr (o : CycleOperands) : Bool := o.noSensor || o.shorted

/-- The reset request, the enable toggle and then the safety override (R141, R142). -/
def heaterButtons (o : CycleOperands) (apo : Bool) (hs : HeaterBits) : HeaterBits :=
  let rr := { hs with rr := hasButton o.longHeld .heat }
  let tog := if hasButton o.relShort .heat then { rr with en := !rr.en } else rr
  if apo || sensorErr o then { tog with en := false } else tog

/-- Whether the setpoint differs from the one the last cycle saw; the first cycle counts as a change (R143). -/
def setpointChanged (op : OpParams) (h : Heater) : Bool := !h.lastSpValid || op.setpoint != h.lastSp

/-- Whether this cycle is a PID event (R144). -/
def pidEvent (pidFlag : Bool) (op : OpParams) (h : Heater) : Bool := pidFlag || setpointChanged op h

/-- The controller after the setpoint comparison, which re-derives its clamp on a change (R143). -/
def afterSetpoint (c : Config) (op : OpParams) (h : Heater) (p : Pid) : Pid :=
  if setpointChanged op h then pidSetIclamp c op.setpoint p else p

/-- The controller's filter state at a PID event: cleared while a reset is requested (R144). -/
def afterClear (rr : Bool) (p : Pid) : Pid := if rr then pidClear p else p

/-- The unregulated escape: full duty at or above the largest setpoint (R144, R146). -/
def unregulated (c : Config) (op : OpParams) : Bool := decide (c.maxSetTemp.toInt ≤ op.setpoint.toInt)

/-- The duty a PID event writes, from the controller after its clear (R144). -/
def eventDuty (c : Config) (op : OpParams) (o : CycleOperands) (en : Bool) (p : Pid) : BitVec 7 :=
  if en && unregulated c op then dutyOf c.dutyMax
  else if en then pidDuty c o.spInt o.pv p
  else 0

/-- The controller a PID event leaves, from the controller after its clear: updated only by a regulated enabled heater
(R144; R124). -/
def eventPid (c : Config) (op : OpParams) (o : CycleOperands) (en : Bool) (p : Pid) : Pid :=
  if en && !unregulated c op then pidUpdate c o.spInt o.pv p else p

/-- HEATER_STEP: the heater's registers and the controller's (R145). `pidFlag` is `sflags.PID`, `apo` the sampled
`apo_active`. A toggle after an override has ended and before the next PID event enables the heater again, so that this
event writes the duty of an enabled heater, as R142 and R144 say; R148 and R146, which have no premise on such a toggle,
give 0 there. DEDUCED: R142 and R144 are followed (log entry 29). -/
def heaterStep (c : Config) (op : OpParams) (o : CycleOperands) (pidFlag apo : Bool) (h : Heater) (p : Pid) :
    Heater × Pid :=
  let hs := heaterButtons o apo h.hs
  let changed := setpointChanged op h
  let p1 := afterSetpoint c op h p
  let h1 : Heater :=
    { h with
      hs := { hs with spc := changed }
      lastSp := if changed then op.setpoint else h.lastSp
      lastSpValid := changed || h.lastSpValid }
  if pidEvent pidFlag op h then
    let p2 := afterClear hs.rr p1
    ({ h1 with duty := eventDuty c op o hs.en p2 }, eventPid c op o hs.en p2)
  else (h1, p1)

end Sys2Proof.Machine
end

