-- ==== Sys2Proof/Machine/Roll.lean ====
section
/-! DEFINITION. The roll/motor FSM: ROLL_STEP and CYCLE_LOGIC in their parts (43_roll_fsm.md rules R160 to R171). It is
step 5 of CYCLE. -/

namespace Sys2Proof.Machine

/-- The dual-button interlock's condition (R162). -/
def interlock (o : CycleOperands) : Bool :=
  (hasButton o.raw .fwd && hasButton o.raw .rev) || (hasButton o.pressed .fwd && hasButton o.pressed .rev)

/-- The hot condition of the APO override (R163). -/
def hot (c : Config) (o : CycleOperands) : Bool :=
  sensorErr o || decide (o.tempC.toInt > c.apoRollThresh.toInt + c.apoRollHyst.toInt)

/-- The APO override (R163). -/
def apoOverride (c : Config) (o : CycleOperands) (r : Roll) : Roll :=
  if hot c o then { r with dir := if r.dir = .stop then .fwd else r.dir, resume := .stop }
  else if decide (o.tempC.toInt ≤ c.apoRollThresh.toInt) && r.dir != .stop then
    { r with dir := .stop, resume := .fwd }
  else r

/-- A direction button is pressed (R164). -/
def manualDir (o : CycleOperands) : Bool := hasButton o.pressed .fwd || hasButton o.pressed .rev

/-- The direction buttons of manual mode (R164). -/
def directionButtons (o : CycleOperands) (r : Roll) : Roll :=
  if hasButton o.pressed .fwd then { r with dir := .fwd, fbev := { r.fbev with dirPressed := true } }
  else if hasButton o.pressed .rev then { r with dir := .rev, fbev := { r.fbev with dirPressed := true } }
  else r

/-- The rising edge of the cycle button's long-held level (R165). -/
def longEdge (o : CycleOperands) (prevCycLong : Bool) : Bool := hasButton o.longHeld .cyc && !prevCycLong

/-- The cycle-start preconditions (R168). -/
def cycleMayStart (op : OpParams) (o : CycleOperands) : Bool := o.epValid && decide (1 ≤ op.rollCycles.toNat)

/-- The cycle button was released after a short hold and no long-press edge takes precedence (R165, R166). -/
def cycToggled (o : CycleOperands) (edge : Bool) : Bool := !edge && hasButton o.relShort .cyc

/-- The short release of the cycle button (R166). -/
def cycleToggle (op : OpParams) (o : CycleOperands) (r : Roll) : Roll :=
  if r.cyc then { r with cyc := false, dir := .stop, fbev := { r.fbev with cycleStopped := true } }
  else if cycleMayStart op o then
    { r with cyc := true, cyclesDone := 0, dir := .fwd, fbev := { r.fbev with cycleStarted := true } }
  else { r with fbev := { r.fbev with cycleStartFail := true } }

/-- The cycle button of manual mode: the long press, else the short release (R165, R166). -/
def cycleButton (op : OpParams) (o : CycleOperands) (edge : Bool) (r : Roll) : Roll :=
  if edge then { r with cyc := false, epReset := true, fbev := { r.fbev with pointReset := true } }
  else if cycToggled o edge then cycleToggle op o r
  else r

/-- `min(cycles_done + 1, 255)` (R170). -/
def nextCyclesDone (n : Byte) : Byte := if n = 255 then 255 else n + 1

/-- CYCLE_LOGIC (R170). -/
def cycleLogic (op : OpParams) (o : CycleOperands) (r : Roll) : Roll :=
  if decide (r.dir = .fwd) && o.atFwdEnd then { r with dir := .rev, fbev := { r.fbev with dirAuto := true } }
  else if decide (r.dir = .rev) && o.atRevEnd then
    let n := nextCyclesDone r.cyclesDone
    if op.rollCycles.toNat ≤ n.toNat then
      { r with cyclesDone := n, dir := .stop, cyc := false, ccomp := true,
               fbev := { r.fbev with cycleComplete := true } }
    else { r with cyclesDone := n, dir := .fwd, fbev := { r.fbev with dirAuto := true } }
  else r

/-- The remembered direction, applied on APO exit unless this cycle had a direction press or a cycle toggle (R167). -/
def applyResume (apoExit quiet : Bool) (r : Roll) : Roll :=
  if apoExit && r.resume != .stop && quiet then { r with dir := r.resume } else r

/-- Manual mode: direction buttons, cycle button, resume, cycle logic, each seeing the writes before it (R160; R164 to R170).
With cycle mode on, the cycle logic may reverse a direction just resumed, as in R160 and vector ROLL-33; R173 item 4, which
has no premise on `cyc`, says otherwise. DEDUCED: R160 is followed (log entry 28). -/
def manualMode (op : OpParams) (o : CycleOperands) (edge apoExit : Bool) (r : Roll) : Roll :=
  let quiet := !manualDir o && !cycToggled o edge
  let r1 := cycleButton op o edge (directionButtons o r)
  let r2 := applyResume apoExit quiet r1
  if r2.cyc && quiet then cycleLogic op o r2 else r2

/-- The one-cycle outputs are cleared at the start of every step (R161). -/
def rollClear (r : Roll) : Roll := { r with fbev := {}, ccomp := false, epReset := false }

/-- The three exclusive priority branches (R160, R162 to R164). -/
def rollBranch (c : Config) (op : OpParams) (o : CycleOperands) (apo : Bool) (r : Roll) : Roll :=
  if interlock o then { r with dir := .stop }
  else if apo then apoOverride c o r
  else manualMode op o (longEdge o r.prevCycLong) (r.prevApo && !apo) r

/-- ROLL_STEP (R160): the branch, then the clearing of `resume` on APO exit (R167), the history registers (R171) and the
direction-changed flag. `apo` is the sampled `apo_active`. -/
def rollStep (c : Config) (op : OpParams) (o : CycleOperands) (apo : Bool) (r : Roll) : Roll :=
  let r1 := rollBranch c op o apo (rollClear r)
  { r1 with
    resume := if r.prevApo && !apo then .stop else r1.resume
    prevApo := apo
    prevCycLong := hasButton o.longHeld .cyc
    dchg := r1.dir != r.dir }

end Sys2Proof.Machine
end

