-- ==== Sys2Proof/Machine/Scheduler.lean ====
section
/-! DEFINITION. The event scheduler: the countdown step, SCHED_ADVANCE with its auto-power-off counter and decoder,
APO_RESET and APO_ACTIVE (40_tick_scheduler.md rules R101 to R106). They are steps of CYCLE. -/

namespace Sys2Proof.Machine

/-- `countdown(c, P)`: the counter after the step, and whether it fired (R101). -/
def countdown (c : Half) (p : Nat) : Half × Bool :=
  let n := c - 1
  if n = 0 then (BitVec.ofNat 16 p, true) else (n, false)

/-- A nested counter: it steps only when the event it is nested in fired (R102). -/
def countdownIf (on : Bool) (c : Half) (p : Nat) : Half × Bool :=
  if on then countdown c p else (c, false)

/-- `APO_INCREMENT(m)`: the minute counter after the step, and whether it moved (R103). -/
def apoIncrement (maxCnt : Byte) (m : Bool) (cnt : Byte) : Byte × Bool :=
  if m && decide (cnt.toNat < maxCnt.toNat) then (cnt + 1, true) else (cnt, false)

/-- `APO_DECODE(inc)`: the one-shot flags (soon, expired) for timeout `t` and the counter after APO_INCREMENT (R104). -/
def apoDecode (t cnt : Byte) (inc : Bool) : Bool × Bool :=
  (inc && t != 0 && cnt == t - 1, inc && t != 0 && cnt == t)

/-- SCHED_ADVANCE with APO timeout `t` (R102). -/
def schedAdvance (c : Config) (t : Byte) (sc : Scheduler) : Scheduler :=
  let cel := countdown sc.cntCel c.pCel
  let pid := countdownIf cel.2 sc.cntPid c.pPid
  let log := countdown sc.cntLog c.pLog
  let ten := countdown sc.cntTen c.pTen
  let min := countdownIf ten.2 sc.cntMin c.pMin
  let inc := apoIncrement c.apoCntMax min.2 sc.apoCnt
  let apo := apoDecode t inc.1 inc.2
  { cntCel := cel.1, cntPid := pid.1, cntLog := log.1, cntTen := ten.1, cntMin := min.1, apoCnt := inc.1,
    sflags :=
      { cel := cel.2, pid := pid.2, log := log.2, ten := ten.2, min := min.2, apoSoon := apo.1, apoExp := apo.2 } }

/-- APO_RESET (R105). -/
def apoReset (sc : Scheduler) : Scheduler := { sc with apoCnt := 0 }

/-- APO_ACTIVE for timeout `t` and counter `cnt` (R106). -/
def apoActive (t cnt : Byte) : Bool := t != 0 && decide (t.toNat ≤ cnt.toNat)

end Sys2Proof.Machine
end

