-- ==== Sys2Proof/WellFormed.lean ====
section
/-! DEFINITION. When a command's operands are legal: every reserved operand bit is 0 (30_encoding.md rules R83, R87, R90).
Every other operand value is legal (R84 to R86). -/

namespace Sys2Proof

/-- Every reserved bit of a format C operand bundle is 0 (R83). -/
def CycleOperands.reservedClear (o : CycleOperands) : Bool :=
  o.rsvPressed == 0 && o.rsvRelShort == 0 && o.rsvLongHeld == 0 && o.rsvRaw == 0 && o.rsvStatus == 0

/-- A command with no reserved operand bit set (R90). -/
def Instr.wellFormed : Instr → Bool
  | .tick => true
  | .cycle o => o.reservedClear
  | .psLoad => true
  | .psSaveOp => true
  | .psSaveCal => true
  | .psWriteOp _ => true
  | .psWriteCal _ => true
  | .setCalMode _ rsv => rsv == 0
  | .powerLoss => true

end Sys2Proof
end

