-- ==== Sys2Proof/Machine/System.lean ====
section
/-! DEFINITION. The control cycle and the system commands CYCLE, SET_CAL_MODE and POWER_LOSS (45_system.md rules R210 to
R217). -/

namespace Sys2Proof.Machine

/-- User activity: any pressed edge (R212). -/
def userActivity (o : CycleOperands) : Bool := o.pressed != 0

/-- Steps 2 and 3 of CYCLE: APO_RESET on user activity, then SCHED_ADVANCE (R211). -/
def cycleSched (o : CycleOperands) (s : State) : Scheduler :=
  schedAdvance s.cfg s.store.op.apoTimeout (if userActivity o then apoReset s.sched else s.sched)

/-- Step 4 of CYCLE: the `apo_active` both state machines read (R211, R214). -/
def cycleApo (o : CycleOperands) (s : State) : Bool := apoActive s.store.op.apoTimeout (cycleSched o s).apoCnt

/-- Step 5 of CYCLE (R211). -/
def cycleRoll (o : CycleOperands) (s : State) : Roll := rollStep s.cfg s.store.op o (cycleApo o s) s.roll

/-- Step 6 of CYCLE (R211). -/
def cycleHeat (o : CycleOperands) (s : State) : Heater × Pid :=
  heaterStep s.cfg s.store.op o (cycleSched o s).sflags.pid (cycleApo o s) s.heater s.pid

/-- One coarse cycle, its seven steps (R211), and the sensor status it sampled, for the port (00_scope.md R7; log entry
26). -/
def runCycle (o : CycleOperands) (s : State) : State :=
  { s with
    sched := cycleSched o s
    roll := cycleRoll o s
    heater := (cycleHeat o s).1
    pid := (cycleHeat o s).2
    sensor := { noSensor := o.noSensor, shorted := o.shorted }
    tick := { s.tick with ready := false } }

/-- CYCLE: its checks in order, then the coarse cycle (R210, R211). While `ready` is 0 it holds: the state stays as it is
(log entry 6). -/
def execCycle (o : CycleOperands) (s : State) : Host.Outcome State Fault Refusal :=
  unlessHalted s
    (if !o.reservedClear then .next (raiseFault .badOperand s)
     else if !s.tick.ready then .next s
     else ifLoaded s (.next (runCycle o s)))

/-- SET_CAL_MODE (R216; 30_encoding.md R87, R90). -/
def execSetCalMode (v : Bool) (rsv : BitVec 7) (s : State) : Host.Outcome State Fault Refusal :=
  unlessHalted s
    (if rsv != 0 then .next (raiseFault .badOperand s)
     else .next { s with heater := { s.heater with hs := { s.heater.hs with cal := v } } })

/-- POWER_LOSS up to its save: every actuator inert (R217). -/
def makeInert (s : State) : State :=
  { s with
    sys := { s.sys with inert := true }
    heater := { s.heater with duty := 0 }
    roll := { s.roll with dir := .stop } }

/-- The save POWER_LOSS makes: the OperatingParams, if they are loaded (R217). -/
def finalSave (s : State) : Except Fault NvStore := if s.store.loaded then saveOp s else .ok s.nv

/-- The state POWER_LOSS leaves with NV store `n`: inert and halted (R217). -/
def afterPowerLoss (s : State) (n : NvStore) : State :=
  { makeInert s with sys := { (makeInert s).sys with halted := true }, nv := n }

/-- POWER_LOSS (R217). -/
def execPowerLoss (s : State) : Host.Outcome State Fault Refusal :=
  unlessHalted s (ofNv (finalSave s) (afterPowerLoss s))

end Sys2Proof.Machine
end

