-- ==== Sys2Proof/Machine/Tick.lean ====
section
/-! DEFINITION. The tick divider and its command TICK (40_tick_scheduler.md rule R100). -/

namespace Sys2Proof.Machine

/-- One 1 ms tick: the countdown, and at zero the reload and the ready flag (R100). -/
def tickDivide (c : Config) (t : TickUnit) : TickUnit :=
  let n := t.tickCnt - 1
  if n = 0 then { tickCnt := BitVec.ofNat 16 c.coarseTicks, ready := true } else { t with tickCnt := n }

/-- TICK (R100). -/
def execTick (s : State) : Host.Outcome State Fault Refusal :=
  unlessHalted s (.next { s with tick := tickDivide s.cfg s.tick })

end Sys2Proof.Machine
end

