-- ==== Sys2Proof/Machine/Dispatch.lean ====
section
/-! DEFINITION. One arm per command: the dispatch of exec to the meanings. -/

namespace Sys2Proof.Machine

def exec (i : Instr) (s : State) : Host.Outcome State Fault Refusal :=
  match i with
  | .tick => Sys2Proof.Machine.execTick s
  | .cycle o => Sys2Proof.Machine.execCycle o s
  | .psLoad => Sys2Proof.Machine.execPsLoad s
  | .psSaveOp => Sys2Proof.Machine.execPsSaveOp s
  | .psSaveCal => Sys2Proof.Machine.execPsSaveCal s
  | .psWriteOp p => Sys2Proof.Machine.execPsWriteOp p s
  | .psWriteCal p => Sys2Proof.Machine.execPsWriteCal p s
  | .setCalMode v rsv => Sys2Proof.Machine.execSetCalMode v rsv s
  | .powerLoss => Sys2Proof.Machine.execPowerLoss s

end Sys2Proof.Machine
end

