-- ==== Sys2Proof/Decode.lean ====
section
/-! DEFINITION. The decoder of command byte strings, total on any bytes, and the encoder (30_encoding.md rules R80 to R91).
An unlisted opcode and an incomplete command are reported under names of their own. -/

namespace Sys2Proof

/-- What the decoder reads at the front of a byte string (R80, R89). -/
inductive Decoded where
  /-- a command, and the bytes after it -/
  | command (i : Instr) (rest : List Byte)
  /-- a byte that is no opcode, one byte long (R89), and the bytes after it -/
  | illegalOpcode (op : Byte) (rest : List Byte)
  /-- the bytes end before the operand bytes are complete: not a command (R80) -/
  | incomplete
  /-- no bytes at all -/
  | empty
  deriving DecidableEq, Repr

/-- The opcode of a command (R82). -/
def opcodeOf : Mnemonic → Byte
  | .tick => 0x01
  | .cycle => 0x02
  | .psLoad => 0x10
  | .psSaveOp => 0x11
  | .psSaveCal => 0x12
  | .psWriteOp => 0x13
  | .psWriteCal => 0x14
  | .setCalMode => 0x20
  | .powerLoss => 0x30

/-- The format of a command (R82). -/
def formatOf : Mnemonic → Format
  | .tick => .n
  | .cycle => .c
  | .psLoad => .n
  | .psSaveOp => .n
  | .psSaveCal => .n
  | .psWriteOp => .w
  | .psWriteCal => .k
  | .setCalMode => .b
  | .powerLoss => .n

/-- The number of operand bytes of a format (R81). -/
def operandLength : Format → Nat
  | .n => 0
  | .c => 11
  | .w => 5
  | .k => 8
  | .b => 1

/-- The rows of the opcode map (R82), in its order. -/
def opcodeMap : List Mnemonic :=
  [.tick, .cycle, .psLoad, .psSaveOp, .psSaveCal, .psWriteOp, .psWriteCal, .setCalMode, .powerLoss]

/-- The command an opcode byte stands for; `none` for an illegal opcode (R82, R89). -/
def lookupOpcode (op : Byte) : Option Mnemonic := opcodeMap.find? (fun m => opcodeOf m == op)

/-- The SET_CAL_MODE command in its operand byte: bit 0 the value, bits 7:1 reserved (R87). -/
def setCalModeOf (b : Byte) : Instr := .setCalMode (b.getLsbD 0) (b.extractLsb' 1 7)

/-- A command from its operand bytes, as many as its format takes (R83 to R88). -/
def commandOf (m : Mnemonic) (bs : List Byte) : Instr :=
  match m with
  | .tick => .tick
  | .cycle =>
    .cycle
      (Machine.cycleOperandsOf (bs.getD 0 0) (bs.getD 1 0) (bs.getD 2 0) (bs.getD 3 0) (bs.getD 4 0) (bs.getD 5 0)
        (bs.getD 6 0) (bs.getD 7 0) (bs.getD 8 0) (bs.getD 9 0) (bs.getD 10 0))
  | .psLoad => .psLoad
  | .psSaveOp => .psSaveOp
  | .psSaveCal => .psSaveCal
  | .psWriteOp => .psWriteOp (Machine.deOp bs)
  | .psWriteCal => .psWriteCal (Machine.deCal bs)
  | .setCalMode => setCalModeOf (bs.getD 0 0)
  | .powerLoss => .powerLoss

/-- Reads one command: one opcode byte, then exactly its format's operand bytes (R80, R81, R89). -/
def decode : List Byte → Decoded
  | [] => .empty
  | op :: rest =>
    match lookupOpcode op with
    | none => .illegalOpcode op rest
    | some m =>
      if rest.length < operandLength (formatOf m) then .incomplete
      else .command (commandOf m (rest.take (operandLength (formatOf m)))) (rest.drop (operandLength (formatOf m)))

/-- The operand bytes of a command (R83 to R87). -/
def operandBytes : Instr → List Byte
  | .tick => []
  | .cycle o => Machine.cycleBytes o
  | .psLoad => []
  | .psSaveOp => []
  | .psSaveCal => []
  | .psWriteOp p => Machine.serOp p
  | .psWriteCal p => Machine.serCal p
  | .setCalMode v rsv => [Machine.calModeByte v rsv]
  | .powerLoss => []

/-- The bytes of a command: its opcode, then its operand bytes (R80). -/
def encode (i : Instr) : List Byte := opcodeOf i.mnemonic :: operandBytes i

/-- The bytes of the longest command (format C, R81). -/
def longestCommand : Nat := 12

/-- The low `nbits` bits of `w` as the bytes of a command, first byte the least significant one, followed by zero bytes up
to the longest command's length. -/
def tableWordBytes (nbits w : Nat) : List Byte :=
  (List.range longestCommand).map fun k => BitVec.ofNat 8 ((w % 2 ^ nbits) >>> (8 * k))

/-- The command the decoder reads from a table word (numbered as spec/opcode_table.json numbers its bits). -/
def decodeTableWord (nbits w : Nat) : Option Instr :=
  match decode (tableWordBytes nbits w) with
  | .command i _ => some i
  | .illegalOpcode _ _ => none
  | .incomplete => none
  | .empty => none

end Sys2Proof
end

