-- ==== Sys2Proof/Machine/Environment.lean ====
section
/-! DEFINITION. The environment of the core: the bytes each agent has yet to apply (10_state.md rules R20, R21), the commands
that wait, and turns that reset cuts. DESIGN CHOICE (log entries 6, 7 and 8). -/

namespace Sys2Proof.Machine

/-- The bytes an agent has yet to apply. -/
def pendingBytes (a : Agent) (e : Env) : List Byte :=
  match a with
  | .tick => e.tickIn
  | .main => e.mainIn
  | .host => e.hostIn

/-- The environment with an agent's pending bytes replaced. -/
def setPending (a : Agent) (bs : List Byte) (e : Env) : Env :=
  match a with
  | .tick => { e with tickIn := bs }
  | .main => { e with mainIn := bs }
  | .host => { e with hostIn := bs }

/-- The state after an agent's next command was taken off its pending bytes. -/
def advance (a : Agent) (rest : List Byte) (s : State) : State := { s with env := setPending a rest s.env }

/-- The state once the turn at the front of the schedule is taken. -/
def dropTurn (ts : List Turn) (s : State) : State := { s with env := { s.env with schedule := ts } }

/-- A command that is enabled only later and stays pending: CYCLE with good operands while `ready` is 0 (45_system.md R210,
R220). -/
def waits (i : Instr) (s : State) : Bool :=
  match i with
  | .tick => false
  | .cycle o => o.reservedClear && !s.tick.ready
  | .psLoad => false
  | .psSaveOp => false
  | .psSaveCal => false
  | .psWriteOp _ => false
  | .psWriteCal _ => false
  | .setCalMode _ _ => false
  | .powerLoss => false

/-- An outcome cut by reset after its first `k` NV byte writes; `s` is the state before the command (20_memory.md R74). -/
def cutAfter (k : Nat) (s : State) (o : Host.Outcome State Fault Refusal) : Host.Outcome State Fault Refusal :=
  match o with
  | .next t => .next (tornReset k s t)
  | .fault e => .fault e
  | .refused r => .refused r

/-- The tick divider in which command bytes placed as the next ones do not wait: `ready` is 1 if they are a command that
would hold. -/
def placedTick (bs : List Byte) (s : State) : TickUnit :=
  match decode bs with
  | .command i _ => if waits i s then { s.tick with ready := true } else s.tick
  | .illegalOpcode _ _ => s.tick
  | .incomplete => s.tick
  | .empty => s.tick

/-- The state in which the next turn is the host agent's and the front of its pending bytes is the command with table word
`w`, enabled (log entry 7). -/
def placeCommand (s : State) (nbits w : Nat) : State :=
  { s with
    tick := placedTick (tableWordBytes nbits w) s
    env := { s.env with hostIn := tableWordBytes nbits w ++ s.env.hostIn, schedule := .command .host :: s.env.schedule } }

end Sys2Proof.Machine
end

