-- ==== Sys2Proof/Machine/Turns.lean ====
section
/-! DEFINITION. One step of the machine: the configuration's checks (00_scope.md rule R10), then the turn at the front of the
schedule: a command of an agent, one cut by reset, or reset (20_memory.md rules R70 and R74, 70_reset_and_hazards.md rule
R252). -/

namespace Sys2Proof.Machine

/-- An agent's turn. While the core is halted no command has a step, and a command that waits has none yet: it stays
pending (45_system.md R210, R218). An illegal opcode is a command of one byte that raises F_ILLEGAL_CMD (30_encoding.md
R89). An agent with no bytes has no command to apply. -/
def runCommand (a : Agent) (s : State) : Host.Outcome State Fault Refusal :=
  if s.sys.halted then .next s
  else
    match decode (pendingBytes a s.env) with
    | .empty => .next s
    | .incomplete => .refused .incompleteCommand
    | .illegalOpcode _ rest => .next (raiseFault .illegalCmd (advance a rest s))
    | .command i rest => if waits i s then .next s else exec i (advance a rest s)

/-- The turn at the front of the schedule. With an empty schedule nothing happens. -/
def takeTurn (s : State) : Host.Outcome State Fault Refusal :=
  match s.env.schedule with
  | [] => .next s
  | .reset :: ts => .next (resetEvent (dropTurn ts s))
  | .command a :: ts => runCommand a (dropTurn ts s)
  | .commandCut a k :: ts => cutAfter k (dropTurn ts s) (runCommand a (dropTurn ts s))

/-- A step under the configuration's checks: an ill-formed configuration takes none (00_scope.md R10). -/
def checkedTurn (s : State) : Host.Outcome State Fault Refusal :=
  match s.cfg.failedCheck with
  | some k => .refused (.configIllFormed k)
  | none => takeTurn s

end Sys2Proof.Machine
end

