-- ==== Sys2Proof/Machine/Step.lean ====
section
/-! DEFINITION. The step function, and the placing of a command where the step takes its next one (log entry 7). -/

namespace Sys2Proof.Machine

/-- One step (Machine/Turns.lean). -/
def step (s : State) : Host.Outcome State Fault Refusal := checkedTurn s

/-- `s` with the command of table word `w` as the next one the step runs (Machine/Environment.lean). -/
def State.withFetchWord (s : State) (nbits w : Nat) : State := placeCommand s nbits w

end Sys2Proof.Machine
end

