-- ==== Sys2Proof/Machine/Assembler.lean ====
section
/-! DEFINITION. Command text and pseudo-commands (30_encoding.md rules R92 and R93), on the syntax tree of R92's grammar: a
mnemonic and a list of named operands (log entry 19). -/

namespace Sys2Proof.Machine

/-- The operand names of R92. -/
inductive OperandName where
  | pressed | rel | long | raw | temp | sp | pv | status
  | setpoint | cycles | sound | timeout
  | c1 | r1 | c2 | r2
  | v
  deriving DecidableEq, Repr

/-- The members of the `status` set (R92). -/
inductive StatusName where
  | noSensor | shorted | epValid | atFwd | atRev
  deriving DecidableEq, Repr

/-- An operand's value: an integer, a set of buttons or a set of status bits (R92). -/
inductive OperandValue where
  | int (v : Int)
  | buttons (ks : List Button)
  | statusSet (ks : List StatusName)
  deriving DecidableEq, Repr

/-- A command of R92's grammar. -/
structure CommandText where
  mnemonic : Mnemonic
  operands : List (OperandName × OperandValue) := []
  deriving DecidableEq, Repr

/-- The operand names a format takes (R92). -/
def operandNames : Format → List OperandName
  | .n => []
  | .c => [.pressed, .rel, .long, .raw, .temp, .sp, .pv, .status]
  | .w => [.setpoint, .cycles, .sound, .timeout]
  | .k => [.c1, .r1, .c2, .r2]
  | .b => [.v]

/-- The names a format requires: all of W, K and B, none of C (R92). -/
def requiredNames : Format → List OperandName
  | .n => []
  | .c => []
  | .w => operandNames .w
  | .k => operandNames .k
  | .b => operandNames .b

/-- Every operand has a name of the format, none stands twice, and none that is required is left out (R92). -/
def operandsFit (t : CommandText) : Bool :=
  let names := t.operands.map (·.1)
  let f := formatOf t.mnemonic
  names.all (fun n => (operandNames f).contains n) && decide names.Nodup &&
    (requiredNames f).all (fun n => names.contains n)

/-- An integer operand within the range of its field; left out, it is 0 (R92). -/
def intOperand (t : CommandText) (n : OperandName) (lo hi : Int) : Option Int :=
  match t.operands.lookup n with
  | none => some 0
  | some (.int v) => if lo ≤ v ∧ v ≤ hi then some v else none
  | some (.buttons _) => none
  | some (.statusSet _) => none

/-- An int16 operand. -/
def int16Operand (t : CommandText) (n : OperandName) : Option Half :=
  (intOperand t n (-32768) 32767).map (BitVec.ofInt 16)

/-- A uint16 operand. -/
def uint16Operand (t : CommandText) (n : OperandName) : Option Half :=
  (intOperand t n 0 65535).map (BitVec.ofInt 16)

/-- A uint8 operand. -/
def uint8Operand (t : CommandText) (n : OperandName) : Option Byte :=
  (intOperand t n 0 255).map (BitVec.ofInt 8)

/-- A button-set operand; left out, it is the empty set (R92). -/
def buttonsOperand (t : CommandText) (n : OperandName) : Option ButtonSet :=
  match t.operands.lookup n with
  | none => some 0
  | some (.buttons ks) => some (buttonSet ks)
  | some (.int _) => none
  | some (.statusSet _) => none

/-- The `status` operand; left out, it is the empty set (R92). -/
def statusOperand (t : CommandText) : Option (List StatusName) :=
  match t.operands.lookup .status with
  | none => some []
  | some (.statusSet ks) => some ks
  | some (.int _) => none
  | some (.buttons _) => none

/-- The format C operands of a command text (R92). -/
def cycleOperandsText (t : CommandText) : Option CycleOperands := do
  let pressed ← buttonsOperand t .pressed
  let relShort ← buttonsOperand t .rel
  let longHeld ← buttonsOperand t .long
  let raw ← buttonsOperand t .raw
  let tempC ← int16Operand t .temp
  let spInt ← uint16Operand t .sp
  let pv ← uint16Operand t .pv
  let st ← statusOperand t
  some
    { pressed := pressed, relShort := relShort, longHeld := longHeld, raw := raw, tempC := tempC, spInt := spInt,
      pv := pv, noSensor := st.contains .noSensor, shorted := st.contains .shorted, epValid := st.contains .epValid,
      atFwdEnd := st.contains .atFwd, atRevEnd := st.contains .atRev }

/-- The format W operands of a command text (R92). -/
def opParamsText (t : CommandText) : Option OpParams := do
  let setpoint ← int16Operand t .setpoint
  let rollCycles ← uint8Operand t .cycles
  let soundEn ← uint8Operand t .sound
  let apoTimeout ← uint8Operand t .timeout
  some { setpoint := setpoint, rollCycles := rollCycles, soundEn := soundEn, apoTimeout := apoTimeout }

/-- The format K operands of a command text (R92). -/
def calParamsText (t : CommandText) : Option CalParams := do
  let c1 ← int16Operand t .c1
  let r1 ← uint16Operand t .r1
  let c2 ← int16Operand t .c2
  let r2 ← uint16Operand t .r2
  some { c1 := c1, r1 := r1, c2 := c2, r2 := r2 }

/-- The command a command text stands for; `none` for a text whose operands do not fit its format (R92). -/
def assemble (t : CommandText) : Option Instr :=
  if operandsFit t then
    match t.mnemonic with
    | .tick => some .tick
    | .cycle => (cycleOperandsText t).map .cycle
    | .psLoad => some .psLoad
    | .psSaveOp => some .psSaveOp
    | .psSaveCal => some .psSaveCal
    | .psWriteOp => (opParamsText t).map .psWriteOp
    | .psWriteCal => (calParamsText t).map .psWriteCal
    | .setCalMode => (intOperand t .v 0 1).map fun v => .setCalMode (decide (v = 1)) 0
    | .powerLoss => some .powerLoss
  else none

/-- A command or one of the pseudo-commands that REPEAT may repeat (R93). -/
inductive SimpleLine where
  | command (i : Instr)
  | ticks (n : Nat)
  | period (o : CycleOperands)
  | idle
  | boot
  deriving DecidableEq, Repr

/-- A line of a command stream (R93). -/
inductive Line where
  | simple (l : SimpleLine)
  | rep (n : Nat) (l : SimpleLine)
  | db (bytes : List Byte)
  deriving DecidableEq, Repr

/-- `n` copies of a byte string. -/
def copies (n : Nat) (bs : List Byte) : List Byte := (List.replicate n bs).flatten

/-- The bytes of a command or repeatable pseudo-command (R93). -/
def expandSimple (c : Config) : SimpleLine → List Byte
  | .command i => encode i
  | .ticks n => copies n (encode .tick)
  | .period o => copies c.coarseTicks (encode .tick) ++ encode (.cycle o)
  | .idle => encode (.cycle {})
  | .boot => encode .psLoad

/-- The bytes a line places in the command stream (R93). -/
def expandLine (c : Config) : Line → List Byte
  | .simple l => expandSimple c l
  | .rep n l => copies n (expandSimple c l)
  | .db bytes => bytes

end Sys2Proof.Machine
end

