-- ==== Sys2Proof/Machine/CommandText.lean ====
section
/-! DEFINITION. Reading a line of command text: the characters of 30_encoding.md rules R92 and R93 to the syntax tree of
Machine/Assembler.lean. Blanks separate words and mean nothing else. DEDUCED where the rules give no spelling (log entry
19). -/

namespace Sys2Proof.Machine

/-- What a line is cut into. -/
inductive Token where
  | word (s : String)
  | comma | equals | colon | openSet | closeSet
  deriving DecidableEq, Repr

/-- The opening bracket of a set (R92), by its code. -/
def openBracket : Char := Char.ofNat 123

/-- The closing bracket of a set (R92), by its code. -/
def closeBracket : Char := Char.ofNat 125

/-- The characters that are tokens of their own. -/
def delimiter (c : Char) : Option Token :=
  if c = ',' then some .comma
  else if c = '=' then some .equals
  else if c = ':' then some .colon
  else if c = openBracket then some .openSet
  else if c = closeBracket then some .closeSet
  else none

/-- The word whose characters were read, last one first, before the tokens that follow it. -/
def endWord (acc : List Char) (ts : List Token) : List Token :=
  if acc.isEmpty then ts else .word (String.ofList acc.reverse) :: ts

/-- The tokens of a line's characters; `acc` holds the word being read, last character first. -/
def tokensFrom (acc : List Char) : List Char → List Token
  | [] => endWord acc []
  | c :: cs =>
    if c = ' ' ∨ c = '\t' then endWord acc (tokensFrom [] cs)
    else
      match delimiter c with
      | some t => endWord acc (t :: tokensFrom [] cs)
      | none => tokensFrom (c :: acc) cs

/-- A digit's value. -/
def digitValue (c : Char) : Option Nat :=
  if '0'.toNat ≤ c.toNat ∧ c.toNat ≤ '9'.toNat then some (c.toNat - '0'.toNat)
  else if 'a'.toNat ≤ c.toNat ∧ c.toNat ≤ 'f'.toNat then some (c.toNat - 'a'.toNat + 10)
  else if 'A'.toNat ≤ c.toNat ∧ c.toNat ≤ 'F'.toNat then some (c.toNat - 'A'.toNat + 10)
  else none

/-- The value of digits in a base, from the value `n` of the digits before them. -/
def digitsFrom (base : Nat) (n : Nat) : List Char → Option Nat
  | [] => some n
  | c :: cs =>
    match digitValue c with
    | some d => if d < base then digitsFrom base (n * base + d) cs else none
    | none => none

/-- A number of at least one digit. -/
def digits (base : Nat) (cs : List Char) : Option Nat := if cs.isEmpty then none else digitsFrom base 0 cs

/-- A number without a sign: 0x and hexadecimal digits, or decimal digits (R92). -/
def unsignedText : List Char → Option Nat
  | '0' :: 'x' :: cs => digits 16 cs
  | cs => digits 10 cs

/-- An integer, optionally signed (R92). -/
def integerText : List Char → Option Int
  | '-' :: cs => (unsignedText cs).map fun n => -(n : Int)
  | '+' :: cs => (unsignedText cs).map fun n => (n : Int)
  | cs => (unsignedText cs).map fun n => (n : Int)

/-- The operand name a word spells (R92). -/
def operandNameText (s : String) : Option OperandName :=
  match s with
  | "pressed" => some .pressed
  | "rel" => some .rel
  | "long" => some .long
  | "raw" => some .raw
  | "temp" => some .temp
  | "sp" => some .sp
  | "pv" => some .pv
  | "status" => some .status
  | "setpoint" => some .setpoint
  | "cycles" => some .cycles
  | "sound" => some .sound
  | "timeout" => some .timeout
  | "c1" => some .c1
  | "r1" => some .r1
  | "c2" => some .c2
  | "r2" => some .r2
  | "v" => some .v
  | _ => none

/-- The button a word spells (R92). -/
def buttonText (s : String) : Option Button :=
  match s with
  | "fwd" => some .fwd
  | "rev" => some .rev
  | "cyc" => some .cyc
  | "menu" => some .menu
  | "heat" => some .heat
  | _ => none

/-- The status bit a word spells (R92). -/
def statusText (s : String) : Option StatusName :=
  match s with
  | "no_sensor" => some .noSensor
  | "shorted" => some .shorted
  | "ep_valid" => some .epValid
  | "at_fwd" => some .atFwd
  | "at_rev" => some .atRev
  | _ => none

/-- The mnemonic a word spells (R82). -/
def mnemonicText (s : String) : Option Mnemonic :=
  match s with
  | "TICK" => some .tick
  | "CYCLE" => some .cycle
  | "PS_LOAD" => some .psLoad
  | "PS_SAVE_OP" => some .psSaveOp
  | "PS_SAVE_CAL" => some .psSaveCal
  | "PS_WRITE_OP" => some .psWriteOp
  | "PS_WRITE_CAL" => some .psWriteCal
  | "SET_CAL_MODE" => some .setCalMode
  | "POWER_LOSS" => some .powerLoss
  | _ => none

/-- The names of a set that is not empty, from after its opening bracket, and the tokens after it (R92). -/
def setMembers : List Token → Option (List String × List Token)
  | .word w :: .closeSet :: ts => some ([w], ts)
  | .word w :: .comma :: ts => (setMembers ts).map fun r => (w :: r.1, r.2)
  | _ => none

/-- The names of a set, from after its opening bracket, and the tokens after it (R92). -/
def setText : List Token → Option (List String × List Token)
  | .closeSet :: ts => some ([], ts)
  | ts => setMembers ts

/-- The value a set of names has as the operand `n`: status bits for `status`, else buttons (R92). -/
def setValue (n : OperandName) (ws : List String) : Option OperandValue :=
  if n = .status then (ws.mapM statusText).map .statusSet else (ws.mapM buttonText).map .buttons

/-- An operand's value, from after its `=`, and the tokens after it (R92). -/
def valueText (n : OperandName) : List Token → Option (OperandValue × List Token)
  | .word w :: ts => (integerText w.toList).map fun v => (.int v, ts)
  | .openSet :: ts => do
    let r ← setText ts
    let v ← setValue n r.1
    some (v, r.2)
  | _ => none

/-- An operand, and the tokens after it (R92). -/
def operandText : List Token → Option ((OperandName × OperandValue) × List Token)
  | .word w :: .equals :: ts => do
    let n ← operandNameText w
    let r ← valueText n ts
    some ((n, r.1), r.2)
  | _ => none

/-- Operands with commas between them to the end of the line, at most `fuel` of them (R92). -/
def operandsText : Nat → List Token → Option (List (OperandName × OperandValue))
  | 0, _ => none
  | fuel + 1, ts => do
    let r ← operandText ts
    match r.2 with
    | [] => some [r.1]
    | .comma :: rest => (operandsText fuel rest).map (r.1 :: ·)
    | _ => none

/-- The operands of a command, which may have none (R92). -/
def operandListText (ts : List Token) : Option (List (OperandName × OperandValue)) :=
  if ts.isEmpty then some [] else operandsText ts.length ts

/-- The count of `TICKS n` and `REPEAT n`: a number without a sign, decimal or 0x-hex. R92's grammar covers operands only, and
R93 gives `n` no spelling. A parameter's name, as in the `TICKS COARSE_TICKS` that R93 and 70_reset_and_hazards.md R254
print, is not read as a count. DESIGN CHOICE (log entry 19). -/
def countText (w : String) : Option Nat := unsignedText w.toList

/-- `PERIOD` with its CYCLE operands (R93). -/
def periodText (ts : List Token) : Option SimpleLine := do
  let ops ← operandListText ts
  let o ← if operandsFit { mnemonic := .cycle, operands := ops } then
      cycleOperandsText { mnemonic := .cycle, operands := ops } else none
  some (.period o)

/-- A command with its operands (R92). -/
def commandText (w : String) (ts : List Token) : Option SimpleLine := do
  let m ← mnemonicText w
  let ops ← operandListText ts
  let i ← assemble { mnemonic := m, operands := ops }
  some (.command i)

/-- A command or a repeatable pseudo-command (R93). -/
def simpleText (ts : List Token) : Option SimpleLine :=
  match ts with
  | [.word "TICKS", .word n] => (countText n).map .ticks
  | [.word "IDLE"] => some .idle
  | [.word "BOOT"] => some .boot
  | .word "PERIOD" :: ts => periodText ts
  | .word w :: ts => commandText w ts
  | _ => none

/-- A raw byte: two hexadecimal digits, as 95_test_vectors.md writes them (log entry 19). -/
def byteText : Token → Option Byte
  | .word w => if w.length = 2 then (digits 16 w.toList).map (BitVec.ofNat 8) else none
  | _ => none

/-- A line of a command stream (R93). -/
def lineText (ts : List Token) : Option Line :=
  match ts with
  | .word "REPEAT" :: .word n :: .colon :: ts => do
    let k ← countText n
    let l ← simpleText ts
    some (.rep k l)
  | .word "DB" :: ts => (ts.mapM byteText).map .db
  | ts => (simpleText ts).map .simple

/-- The line a text stands for; `none` for a text that is no line (R92, R93). -/
def lineOfText (s : String) : Option Line := lineText (tokensFrom [] s.toList)

/-- The bytes a command-stream file places, line after line (R92, R93). -/
def bytesOfText (c : Config) (lines : List String) : Option (List Byte) :=
  (lines.mapM lineOfText).map fun ls => (ls.map (expandLine c)).flatten

/-- A set with its brackets, for writing command text (R92). -/
def bracketed (names : String) : String := String.ofList [openBracket] ++ names ++ String.ofList [closeBracket]

end Sys2Proof.Machine
end

