-- ==== Sys2Proof/Machine/Flags.lean ====
section
/-! DEFINITION. The bit positions of the flag registers, as their output ports show them: `sflags` (10_state.md rule R26),
`hs` (R34), `dir` and `resume` (R38, R41), `fbev` (R45), `defaults_used` (R51), `fault` (R52). -/

namespace Sys2Proof.Machine

/-- `sflags` as its seven bits (R26). -/
def SchedFlags.bits (f : SchedFlags) : BitVec 7 :=
  BitVec.ofBool f.apoExp ++ BitVec.ofBool f.apoSoon ++ BitVec.ofBool f.min ++ BitVec.ofBool f.ten
    ++ BitVec.ofBool f.log ++ BitVec.ofBool f.pid ++ BitVec.ofBool f.cel

/-- `hs` as its four bits (R34). -/
def HeaterBits.bits (h : HeaterBits) : BitVec 4 :=
  BitVec.ofBool h.cal ++ BitVec.ofBool h.spc ++ BitVec.ofBool h.rr ++ BitVec.ofBool h.en

/-- The encoding of a direction (R38, R41). -/
def Direction.bits : Direction → BitVec 2
  | .stop => 0
  | .fwd => 1
  | .rev => 2

/-- `fbev` as its seven bits (R45). -/
def FeedbackEvents.bits (f : FeedbackEvents) : BitVec 7 :=
  BitVec.ofBool f.pointReset ++ BitVec.ofBool f.cycleStartFail ++ BitVec.ofBool f.cycleComplete
    ++ BitVec.ofBool f.dirAuto ++ BitVec.ofBool f.cycleStopped ++ BitVec.ofBool f.cycleStarted
    ++ BitVec.ofBool f.dirPressed

/-- `defaults_used` as its two bits (R51). -/
def DefaultsUsed.bits (d : DefaultsUsed) : BitVec 2 := BitVec.ofBool d.cal ++ BitVec.ofBool d.op

/-- `fault` as its three bits (R52). -/
def FaultBits.bits (f : FaultBits) : BitVec 3 :=
  BitVec.ofBool f.notLoaded ++ BitVec.ofBool f.badOperand ++ BitVec.ofBool f.illegalCmd

end Sys2Proof.Machine
end

