-- ==== Sys2Proof/Machine/Ports.lean ====
section
/-! DEFINITION. The output ports, functions of the state (10_state.md rules R27, R47, R54, R56; 00_scope.md rule R7), and the
tone classes the feedback events select (43_roll_fsm.md rule R172). -/

namespace Sys2Proof.Machine

/-- `motor_dir` (R56). -/
def motorDir (s : State) : Direction := if s.sys.inert then .stop else s.roll.dir

/-- `heater_duty` (R56). -/
def heaterDuty (s : State) : BitVec 7 := if s.sys.inert then 0 else s.heater.duty

/-- `led_fwd` (R47, R56). -/
def ledFwd (s : State) : Bool := !s.sys.inert && decide (s.roll.dir = .fwd)

/-- `led_rev` (R47, R56). -/
def ledRev (s : State) : Bool := !s.sys.inert && decide (s.roll.dir = .rev)

/-- `endpoint_reset` (R56). -/
def endpointReset (s : State) : Bool := !s.sys.inert && s.roll.epReset

/-- `sched_flags` (R56). Its bit 2 is the trace hook of the serial logger (60_exceptions.md R245). -/
def schedFlags (s : State) : BitVec 7 := s.sched.sflags.bits

/-- `apo_active` (R27; 40_tick_scheduler.md R106). -/
def apoActivePort (s : State) : Bool := apoActive s.store.op.apoTimeout s.sched.apoCnt

/-- `heater_state` (R56). -/
def heaterState (s : State) : BitVec 4 := s.heater.hs.bits

/-- The `no_sensor` and `shorted` inputs, exported (00_scope.md R7; 60_exceptions.md R234; log entry 26). -/
def sensorPort (s : State) : SensorStatus := s.sensor

/-- The sensor-error input, exported for the Alert Engine (00_scope.md R7; 42_heater_fsm.md R140; log entry 26). -/
def sensorErrorPort (s : State) : Bool := s.sensor.noSensor || s.sensor.shorted

/-- `roll_events`: `fbev`, `dchg`, `ccomp` (R56). -/
def rollEvents (s : State) : BitVec 7 × Bool × Bool := (s.roll.fbev.bits, s.roll.dchg, s.roll.ccomp)

/-- `op_params` (R56). -/
def opParams (s : State) : OpParams := s.store.op

/-- `cal_params` (R56). -/
def calParams (s : State) : CalParams := s.store.cal

/-- `defaults_used` (R56). -/
def defaultsUsedPort (s : State) : BitVec 2 := s.store.defaultsUsed.bits

/-- `fault` (R56). -/
def faultPort (s : State) : BitVec 3 := s.sys.fault.bits

/-- `halted` (R56). -/
def haltedPort (s : State) : Bool := s.sys.halted

/-- `ready` (R56). -/
def readyPort (s : State) : Bool := s.tick.ready

/-- The tone classes of R172 that a feedback-event set selects; choosing one of them is the Sound Sequencer's
(93_implementation_defined.md U8). -/
structure ToneClasses where
  alarm : Bool
  shortLow : Bool
  medium : Bool
  shortHigh : Bool
  deriving DecidableEq, Repr

/-- The feedback mapping (R172). -/
def toneClasses (f : FeedbackEvents) : ToneClasses where
  alarm := f.cycleComplete
  shortLow := f.cycleStartFail
  medium := f.pointReset
  shortHigh := f.dirPressed || f.cycleStarted || f.cycleStopped || f.dirAuto

end Sys2Proof.Machine
end

