-- ==== Sys2Proof/Safety.lean ====
section
/-! DEFINITION. What the statements call a good state: the ranges and invariants 10_state.md gives the registers between
commands, the canonical form of the NV store, and the final states of 45_system.md rule R219. -/

namespace Sys2Proof.Machine

/-- A countdown counter between commands: in [1, its period] (10_state.md R22, R24). -/
def counterInRange (c : Half) (p : Nat) : Prop := 1 ≤ c.toNat ∧ c.toNat ≤ p

/-- The tick divider and the scheduler hold values in their ranges (10_state.md R22, R24, R25). -/
structure SchedInv (s : State) : Prop where
  tickCnt : counterInRange s.tick.tickCnt s.cfg.coarseTicks
  cntCel : counterInRange s.sched.cntCel s.cfg.pCel
  cntPid : counterInRange s.sched.cntPid s.cfg.pPid
  cntLog : counterInRange s.sched.cntLog s.cfg.pLog
  cntTen : counterInRange s.sched.cntTen s.cfg.pTen
  cntMin : counterInRange s.sched.cntMin s.cfg.pMin
  apoCnt : s.sched.apoCnt.toNat ≤ s.cfg.apoCntMax.toNat

/-- The controller's invariants: the clamp in its range, the accumulator inside the clamp, `dsum` the sum of the buffer
(10_state.md R28, R29, R31). -/
structure PidInv (p : Pid) : Prop where
  iclamp : p.iclamp.toNat ≤ 32767
  accLow : -(p.iclamp.toNat : Int) ≤ p.acc.toInt
  accHigh : p.acc.toInt ≤ p.iclamp.toNat
  dsum : p.dsum.toNat = derivSum p.dbuf

/-- The NV store is in canonical form and lists only addresses that exist (20_memory.md R60). -/
structure NvInv (s : State) : Prop where
  canonical : Memory.wf s.nv.bytes = true
  inside : ∀ c ∈ s.nv.bytes, c.1 < s.cfg.nvSize

/-- The duty is at most a DUTY_MAX that is not negative, and no reverse direction is remembered (10_state.md R37, R41; log
entry 30). -/
structure OutputInv (s : State) : Prop where
  duty : 0 ≤ s.cfg.dutyMax → (s.heater.duty.toNat : Int) ≤ s.cfg.dutyMax
  resume : s.roll.resume ≠ .rev

/-- A halted core is inert, with its motor stopped and its heater off, and only a halted core is inert (10_state.md R53, R54;
45_system.md R217, R218). -/
structure HaltInv (s : State) : Prop where
  inertIff : s.sys.inert = s.sys.halted
  duty : s.sys.halted = true → s.heater.duty = 0
  dir : s.sys.halted = true → s.roll.dir = .stop

/-- The invariants of the machine between commands. -/
structure Inv (s : State) : Prop where
  sched : SchedInv s
  pid : PidInv s.pid
  nv : NvInv s
  output : OutputInv s
  halt : HaltInv s

/-- The `n` bytes of a memory from address `a`, in ascending order. -/
def bytesAt (m : Memory) (a n : Nat) : List Byte := (List.range n).map fun k => Memory.read m (a + k)

/-- The NVW events of a differ-only save of a byte string from address `a`: in ascending order, the bytes that differ from
those in `m` (44_param_store.md R192; 20_memory.md R68). -/
def savedWrites (m : Memory) (a : Nat) : List Byte → List Host.Cell
  | [] => []
  | b :: bs => if Memory.read m a = b then savedWrites m (a + 1) bs else (a, b) :: savedWrites m (a + 1) bs

/-- A block is stored at `base` with its CRC byte after it (20_memory.md R63; 44_param_store.md R191). -/
def blockStored (poly : Byte) (m : Memory) (base : Nat) (img : List Byte) : Prop :=
  bytesAt m base img.length = img ∧ Memory.read m (base + img.length) = crc8 poly img

/-- The block of `len` bytes at `base` passes VALIDATE (44_param_store.md R191). -/
def blockValid (poly : Byte) (m : Memory) (base len : Nat) : Bool :=
  crc8 poly (bytesAt m base len) == Memory.read m (base + len)

/-- A CYCLE with these operands performs the coarse cycle: R210's checks all pass (45_system.md R210, R220). -/
structure CycleRuns (o : CycleOperands) (s : State) : Prop where
  notHalted : s.sys.halted = false
  good : o.reservedClear = true
  ready : s.tick.ready = true
  loaded : s.store.loaded = true

/-- `n` TICKs from a state, stopping at the first that answers no next state (30_encoding.md R93, TICKS n). -/
def ticksFrom (s : State) : Nat → Host.Outcome State Fault Refusal
  | 0 => .next s
  | n + 1 =>
    match ticksFrom s n with
    | .next t => exec .tick t
    | .fault e => .fault e
    | .refused r => .refused r

/-- The scheduler after `k` SCHED_ADVANCE calls from reset, with APO timeout `t` (40_tick_scheduler.md R107). -/
def schedAfter (c : Config) (t : Byte) : Nat → Scheduler
  | 0 => (State.powerOn c []).sched
  | k + 1 => schedAdvance c t (schedAfter c t k)

/-- In how many of the first `k` calls from reset a flag fired (40_tick_scheduler.md R107). -/
def firings (c : Config) (t : Byte) (flag : SchedFlags → Bool) : Nat → Nat
  | 0 => 0
  | k + 1 => firings c t flag k + (if flag (schedAfter c t (k + 1)).sflags then 1 else 0)

/-- A final state: the run has ended (45_system.md R219). -/
def isFinal (s : State) : Bool := s.sys.halted

end Sys2Proof.Machine
end

