-- ==== Sys2Proof/Certificates/Slice0/Obligations.lean ====
section
/-! DEFINITION. The statements for the provers. Each docstring says which rule of spec/ the statement formalises. -/

open Sys2Proof Sys2Proof.Machine

/-! ### Encoding -/

/-- One encoding of each command (95_test_vectors.md section 3.1, from 30_encoding.md R82 to R88). -/
def Obligations.ListedWordsDecode : Prop :=
  decode [0x01] = .command .tick [] ∧
  decode [0x02, 0x01, 0x00, 0x00, 0x01, 0x19, 0x00, 0x00, 0x90, 0x01, 0x7C, 0x01] =
    .command (.cycle { pressed := 1, raw := 1, tempC := 25, spInt := 400, pv := 380 }) [] ∧
  decode [0x10] = .command .psLoad [] ∧
  decode [0x11] = .command .psSaveOp [] ∧
  decode [0x12] = .command .psSaveCal [] ∧
  decode [0x13, 0xFB, 0xFF, 0x00, 0x00, 0x00] =
    .command (.psWriteOp { setpoint := BitVec.ofInt 16 (-5), rollCycles := 0, soundEn := 0, apoTimeout := 0 }) [] ∧
  decode [0x14, 0x14, 0x00, 0xC8, 0x00, 0xFA, 0x00, 0x84, 0x03] =
    .command (.psWriteCal { c1 := 20, r1 := 200, c2 := 250, r2 := 900 }) [] ∧
  decode [0x20, 0x01] = .command (.setCalMode true 0) [] ∧
  decode [0x30] = .command .powerLoss []

/-- Decoding an encoded command, followed by any bytes, gives back the command and those bytes: no bit of an encoding is
dropped (30_encoding.md R80 to R88). It holds for commands with reserved bits set as well. -/
def Obligations.DecodeOfEncode : Prop := ∀ (i : Instr) (rest : List Byte), decode (encode i ++ rest) = .command i rest

/-- Every byte string that decodes to a command begins with that command's encoding (30_encoding.md R80, R91). -/
def Obligations.EncodeOfDecode : Prop :=
  ∀ (bs rest : List Byte) (i : Instr), decode bs = .command i rest → encode i ++ rest = bs

/-- R89: every byte outside the nine opcodes is an illegal opcode of one byte; its command raises F_ILLEGAL_CMD, has no other
effect, and decoding goes on at the next byte. That commands come from pending bytes on a schedule is the model's choice (log
entry 7). -/
def Obligations.UnlistedOpcodeRaisesIllegalCmd : Prop :=
  ∀ (op : Byte) (rest : List Byte), op ∉ ([0x01, 0x02, 0x10, 0x11, 0x12, 0x13, 0x14, 0x20, 0x30] : List Byte) →
    decode (op :: rest) = .illegalOpcode op rest ∧
    ∀ (s : State) (a : Agent) (ts : List Turn), s.cfg.wellFormed = true → s.sys.halted = false →
      s.env.schedule = .command a :: ts → pendingBytes a s.env = op :: rest →
      step s = .next
        { s with
          env := setPending a rest { s.env with schedule := ts }
          sys := { s.sys with fault := { s.sys.fault with illegalCmd := true } } }

/-- R80: a byte string that ends before a command's operand bytes are complete is not a command; the decoder reports it, and
the model refuses it. Where the step refuses it is the model's choice (log entries 7 and 10). -/
def Obligations.IncompleteCommandIsRefused : Prop :=
  ∀ (i : Instr) (n : Nat), 0 < n → n < (encode i).length →
    decode ((encode i).take n) = .incomplete ∧
    ∀ (s : State) (a : Agent) (ts : List Turn), s.cfg.wellFormed = true → s.sys.halted = false →
      s.env.schedule = .command a :: ts → pendingBytes a s.env = (encode i).take n →
      step s = .refused .incompleteCommand

/-- 20_memory.md R64, R65: `ser_op` and `de_op`, `ser_cal` and `de_cal` are mutually inverse bijections between records and
byte strings of five and of eight bytes. -/
def Obligations.RecordImagesAreBijections : Prop :=
  (∀ p : OpParams, (serOp p).length = 5 ∧ deOp (serOp p) = p) ∧
  (∀ bs : List Byte, bs.length = 5 → serOp (deOp bs) = bs) ∧
  (∀ p : CalParams, (serCal p).length = 8 ∧ deCal (serCal p) = p) ∧
  (∀ bs : List Byte, bs.length = 8 → serCal (deCal bs) = bs)

/-- The worked example of 30_encoding.md R92 as text, and the expansions of R93's pseudo-commands. How
characters make up a line is the model's reading (log entry 19). -/
def Obligations.CommandTextExpands : Prop :=
  (∀ c : Config,
    (lineOfText ("CYCLE pressed=" ++ bracketed "fwd" ++ ", raw=" ++ bracketed "fwd" ++
        ", temp=25, sp=400, pv=380")).map (expandLine c) =
      some [0x02, 0x01, 0x00, 0x00, 0x01, 0x19, 0x00, 0x00, 0x90, 0x01, 0x7C, 0x01]) ∧
  ∀ (c : Config) (o : CycleOperands) (l : SimpleLine) (n : Nat) (bs : List Byte),
    expandLine c (.simple (.ticks n)) = List.replicate n 0x01 ∧
    expandLine c (.simple (.period o)) = List.replicate c.coarseTicks 0x01 ++ encode (.cycle o) ∧
    expandLine c (.simple .idle) = 0x02 :: List.replicate 11 0x00 ∧
    expandLine c (.simple .boot) = [0x10] ∧
    expandLine c (.rep 0 l) = [] ∧
    expandLine c (.rep (n + 1) l) = expandLine c (.simple l) ++ expandLine c (.rep n l) ∧
    expandLine c (.db bs) = bs

/-! ### The tick divider -/

/-- R100: TICK counts down, reloads at zero and then sets `ready`; nothing else changes; it has no step while halted
(log entry 6); the counter never holds 0 between commands. -/
def Obligations.TickDividesToReady : Prop :=
  encode .tick = [0x01] ∧
  (∀ s : State, s.sys.halted = false →
    exec .tick s = .next
      { s with
        tick :=
          if s.tick.tickCnt - 1 = 0 then { tickCnt := BitVec.ofNat 16 s.cfg.coarseTicks, ready := true }
          else { s.tick with tickCnt := s.tick.tickCnt - 1 } }) ∧
  (∀ s : State, s.sys.halted = true → exec .tick s = .next s) ∧
  (∀ s t : State, s.cfg.wellFormed = true → counterInRange s.tick.tickCnt s.cfg.coarseTicks →
    exec .tick s = .next t → counterInRange t.tick.tickCnt s.cfg.coarseTicks)

/-- 30_encoding.md R93 with R100: from `tick_cnt == COARSE_TICKS` and `ready == 0`, COARSE_TICKS TICKs set `ready` exactly once,
at the last one, and change nothing else. -/
def Obligations.PeriodRaisesReadyAtItsLastTick : Prop :=
  ∀ s : State, s.cfg.wellFormed = true → s.sys.halted = false → s.tick.ready = false →
    s.tick.tickCnt = BitVec.ofNat 16 s.cfg.coarseTicks → ∀ k : Nat, k ≤ s.cfg.coarseTicks →
    ∃ t, ticksFrom s k = .next t ∧ t = { s with tick := t.tick } ∧ t.tick.ready = decide (k = s.cfg.coarseTicks)

/-- 20_memory.md R71, 70_reset_and_hazards.md R255: `ready` is changed by no command but TICK, which sets it, and CYCLE, which
clears it. -/
def Obligations.ReadyIsTheTickToCycleHandoff : Prop :=
  ∀ (i : Instr) (s t : State), exec i s = .next t → t.tick.ready ≠ s.tick.ready →
    (i = .tick ∧ t.tick.ready = true) ∨ ((∃ o, i = .cycle o) ∧ t.tick.ready = false)

/-! ### The scheduler -/

/-- R101, R102: what one control cycle does to the five counters and their flags: PID counts only where CEL fired, MIN only
where TEN fired. -/
def Obligations.CycleStepsTheCounters : Prop :=
  ∀ (o : CycleOperands) (s : State), CycleRuns o s → ∃ t, exec (.cycle o) s = .next t ∧
    t.sched.cntCel = (if s.sched.cntCel = 1 then BitVec.ofNat 16 s.cfg.pCel else s.sched.cntCel - 1) ∧
    t.sched.sflags.cel = decide (s.sched.cntCel = 1) ∧
    t.sched.cntPid =
      (if t.sched.sflags.cel then if s.sched.cntPid = 1 then BitVec.ofNat 16 s.cfg.pPid else s.sched.cntPid - 1
       else s.sched.cntPid) ∧
    t.sched.sflags.pid = (t.sched.sflags.cel && decide (s.sched.cntPid = 1)) ∧
    t.sched.cntLog = (if s.sched.cntLog = 1 then BitVec.ofNat 16 s.cfg.pLog else s.sched.cntLog - 1) ∧
    t.sched.sflags.log = decide (s.sched.cntLog = 1) ∧
    t.sched.cntTen = (if s.sched.cntTen = 1 then BitVec.ofNat 16 s.cfg.pTen else s.sched.cntTen - 1) ∧
    t.sched.sflags.ten = decide (s.sched.cntTen = 1) ∧
    t.sched.cntMin =
      (if t.sched.sflags.ten then if s.sched.cntMin = 1 then BitVec.ofNat 16 s.cfg.pMin else s.sched.cntMin - 1
       else s.sched.cntMin) ∧
    t.sched.sflags.min = (t.sched.sflags.ten && decide (s.sched.cntMin = 1))

/-- R103 to R106 and 45_system.md R212: what one control cycle does to the APO minute counter, its two one-shot flags and the
APO-active condition. A pressed edge resets the counter before the advance. -/
def Obligations.CycleCountsApoMinutes : Prop :=
  ∀ (o : CycleOperands) (s : State), CycleRuns o s → ∃ t, exec (.cycle o) s = .next t ∧
    ∃ (before : Nat) (inc : Bool),
      before = (if o.pressed = 0 then s.sched.apoCnt.toNat else 0) ∧
      inc = (t.sched.sflags.min && decide (before < s.cfg.apoCntMax.toNat)) ∧
      t.sched.apoCnt.toNat = (if inc then before + 1 else before) ∧
      t.sched.sflags.apoSoon =
        (inc && decide (s.store.op.apoTimeout ≠ 0 ∧ t.sched.apoCnt.toNat + 1 = s.store.op.apoTimeout.toNat)) ∧
      t.sched.sflags.apoExp =
        (inc && decide (s.store.op.apoTimeout ≠ 0 ∧ t.sched.apoCnt.toNat = s.store.op.apoTimeout.toNat)) ∧
      apoActivePort t =
        decide (s.store.op.apoTimeout ≠ 0 ∧ s.store.op.apoTimeout.toNat ≤ t.sched.apoCnt.toNat)

/-- R107: over any K SCHED_ADVANCE calls from reset, each event fires exactly as often as its period says, with zero offset,
and nested events fire only with the event they are nested in. -/
def Obligations.SchedulerFiresByItsPeriods : Prop :=
  ∀ (c : Config) (t : Byte) (k : Nat), c.wellFormed = true →
    firings c t (·.cel) k = k / c.pCel ∧
    firings c t (·.pid) k = k / (c.pCel * c.pPid) ∧
    firings c t (·.log) k = k / c.pLog ∧
    firings c t (·.ten) k = k / c.pTen ∧
    firings c t (·.min) k = k / (c.pTen * c.pMin) ∧
    ((schedAfter c t k).sflags.pid = true → (schedAfter c t k).sflags.cel = true) ∧
    ((schedAfter c t k).sflags.min = true → (schedAfter c t k).sflags.ten = true)

/-! ### The heater and the PID controller -/

/-- R141, R142: the reset request is the long-held level; the enable bit is toggled and then overridden by APO or a sensor
error; CAL is not written. -/
def Obligations.CycleTogglesThenOverridesHeater : Prop :=
  ∀ (o : CycleOperands) (s : State), CycleRuns o s → ∃ t, exec (.cycle o) s = .next t ∧
    t.heater.hs.rr = hasButton o.longHeld .heat ∧
    t.heater.hs.en =
      ((s.heater.hs.en ^^ hasButton o.relShort .heat) && !(apoActivePort t || (o.noSensor || o.shorted))) ∧
    t.heater.hs.cal = s.heater.hs.cal

/-- R143: the setpoint is compared with the one the last cycle saw; a change, which the first cycle after reset counts as,
re-derives the integral clamp. -/
def Obligations.CycleDetectsSetpointChange : Prop :=
  ∀ (o : CycleOperands) (s : State), CycleRuns o s → ∃ t, exec (.cycle o) s = .next t ∧
    t.heater.hs.spc = decide (s.heater.lastSpValid = false ∨ s.store.op.setpoint ≠ s.heater.lastSp) ∧
    t.heater.lastSp = s.store.op.setpoint ∧ t.heater.lastSpValid = true ∧
    t.pid.iclamp =
      (if t.heater.hs.spc then BitVec.ofInt 16 (s.cfg.iclampFn.apply s.store.op.setpoint) else s.pid.iclamp)

/-- R120, R121 (with R122 and R123 for what comes before it in the cycle): the duty and the controller's registers after a
PID event of an enabled, regulated heater, in exact integers. The next index is stated wherever R121 gives `didx` one: for a
positive PID_DEPTH whose remainder is one of its four values; elsewhere it is a free value (log entry 27). The duty is stated
wherever the value fits the register; elsewhere it is a free value (log entry 30). That the first PID event after an override
writes this duty too, where a toggle came between, is the model's choice of R142 and R144 over R148 (log entry 29). -/
def Obligations.RegulatedCycleComputesPid : Prop :=
  ∀ (o : CycleOperands) (s : State), CycleRuns o s → s.cfg.wellFormed = true → PidInv s.pid →
    ∃ t, exec (.cycle o) s = .next t ∧
      (t.heater.hs.en = true → (t.sched.sflags.pid = true ∨ t.heater.hs.spc = true) →
        s.store.op.setpoint.toInt < s.cfg.maxSetTemp.toInt →
        ∃ (bound acc0 err old p i d out : Int) (buf : DerivBuf) (idx : BitVec 2),
          bound = t.pid.iclamp.toNat ∧
          acc0 = (if t.heater.hs.rr then 0 else clamp s.pid.acc.toInt (-bound) bound) ∧
          buf = (if t.heater.hs.rr then {} else s.pid.dbuf) ∧
          idx = (if t.heater.hs.rr then 0 else s.pid.didx) ∧
          err = (o.spInt.toNat : Int) - o.pv.toNat ∧
          old = (derivGet buf idx).toNat ∧
          p =
            (if err > s.cfg.pidErrThresh then s.cfg.pidPLimit
             else if err < -s.cfg.pidErrThresh then -s.cfg.pidPLimit
             else err * s.cfg.kp) ∧
          i = tdiv (t.pid.acc.toInt * s.cfg.ki) s.cfg.pidKiDiv ∧
          d = s.cfg.kd * (old - o.pv.toNat) ∧
          out = clamp (tdiv (p + i + d) s.cfg.scalingFactor) 0 s.cfg.dutyMax ∧
          t.pid.acc.toInt = clamp (acc0 + err) (-bound) bound ∧
          (0 ≤ out → out ≤ 127 → (t.heater.duty.toNat : Int) = out) ∧
          t.pid.dbuf = derivSet buf idx o.pv ∧
          (0 < s.cfg.pidDepth → ((idx.toNat : Int) + 1) % s.cfg.pidDepth < 4 →
            (t.pid.didx.toNat : Int) = ((idx.toNat : Int) + 1) % s.cfg.pidDepth) ∧
          t.pid.dsum.toNat = derivSum t.pid.dbuf)

/-- R144 and R146's first sentence: at or above the largest setpoint an enabled heater gets DUTY_MAX at every PID event, and the
controller is not updated: only a setpoint change re-derives its clamp and a reset request clears it. That this holds of the
first PID event after an override too, where a toggle came between, is the model's choice over R148 and R146's third sentence
(log entry 29). A DUTY_MAX that `duty` cannot hold leaves a free value there (log entry 30). -/
def Obligations.UnregulatedHeaterGetsFullDuty : Prop :=
  ∀ (o : CycleOperands) (s : State), CycleRuns o s → ∃ t, exec (.cycle o) s = .next t ∧
    (t.heater.hs.en = true → (t.sched.sflags.pid = true ∨ t.heater.hs.spc = true) →
      s.cfg.maxSetTemp.toInt ≤ s.store.op.setpoint.toInt →
      (0 ≤ s.cfg.dutyMax → s.cfg.dutyMax ≤ 127 → (t.heater.duty.toNat : Int) = s.cfg.dutyMax) ∧
      (t.heater.hs.rr = true →
        t.pid = { acc := 0, iclamp := t.pid.iclamp, dbuf := {}, dsum := 0, didx := 0 }) ∧
      (t.heater.hs.rr = false → t.heater.hs.spc = false → t.pid = s.pid) ∧
      (t.heater.hs.rr = false → t.heater.hs.spc = true → t.pid = pidSetIclamp s.cfg s.store.op.setpoint s.pid))

/-- R144 and 41_pid.md R124: a PID event of a disabled heater writes duty 0 and pauses the controller, unless a reset is
requested, which clears it. -/
def Obligations.DisabledHeaterGetsZeroAtPidEvent : Prop :=
  ∀ (o : CycleOperands) (s : State), CycleRuns o s → ∃ t, exec (.cycle o) s = .next t ∧
    (t.heater.hs.en = false → (t.sched.sflags.pid = true ∨ t.heater.hs.spc = true) →
      t.heater.duty = 0 ∧
      (t.heater.hs.rr = true →
        t.pid = { acc := 0, iclamp := t.pid.iclamp, dbuf := {}, dsum := 0, didx := 0 }) ∧
      (t.heater.hs.rr = false → t.heater.hs.spc = false → t.pid = s.pid) ∧
      (t.heater.hs.rr = false → t.heater.hs.spc = true → t.pid = pidSetIclamp s.cfg s.store.op.setpoint s.pid))

/-- R144, R148: in a cycle without a PID event the duty and the controller keep their values, whatever the overrides. -/
def Obligations.DutyHoldsBetweenPidEvents : Prop :=
  ∀ (o : CycleOperands) (s : State), CycleRuns o s → ∃ t, exec (.cycle o) s = .next t ∧
    (t.sched.sflags.pid = false → t.heater.hs.spc = false → t.heater.duty = s.heater.duty ∧ t.pid = s.pid)

/-- 10_state.md R37: the duty is written by no command but CYCLE, at a PID event, and POWER_LOSS, which writes 0. -/
def Obligations.DutyChangesOnlyAtPidEventsAndPowerLoss : Prop :=
  ∀ (i : Instr) (s t : State), exec i s = .next t → t.heater.duty ≠ s.heater.duty →
    ((∃ o, i = .cycle o) ∧ (t.sched.sflags.pid = true ∨ t.heater.hs.spc = true)) ∨
    (i = .powerLoss ∧ t.heater.duty = 0)

/-- 41_pid.md R122: PID_SET_ICLAMP gives the new bound and pulls the accumulator inside it, and writes nothing else. -/
def Obligations.SetIclampPullsAccumulatorIn : Prop :=
  ∀ (c : Config) (s : Half) (p : Pid), c.wellFormed = true →
    ((pidSetIclamp c s p).iclamp.toNat : Int) = c.iclampFn.apply s ∧
    (pidSetIclamp c s p).acc.toInt = clamp p.acc.toInt (-(c.iclampFn.apply s)) (c.iclampFn.apply s) ∧
    pidSetIclamp c s p = { p with iclamp := (pidSetIclamp c s p).iclamp, acc := (pidSetIclamp c s p).acc }

/-- R126 item 3: PID_CLEAR followed by PID_UPDATE gives the duty, and leaves the registers, of PID_UPDATE on the reset state
with the same clamp. -/
def Obligations.ClearThenUpdateIsFresh : Prop :=
  ∀ (c : Config) (sp pv : Half) (p : Pid),
    let fresh : Pid := { (State.powerOn c []).pid with iclamp := p.iclamp }
    pidDuty c sp pv (pidClear p) = pidDuty c sp pv fresh ∧ pidUpdate c sp pv (pidClear p) = pidUpdate c sp pv fresh

/-- 41_pid.md R125 with check `wf_int32`: every intermediate of PID_UPDATE fits a signed 32-bit integer. For a negative PID_P_LIMIT
or PID_KI_DIV the check bounds no magnitude and R125 does not follow from it (log entry 32). -/
def Obligations.PidArithmeticFitsInt32 : Prop :=
  ∀ (c : Config) (sp pv : Half) (p : Pid), c.wellFormed = true → 0 ≤ c.pidPLimit → 0 ≤ c.pidKiDiv → PidInv p →
    ∀ v ∈ [pidErr sp pv, pTerm c (pidErr sp pv), p.acc.toInt + pidErr sp pv, nextAcc sp pv p * c.ki,
           iTerm c (nextAcc sp pv p), ((derivGet p.dbuf p.didx).toNat : Int) - pv.toNat, dTerm c pv p,
           pTerm c (pidErr sp pv) + iTerm c (nextAcc sp pv p) + dTerm c pv p],
      -2147483648 ≤ v ∧ v ≤ 2147483647

/-! ### The roll/motor FSM -/

/-- R162: with the interlock's condition the motor stops, and nothing else in the FSM is evaluated: no feedback event, no
cycle-mode change, no resume. The clearing of `resume` on APO exit and the history registers still take place. -/
def Obligations.InterlockStopsMotor : Prop :=
  ∀ (o : CycleOperands) (s : State), CycleRuns o s →
    ((hasButton o.raw .fwd = true ∧ hasButton o.raw .rev = true) ∨
     (hasButton o.pressed .fwd = true ∧ hasButton o.pressed .rev = true)) →
    ∃ t, exec (.cycle o) s = .next t ∧
      t.roll =
        { s.roll with
          dir := .stop, dchg := decide (s.roll.dir ≠ .stop), ccomp := false, fbev := {}, epReset := false
          resume := if s.roll.prevApo = true ∧ apoActivePort t = false then .stop else s.roll.resume
          prevApo := apoActivePort t, prevCycLong := hasButton o.longHeld .cyc }

/-- R163: with APO active and no interlock, hot rollers turn and forget the resume direction, cool ones stop and remember
Forward, and inside the band nothing changes; manual inputs are ignored. -/
def Obligations.ApoOverrideDecidesDirection : Prop :=
  ∀ (o : CycleOperands) (s : State), CycleRuns o s →
    ¬ (hasButton o.raw .fwd = true ∧ hasButton o.raw .rev = true) →
    ¬ (hasButton o.pressed .fwd = true ∧ hasButton o.pressed .rev = true) →
    ∃ t, exec (.cycle o) s = .next t ∧
      (apoActivePort t = true →
        ∃ (dir resume : Direction),
          (dir, resume) =
            (if o.noSensor = true ∨ o.shorted = true ∨
                o.tempC.toInt > s.cfg.apoRollThresh.toInt + s.cfg.apoRollHyst.toInt then
              (if s.roll.dir = .stop then .fwd else s.roll.dir, .stop)
             else if o.tempC.toInt ≤ s.cfg.apoRollThresh.toInt ∧ s.roll.dir ≠ .stop then (.stop, .fwd)
             else (s.roll.dir, s.roll.resume)) ∧
          t.roll =
            { s.roll with
              dir := dir, resume := resume, dchg := decide (dir ≠ s.roll.dir), ccomp := false, fbev := {}
              epReset := false, prevApo := true, prevCycLong := hasButton o.longHeld .cyc })

/-- R164: in manual mode a direction press, with no cycle-button event, sets that direction, even the current one, emits
EV_DIR_PRESSED and does not change `cyc`; no resume and no cycle logic runs. -/
def Obligations.DirectionPressSetsDirection : Prop :=
  ∀ (o : CycleOperands) (s : State), CycleRuns o s →
    ¬ (hasButton o.raw .fwd = true ∧ hasButton o.raw .rev = true) →
    hasButton o.pressed .fwd ≠ hasButton o.pressed .rev → hasButton o.relShort .cyc = false →
    ¬ (hasButton o.longHeld .cyc = true ∧ s.roll.prevCycLong = false) →
    ∃ t, exec (.cycle o) s = .next t ∧
      (apoActivePort t = false →
        ∃ dir, dir = (if hasButton o.pressed .fwd then Direction.fwd else Direction.rev) ∧
          t.roll =
            { s.roll with
              dir := dir, dchg := decide (dir ≠ s.roll.dir), ccomp := false, fbev := { dirPressed := true }
              epReset := false, resume := if s.roll.prevApo then .stop else s.roll.resume, prevApo := false
              prevCycLong := hasButton o.longHeld .cyc })

/-- R165 (with R164 and R167 for the direction): in manual mode a long-press edge of the cycle button ends cycle mode, pulses
`ep_reset` and emits EV_POINT_RESET; it takes precedence over a short release. It does not change the direction: a direction
press in the same cycle does, or else a resume on APO exit. -/
def Obligations.LongPressResetsEndpoints : Prop :=
  ∀ (o : CycleOperands) (s : State), CycleRuns o s →
    ¬ (hasButton o.raw .fwd = true ∧ hasButton o.raw .rev = true) →
    ¬ (hasButton o.pressed .fwd = true ∧ hasButton o.pressed .rev = true) →
    hasButton o.longHeld .cyc = true → s.roll.prevCycLong = false →
    ∃ t, exec (.cycle o) s = .next t ∧
      (apoActivePort t = false →
        ∃ dir,
          dir =
            (if hasButton o.pressed .fwd then Direction.fwd
             else if hasButton o.pressed .rev then .rev
             else if s.roll.prevApo = true ∧ s.roll.resume ≠ .stop then s.roll.resume
             else s.roll.dir) ∧
          t.roll =
            { s.roll with
              dir := dir, cyc := false, dchg := decide (dir ≠ s.roll.dir), ccomp := false
              fbev :=
                { dirPressed := hasButton o.pressed .fwd || hasButton o.pressed .rev, pointReset := true }
              epReset := true
              resume := if s.roll.prevApo then .stop else s.roll.resume, prevApo := false, prevCycLong := true })

/-- R166, R168 (with R164 for a direction press in the same cycle): in manual mode a short release of the cycle button without
a long-press edge stops cycle mode, or starts it if the endpoints are valid and a cycle is configured, or only reports the
failure; no resume and no cycle logic runs. -/
def Obligations.ShortReleaseTogglesCycleMode : Prop :=
  ∀ (o : CycleOperands) (s : State), CycleRuns o s →
    ¬ (hasButton o.raw .fwd = true ∧ hasButton o.raw .rev = true) →
    ¬ (hasButton o.pressed .fwd = true ∧ hasButton o.pressed .rev = true) → hasButton o.relShort .cyc = true →
    ¬ (hasButton o.longHeld .cyc = true ∧ s.roll.prevCycLong = false) →
    ∃ t, exec (.cycle o) s = .next t ∧
      (apoActivePort t = false →
        ∃ (press : Bool) (dir0 dir : Direction) (cyc : Bool) (done : Byte) (ev : FeedbackEvents),
          press = (hasButton o.pressed .fwd || hasButton o.pressed .rev) ∧
          dir0 =
            (if hasButton o.pressed .fwd then Direction.fwd
             else if hasButton o.pressed .rev then .rev
             else s.roll.dir) ∧
          (dir, cyc, done, ev) =
            (if s.roll.cyc then
              (.stop, false, s.roll.cyclesDone, { dirPressed := press, cycleStopped := true })
             else if o.epValid = true ∧ 1 ≤ s.store.op.rollCycles.toNat then
              (.fwd, true, 0, { dirPressed := press, cycleStarted := true })
             else (dir0, false, s.roll.cyclesDone, { dirPressed := press, cycleStartFail := true })) ∧
          t.roll =
            { s.roll with
              dir := dir, cyc := cyc, cyclesDone := done, dchg := decide (dir ≠ s.roll.dir), ccomp := false
              fbev := ev, epReset := false, resume := if s.roll.prevApo then .stop else s.roll.resume
              prevApo := false, prevCycLong := hasButton o.longHeld .cyc })

/-- R167: with no button event in manual mode and cycle mode off, the remembered direction is applied on APO exit, without a
feedback event, and is then forgotten; otherwise the direction stays. R173 item 4 has no premise on cycle mode; with it on,
`Obligations.CycleLogicFollowsEndpoints` says what R160 does (log entry 28). -/
def Obligations.ResumeIsAppliedOnceOnApoExit : Prop :=
  ∀ (o : CycleOperands) (s : State), CycleRuns o s →
    ¬ (hasButton o.raw .fwd = true ∧ hasButton o.raw .rev = true) →
    hasButton o.pressed .fwd = false → hasButton o.pressed .rev = false → hasButton o.relShort .cyc = false →
    ¬ (hasButton o.longHeld .cyc = true ∧ s.roll.prevCycLong = false) → s.roll.cyc = false →
    ∃ t, exec (.cycle o) s = .next t ∧
      (apoActivePort t = false →
        ∃ dir, dir = (if s.roll.prevApo = true ∧ s.roll.resume ≠ .stop then s.roll.resume else s.roll.dir) ∧
          t.roll =
            { s.roll with
              dir := dir, dchg := decide (dir ≠ s.roll.dir), ccomp := false, fbev := {}, epReset := false
              resume := if s.roll.prevApo then .stop else s.roll.resume, prevApo := false
              prevCycLong := hasButton o.longHeld .cyc })

/-- R160, R169, R170 (with R167 for a resume in the same cycle): with no button event in manual mode and cycle mode on, reaching
the forward end reverses the motor, and reaching the reverse end counts a cycle and starts the next one or completes. That a
direction resumed at the forward end is reversed in the same cycle is the model's choice between R160 and R173 item 4 (log
entry 28). -/
def Obligations.CycleLogicFollowsEndpoints : Prop :=
  ∀ (o : CycleOperands) (s : State), CycleRuns o s →
    ¬ (hasButton o.raw .fwd = true ∧ hasButton o.raw .rev = true) →
    hasButton o.pressed .fwd = false → hasButton o.pressed .rev = false → hasButton o.relShort .cyc = false →
    ¬ (hasButton o.longHeld .cyc = true ∧ s.roll.prevCycLong = false) → s.roll.cyc = true →
    ∃ t, exec (.cycle o) s = .next t ∧
      (apoActivePort t = false →
        ∃ (dir0 dir : Direction) (cyc ccomp : Bool) (done : Nat) (ev : FeedbackEvents),
          dir0 = (if s.roll.prevApo = true ∧ s.roll.resume ≠ .stop then s.roll.resume else s.roll.dir) ∧
          (dir, cyc, ccomp, done, ev) =
            (if dir0 = .fwd ∧ o.atFwdEnd = true then
              (.rev, true, false, s.roll.cyclesDone.toNat, { dirAuto := true })
             else if dir0 = .rev ∧ o.atRevEnd = true then
              (if s.store.op.rollCycles.toNat ≤ min (s.roll.cyclesDone.toNat + 1) 255 then
                (.stop, false, true, min (s.roll.cyclesDone.toNat + 1) 255, { cycleComplete := true })
               else (.fwd, true, false, min (s.roll.cyclesDone.toNat + 1) 255, { dirAuto := true }))
             else (dir0, true, false, s.roll.cyclesDone.toNat, {})) ∧
          t.roll =
            { s.roll with
              dir := dir, cyc := cyc, ccomp := ccomp, cyclesDone := BitVec.ofNat 8 done
              dchg := decide (dir ≠ s.roll.dir), fbev := ev, epReset := false
              resume := if s.roll.prevApo then .stop else s.roll.resume, prevApo := false
              prevCycLong := hasButton o.longHeld .cyc })

/-! ### The control cycle -/

/-- 45_system.md R211: a CYCLE that passes its checks clears `ready` and writes, beside that, only the scheduler, the roll FSM,
the heater FSM and the controller: the configuration, `tick_cnt`, the parameter store, the system registers, every NV byte
and the environment stay. The sensor inputs it sampled are exported (00_scope.md R7, 60_exceptions.md R234); that the ports
keep them until the next coarse cycle is the model's choice (log entry 26). -/
def Obligations.CycleFrame : Prop :=
  ∀ (o : CycleOperands) (s : State), CycleRuns o s → ∃ t, exec (.cycle o) s = .next t ∧
    t =
      { s with
        sched := t.sched, roll := t.roll, heater := t.heater, pid := t.pid, sensor := t.sensor
        tick := { s.tick with ready := false } } ∧
    sensorPort t = { noSensor := o.noSensor, shorted := o.shorted } ∧ sensorErrorPort t = (o.noSensor || o.shorted) ∧
    ∀ a, Memory.read t.nv.bytes a = Memory.read s.nv.bytes a

/-- 45_system.md R210 item 3, R220: a CYCLE with good operands and `ready == 0` holds: it changes nothing and stays pending,
and it is no fault. That no step is an unchanged state is the model's choice (log entries 6 and 7). -/
def Obligations.CycleHoldsUntilReady : Prop :=
  ∀ (o : CycleOperands) (s : State), s.sys.halted = false → o.reservedClear = true → s.tick.ready = false →
    exec (.cycle o) s = .next s ∧
    ∀ (a : Agent) (ts : List Turn) (rest : List Byte), s.cfg.wellFormed = true → s.env.schedule = .command a :: ts →
      decode (pendingBytes a s.env) = .command (.cycle o) rest →
      step s = .next { s with env := { s.env with schedule := ts } }

/-! ### The parameter store -/

/-- CRC8 of the bytes of CRC-1 to CRC-17 of 95_test_vectors.md section 3.7, with the polynomial of 44_param_store.md R190. The
values of CRC-1 to CRC-16 are the printed ones; CRC-17 has the value that R190 gives, 0x3D, where 95_test_vectors.md prints
0x61 (log entry 25). The polynomial and the check value (CRC-6) are general knowledge by the spec's own mark (log entry
18). -/
def Obligations.CrcVectors : Prop :=
  crc8 0x8C [] = 0x00 ∧ crc8 0x8C [0x00] = 0x00 ∧ crc8 0x8C [0x01] = 0x5E ∧ crc8 0x8C [0x80] = 0x8C ∧
  crc8 0x8C [0xFF] = 0x35 ∧ crc8 0x8C [0x31, 0x32, 0x33, 0x34, 0x35, 0x36, 0x37, 0x38, 0x39] = 0xA1 ∧
  crc8 0x8C [0x00, 0x00, 0x00, 0x00, 0x00] = 0x00 ∧ crc8 0x8C [0xFF, 0xFF, 0xFF, 0xFF, 0xFF] = 0x44 ∧
  crc8 0x8C [0x00, 0x00, 0x00, 0x00, 0x00, 0x00, 0x00, 0x00] = 0x00 ∧
  crc8 0x8C [0xFF, 0xFF, 0xFF, 0xFF, 0xFF, 0xFF, 0xFF, 0xFF] = 0xC9 ∧
  crc8 0x8C [0xB4, 0x00, 0x03, 0x01, 0x1E] = 0xF2 ∧
  crc8 0x8C [0x19, 0x00, 0x2C, 0x01, 0xC8, 0x00, 0xBC, 0x02] = 0xED ∧
  crc8 0x8C [0xC8, 0x00, 0x03, 0x01, 0x1E] = 0xBE ∧ crc8 0x8C [0xB5, 0x00, 0x03, 0x01, 0x1E] = 0x3F ∧
  crc8 0x8C [0x96, 0x00, 0x01, 0x01, 0x0F] = 0x05 ∧
  crc8 0x8C [0x14, 0x00, 0xC8, 0x00, 0xFA, 0x00, 0x84, 0x03] = 0xE3 ∧
  crc8 0x8C [0xFB, 0xFF, 0x00, 0x00, 0x00] = 0x3D

/-- 20_memory.md R62: NVRead and NVWrite inside the store read and write one byte, NVWrite recording its event; outside it they
fault and never wrap. -/
def Obligations.NvPrimitivesNeverWrap : Prop :=
  ∀ (size : Nat) (n : NvStore) (a : Nat) (v : Byte),
    (a < size → nvRead size n a = .ok (Memory.read n.bytes a) ∧
      ∃ n', nvWrite size n a v = .ok n' ∧ n'.history = n.history ++ [(a, v)] ∧
        ∀ b, Memory.read n'.bytes b = if b = a then v else Memory.read n.bytes b) ∧
    (size ≤ a → nvRead size n a = .error (.nvOutOfRange a) ∧ nvWrite size n a v = .error (.nvOutOfRange a))

/-! The premise `s.cfg.nvFormat = {}` says that the offsets, record lengths and polynomial are the ones the spec decides
(00_scope.md R9; 20_memory.md R63; 44_param_store.md R190; log entry 12). -/

/-- R194 with R192: PS_SAVE_OP stores the active OperatingParams and their CRC at addresses 0 to 5, writing only differing
bytes, in ascending order, the CRC byte last; every other byte and every register stay. -/
def Obligations.SaveOpStoresTheRecord : Prop :=
  ∀ s : State, s.cfg.wellFormed = true → s.cfg.nvFormat = {} → s.sys.halted = false → s.store.loaded = true →
    ∃ t, exec .psSaveOp s = .next t ∧ t = { s with nv := t.nv } ∧
      blockStored 0x8C t.nv.bytes 0 (serOp s.store.op) ∧
      (∀ a, ¬ a < 6 → Memory.read t.nv.bytes a = Memory.read s.nv.bytes a) ∧
      t.nv.history =
        s.nv.history ++ savedWrites s.nv.bytes 0 (serOp s.store.op ++ [crc8 0x8C (serOp s.store.op)])

/-- R195 with R192: PS_SAVE_CAL stores the active CalibrationParams and their CRC at addresses 6 to 14 in the same way. -/
def Obligations.SaveCalStoresTheRecord : Prop :=
  ∀ s : State, s.cfg.wellFormed = true → s.cfg.nvFormat = {} → s.sys.halted = false → s.store.loaded = true →
    ∃ t, exec .psSaveCal s = .next t ∧ t = { s with nv := t.nv } ∧
      blockStored 0x8C t.nv.bytes 6 (serCal s.store.cal) ∧
      (∀ a, ¬ (6 ≤ a ∧ a < 15) → Memory.read t.nv.bytes a = Memory.read s.nv.bytes a) ∧
      t.nv.history =
        s.nv.history ++ savedWrites s.nv.bytes 6 (serCal s.store.cal ++ [crc8 0x8C (serCal s.store.cal)])

/-- R193: PS_LOAD takes, per block, the stored image if its CRC byte matches, else the compiled-in default, which it stores
with its CRC byte; it sets `defaults_used` and `loaded`, and leaves everything else. -/
def Obligations.LoadTakesImageOrDefault : Prop :=
  ∀ s : State, s.cfg.wellFormed = true → s.cfg.nvFormat = {} → s.sys.halted = false →
    ∃ t, exec .psLoad s = .next t ∧ t = { s with store := t.store, nv := t.nv } ∧
      t.store.loaded = true ∧
      (blockValid 0x8C s.nv.bytes 0 5 = true →
        t.store.op = deOp (bytesAt s.nv.bytes 0 5) ∧ t.store.defaultsUsed.op = false ∧
        ∀ a, a < 6 → Memory.read t.nv.bytes a = Memory.read s.nv.bytes a) ∧
      (blockValid 0x8C s.nv.bytes 0 5 = false →
        t.store.op = deOp s.cfg.defOp ∧ t.store.defaultsUsed.op = true ∧ blockStored 0x8C t.nv.bytes 0 s.cfg.defOp) ∧
      (blockValid 0x8C s.nv.bytes 6 8 = true →
        t.store.cal = deCal (bytesAt s.nv.bytes 6 8) ∧ t.store.defaultsUsed.cal = false ∧
        ∀ a, 6 ≤ a → a < 15 → Memory.read t.nv.bytes a = Memory.read s.nv.bytes a) ∧
      (blockValid 0x8C s.nv.bytes 6 8 = false →
        t.store.cal = deCal s.cfg.defCal ∧ t.store.defaultsUsed.cal = true ∧ blockStored 0x8C t.nv.bytes 6 s.cfg.defCal) ∧
      (∀ a, 15 ≤ a → Memory.read t.nv.bytes a = Memory.read s.nv.bytes a) ∧
      t.nv.history =
        s.nv.history ++
          (if blockValid 0x8C s.nv.bytes 0 5 then [] else savedWrites s.nv.bytes 0 (s.cfg.defOp ++ [crc8 0x8C s.cfg.defOp])) ++
          (if blockValid 0x8C s.nv.bytes 6 8 then [] else savedWrites s.nv.bytes 6 (s.cfg.defCal ++ [crc8 0x8C s.cfg.defCal]))

/-- R196, R197: PS_WRITE_OP and PS_WRITE_CAL replace the active record by the image's, with no range check, and touch nothing
else. -/
def Obligations.WriteCommandsReplaceTheRecord : Prop :=
  ∀ s : State, s.sys.halted = false → s.store.loaded = true →
    (∀ p : OpParams, exec (.psWriteOp p) s = .next { s with store := { s.store with op := p } }) ∧
    (∀ p : CalParams, exec (.psWriteCal p) s = .next { s with store := { s.store with cal := p } })

/-- R198 item 1: PS_SAVE_OP, PS_SAVE_CAL and PS_LOAD in this order give back both records bit for bit, use no defaults, and
the load writes no byte. -/
def Obligations.SaveThenLoadRoundTrip : Prop :=
  ∀ s : State, s.cfg.wellFormed = true → s.cfg.nvFormat = {} → s.sys.halted = false → s.store.loaded = true →
    ∃ s1 s2 s3, exec .psSaveOp s = .next s1 ∧ exec .psSaveCal s1 = .next s2 ∧ exec .psLoad s2 = .next s3 ∧
      s3.store.op = s.store.op ∧ s3.store.cal = s.store.cal ∧ s3.store.defaultsUsed = {} ∧ s3.nv = s2.nv

/-- R198 items 2 and 3: after a change of any single byte of a valid stored block, CRC byte included, PS_LOAD gives that
block's defaults and sets its `defaults_used` bit, and a second PS_LOAD gives the same defaults with the bit clear. -/
def Obligations.SingleByteCorruptionHeals : Prop :=
  ∀ (s : State) (a : Nat) (v : Byte), s.cfg.wellFormed = true → s.cfg.nvFormat = {} → s.sys.halted = false →
    v ≠ Memory.read s.nv.bytes a →
    ∃ t u, exec .psLoad { s with nv := { s.nv with bytes := Memory.write s.nv.bytes a v } } = .next t ∧
      exec .psLoad t = .next u ∧
      (blockValid 0x8C s.nv.bytes 0 5 = true → a < 6 →
        t.store.op = deOp s.cfg.defOp ∧ t.store.defaultsUsed.op = true ∧
        u.store.op = deOp s.cfg.defOp ∧ u.store.defaultsUsed.op = false) ∧
      (blockValid 0x8C s.nv.bytes 6 8 = true → 6 ≤ a → a < 15 →
        t.store.cal = deCal s.cfg.defCal ∧ t.store.defaultsUsed.cal = true ∧
        u.store.cal = deCal s.cfg.defCal ∧ u.store.defaultsUsed.cal = false)

/-- 20_memory.md R63: with the layout the spec decides, no step, reset and commands cut by reset included, changes an NV byte
at address 15 or above, and no event it records names one. That the event history is a list which every step, reset included,
only extends is the model's choice (log entries 9 and 20). -/
def Obligations.UnusedNvBytesNeverChange : Prop :=
  ∀ s t : State, s.cfg.nvFormat = {} → step s = .next t →
    (∀ a, 15 ≤ a → Memory.read t.nv.bytes a = Memory.read s.nv.bytes a) ∧
    ∃ ws, t.nv.history = s.nv.history ++ ws ∧ ∀ c ∈ ws, c.1 < 15

/-- 20_memory.md R60: only PS_LOAD, PS_SAVE_OP, PS_SAVE_CAL and POWER_LOSS access the NV store for writing; every other command
leaves every byte of it, and its history, alone. -/
def Obligations.OnlyStoreCommandsWriteNv : Prop :=
  ∀ (i : Instr) (s t : State), exec i s = .next t →
    (i ≠ .psLoad ∧ i ≠ .psSaveOp ∧ i ≠ .psSaveCal ∧ i ≠ .powerLoss) → t.nv = s.nv

/-! ### System commands, faults, halt -/

/-- 45_system.md R216: SET_CAL_MODE with good operands writes `hs.CAL` and nothing else, with no `loaded` requirement. -/
def Obligations.SetCalModeWritesCal : Prop :=
  ∀ (v : Bool) (s : State), s.sys.halted = false →
    exec (.setCalMode v 0) s = .next { s with heater := { s.heater with hs := { s.heater.hs with cal := v } } }

/-- 45_system.md R216: no rule of the core reads `hs.CAL`: run from two states that differ in it alone, every command but
SET_CAL_MODE has the same outcome but for that bit, which it leaves as it was. -/
def Obligations.CalModeChangesNothingElse : Prop :=
  ∀ (i : Instr) (s t : State) (v : Bool), (∀ w rsv, i ≠ .setCalMode w rsv) → exec i s = .next t →
    t.heater.hs.cal = s.heater.hs.cal ∧
    exec i { s with heater := { s.heater with hs := { s.heater.hs with cal := v } } } =
      .next { t with heater := { t.heater with hs := { t.heater.hs with cal := v } } }

/-- 45_system.md R217: POWER_LOSS makes the outputs inert, writes duty 0 and direction STOP, saves the OperatingParams if they
are loaded, and halts; whatever `ready` and `loaded` are. Every other register, and every byte it does not save, stays. -/
def Obligations.PowerLossSavesAndHalts : Prop :=
  ∀ s : State, s.cfg.wellFormed = true → s.cfg.nvFormat = {} → s.sys.halted = false →
    ∃ t, exec .powerLoss s = .next t ∧
      t =
        { s with
          sys := { s.sys with inert := true, halted := true }
          heater := { s.heater with duty := 0 }
          roll := { s.roll with dir := .stop }
          nv := t.nv } ∧
      (s.store.loaded = false → t.nv = s.nv) ∧
      (s.store.loaded = true →
        blockStored 0x8C t.nv.bytes 0 (serOp s.store.op) ∧
        t.nv.history =
          s.nv.history ++ savedWrites s.nv.bytes 0 (serOp s.store.op ++ [crc8 0x8C (serOp s.store.op)])) ∧
      (∀ a, ¬ a < 6 → Memory.read t.nv.bytes a = Memory.read s.nv.bytes a)

/-- 10_state.md R56, R47: while `inert` is 1 every actuator port reads inert, and the other ports are unaffected; while it is 0
they show the registers; the two LEDs are never both on. The bits of the flag ports are those of R26, R34, R45, R51 and R52, the
encoding of the direction that of R38. -/
def Obligations.InertPortsReadInert : Prop :=
  ∀ s : State,
    (s.sys.inert = true →
      motorDir s = .stop ∧ heaterDuty s = 0 ∧ ledFwd s = false ∧ ledRev s = false ∧ endpointReset s = false) ∧
    (s.sys.inert = false →
      motorDir s = s.roll.dir ∧ heaterDuty s = s.heater.duty ∧ ledFwd s = decide (s.roll.dir = .fwd) ∧
      ledRev s = decide (s.roll.dir = .rev) ∧ endpointReset s = s.roll.epReset) ∧
    ¬ (ledFwd s = true ∧ ledRev s = true) ∧
    (Direction.bits .stop = 0 ∧ Direction.bits .fwd = 1 ∧ Direction.bits .rev = 2) ∧
    ((schedFlags s).getLsbD 0 = s.sched.sflags.cel ∧ (schedFlags s).getLsbD 1 = s.sched.sflags.pid ∧
      (schedFlags s).getLsbD 2 = s.sched.sflags.log ∧ (schedFlags s).getLsbD 3 = s.sched.sflags.ten ∧
      (schedFlags s).getLsbD 4 = s.sched.sflags.min ∧ (schedFlags s).getLsbD 5 = s.sched.sflags.apoSoon ∧
      (schedFlags s).getLsbD 6 = s.sched.sflags.apoExp) ∧
    apoActivePort s =
      decide (s.store.op.apoTimeout ≠ 0 ∧ s.store.op.apoTimeout.toNat ≤ s.sched.apoCnt.toNat) ∧
    ((heaterState s).getLsbD 0 = s.heater.hs.en ∧ (heaterState s).getLsbD 1 = s.heater.hs.rr ∧
      (heaterState s).getLsbD 2 = s.heater.hs.spc ∧ (heaterState s).getLsbD 3 = s.heater.hs.cal) ∧
    ((rollEvents s).1.getLsbD 0 = s.roll.fbev.dirPressed ∧ (rollEvents s).1.getLsbD 1 = s.roll.fbev.cycleStarted ∧
      (rollEvents s).1.getLsbD 2 = s.roll.fbev.cycleStopped ∧ (rollEvents s).1.getLsbD 3 = s.roll.fbev.dirAuto ∧
      (rollEvents s).1.getLsbD 4 = s.roll.fbev.cycleComplete ∧
      (rollEvents s).1.getLsbD 5 = s.roll.fbev.cycleStartFail ∧ (rollEvents s).1.getLsbD 6 = s.roll.fbev.pointReset ∧
      (rollEvents s).2 = (s.roll.dchg, s.roll.ccomp)) ∧
    opParams s = s.store.op ∧ calParams s = s.store.cal ∧
    ((defaultsUsedPort s).getLsbD 0 = s.store.defaultsUsed.op ∧
      (defaultsUsedPort s).getLsbD 1 = s.store.defaultsUsed.cal) ∧
    ((faultPort s).getLsbD 0 = s.sys.fault.illegalCmd ∧ (faultPort s).getLsbD 1 = s.sys.fault.badOperand ∧
      (faultPort s).getLsbD 2 = s.sys.fault.notLoaded) ∧
    haltedPort s = s.sys.halted ∧ readyPort s = s.tick.ready

/-- 30_encoding.md R90: a CYCLE or SET_CAL_MODE with a reserved operand bit set raises F_BAD_OPERAND and has no other effect,
whatever `ready` and `loaded` are. The reserved bits of CYCLE are bits 7:5 of operand bytes 0 to 3 and 6, those of SET_CAL_MODE
bits 7:1. -/
def Obligations.ReservedBitsRaiseBadOperand : Prop :=
  (∀ b0 b1 b2 b3 b4 b5 b6 b7 b8 b9 b10 : Byte,
    decode [0x02, b0, b1, b2, b3, b4, b5, b6, b7, b8, b9, b10] =
      .command (.cycle (cycleOperandsOf b0 b1 b2 b3 b4 b5 b6 b7 b8 b9 b10)) [] ∧
    ∀ s : State, s.sys.halted = false →
      (32 ≤ b0.toNat ∨ 32 ≤ b1.toNat ∨ 32 ≤ b2.toNat ∨ 32 ≤ b3.toNat ∨ 32 ≤ b6.toNat) →
      exec (.cycle (cycleOperandsOf b0 b1 b2 b3 b4 b5 b6 b7 b8 b9 b10)) s =
        .next { s with sys := { s.sys with fault := { s.sys.fault with badOperand := true } } }) ∧
  (∀ b : Byte, ∃ v rsv, decode [0x20, b] = .command (.setCalMode v rsv) [] ∧
    ∀ s : State, s.sys.halted = false → 2 ≤ b.toNat →
      exec (.setCalMode v rsv) s =
        .next { s with sys := { s.sys with fault := { s.sys.fault with badOperand := true } } })

/-- 60_exceptions.md R232: before the first PS_LOAD, CYCLE (once ready), PS_SAVE_OP, PS_SAVE_CAL, PS_WRITE_OP and PS_WRITE_CAL
raise F_NOT_LOADED and have no other effect; PS_LOAD, TICK, SET_CAL_MODE and POWER_LOSS never raise it. -/
def Obligations.UnloadedCommandsRaiseNotLoaded : Prop :=
  (∀ (i : Instr) (s : State), s.sys.halted = false → s.store.loaded = false →
    (i = .psSaveOp ∨ i = .psSaveCal ∨ (∃ p, i = .psWriteOp p) ∨ (∃ p, i = .psWriteCal p) ∨
      (∃ o, i = .cycle o ∧ o.reservedClear = true ∧ s.tick.ready = true)) →
    exec i s = .next { s with sys := { s.sys with fault := { s.sys.fault with notLoaded := true } } }) ∧
  (∀ (i : Instr) (s t : State), (i = .psLoad ∨ i = .tick ∨ (∃ v rsv, i = .setCalMode v rsv) ∨ i = .powerLoss) →
    exec i s = .next t → t.sys.fault.notLoaded = s.sys.fault.notLoaded)

/-- 60_exceptions.md R230: the fault register is sticky: a step that is not a reset clears none of its bits. -/
def Obligations.FaultBitsAreSticky : Prop :=
  ∀ s t : State, step s = .next t → (∀ ts, s.env.schedule ≠ .reset :: ts) →
    (∀ a k ts, s.env.schedule ≠ .commandCut a k :: ts) →
    (s.sys.fault.illegalCmd = true → t.sys.fault.illegalCmd = true) ∧
    (s.sys.fault.badOperand = true → t.sys.fault.badOperand = true) ∧
    (s.sys.fault.notLoaded = true → t.sys.fault.notLoaded = true)

/-- 45_system.md R218: while halted no command of any agent has a step, an illegal one included; only reset leaves the halted
state. That no step is an unchanged state is the model's choice (log entries 6 and 7). -/
def Obligations.HaltedCoreTakesNoCommand : Prop :=
  ∀ s : State, s.sys.halted = true →
    (∀ i, exec i s = .next s) ∧
    (∀ (a : Agent) (ts : List Turn), s.cfg.wellFormed = true → s.env.schedule = .command a :: ts →
      step s = .next { s with env := { s.env with schedule := ts } }) ∧
    (∀ t, step s = .next t → t.sys.halted = false →
      (∃ ts, s.env.schedule = .reset :: ts) ∨ (∃ a k ts, s.env.schedule = .commandCut a k :: ts))

/-! ### Configuration, reset, the step -/

/-- 00_scope.md R10: the nine checks, as the spec writes them, over every value of every parameter. That a divisor PID_KI_DIV
of 0, with which `wf_int32` has no value, fails it, and that its quotient is `tdiv`, is an inference (log entry 32);
PID_ICLAMP_FN is a table with a default (log entry 13). -/
def Obligations.ConfigurationChecks : Prop :=
  ∀ c : Config, c.wellFormed = true ↔
    ((1 ≤ c.coarseTicks ∧ c.coarseTicks ≤ 65535) ∧ (1 ≤ c.pCel ∧ c.pCel ≤ 65535) ∧
      (1 ≤ c.pPid ∧ c.pPid ≤ 65535) ∧ (1 ≤ c.pLog ∧ c.pLog ≤ 65535) ∧ (1 ≤ c.pTen ∧ c.pTen ≤ 65535) ∧
      (1 ≤ c.pMin ∧ c.pMin ≤ 65535)) ∧
    1 ≤ c.scalingFactor ∧
    c.minSetTemp.toInt ≤ c.maxSetTemp.toInt ∧
    c.maxPoweroffTimeout.toNat ≤ c.apoCntMax.toNat ∧
    ((∀ s : Half, 0 ≤ c.iclampFn.apply s ∧ c.iclampFn.apply s ≤ 32767) ∧ c.pidILimit ≤ 32767) ∧
    (0 ≤ c.apoRollHyst.toInt ∧ c.apoRollThresh.toInt + c.apoRollHyst.toInt ≤ 32767) ∧
    c.nvFormat.calBase + c.nvFormat.calLen + 1 ≤ c.nvSize ∧
    (c.defOp.length = c.nvFormat.opLen ∧ c.defCal.length = c.nvFormat.calLen) ∧
    (c.pidKiDiv ≠ 0 ∧ 32767 * (c.ki : Int) ≤ 2147483647 ∧
      max c.pidPLimit (c.pidErrThresh * c.kp) + tdiv (32767 * (c.ki : Int)) c.pidKiDiv + 65535 * (c.kd : Int)
        ≤ 2147483647)

/-- 00_scope.md R10: under a configuration that fails a check the model takes no step and names a failed check. -/
def Obligations.IllFormedConfigurationIsRefused : Prop :=
  ∀ s : State, s.cfg.wellFormed = false → ∃ k, s.cfg.passes k = false ∧ step s = .refused (.configIllFormed k)

/-- 10_state.md R57, 70_reset_and_hazards.md R260: no step, reset included, changes the configuration. -/
def Obligations.ConfigurationIsFixed : Prop := ∀ s t : State, step s = .next t → t.cfg = s.cfg

/-- 70_reset_and_hazards.md R250: the reset values the spec gives, for every configuration and every NV contents. The values
of `last_sp`, `op`, `cal` and the exported sensor status are the model's own (log entries 3, 4, 5 and 26) and are left
out, and so is the value of `iclamp` for a PID_I_LIMIT it cannot hold (log entry 31). -/
def Obligations.ResetValues : Prop :=
  ∀ (c : Config) (m : Memory), ∃ s, s = State.powerOn c m ∧
    s.tick = { tickCnt := BitVec.ofNat 16 c.coarseTicks, ready := false } ∧
    s.sched =
      { cntCel := BitVec.ofNat 16 c.pCel, cntPid := BitVec.ofNat 16 c.pPid, cntLog := BitVec.ofNat 16 c.pLog
        cntTen := BitVec.ofNat 16 c.pTen, cntMin := BitVec.ofNat 16 c.pMin, apoCnt := 0, sflags := {} } ∧
    s.pid = { acc := 0, iclamp := s.pid.iclamp, dbuf := {}, dsum := 0, didx := 0 } ∧
    (0 ≤ c.pidILimit → c.pidILimit ≤ 65535 → (s.pid.iclamp.toNat : Int) = c.pidILimit) ∧
    s.heater.hs = {} ∧ s.heater.lastSpValid = false ∧ s.heater.duty = 0 ∧
    s.roll =
      { dir := .stop, cyc := false, dchg := false, ccomp := false, resume := .stop, prevApo := false
        prevCycLong := false, cyclesDone := 0, fbev := {}, epReset := false } ∧
    s.store.loaded = false ∧ s.store.defaultsUsed = {} ∧
    s.sys = { fault := {}, halted := false, inert := false } ∧ s.nv.bytes = m

/-- 70_reset_and_hazards.md R252: reset, in any state, sets every register to its reset value, leaves every NV byte as it is
and leaves the halted state. That the configuration, the NV event history and the environment stay is the model's choice
(log entry 9), as are the values of `last_sp`, `op`, `cal` and the exported sensor status (log entries 3,
4, 5 and 26) and the free value of `iclamp` for a negative PID_I_LIMIT (log entry 31). -/
def Obligations.ResetEventKeepsNv : Prop :=
  ∀ (s : State) (ts : List Turn), s.cfg.wellFormed = true → s.env.schedule = .reset :: ts →
    step s = .next
      { State.powerOn s.cfg s.nv.bytes with nv := s.nv, env := { s.env with schedule := ts } }

/-- When the bytes at the front of the agent whose turn it is decode to a command that does not wait, the step is exec of
that command at the state in which the turn is taken and the agent's bytes are the rest (30_encoding.md R80, 10_state.md R20;
log entry 7). -/
def Obligations.StepRunsTheDecodedCommand : Prop :=
  ∀ (s : State) (a : Agent) (ts : List Turn) (i : Instr) (rest : List Byte), s.cfg.wellFormed = true →
    s.sys.halted = false → s.env.schedule = .command a :: ts → decode (pendingBytes a s.env) = .command i rest →
    ¬ (∃ o, i = .cycle o ∧ o.reservedClear = true ∧ s.tick.ready = false) →
    step s = exec i { s with env := setPending a rest { s.env with schedule := ts } }

/-- 20_memory.md R74, 70_reset_and_hazards.md R252, 44_param_store.md R192: reset falling after the first `k` byte writes of
PS_SAVE_OP, of PS_SAVE_CAL, of PS_LOAD with its one or two default saves, or of POWER_LOSS with its final save leaves every
register at its reset value, the first `k` of the command's writes done and every other byte as it was. How a cut is scheduled
is the model's choice (log entries 7, 8 and 9), as are the values reset gives `last_sp`, `op`, `cal` and the exported sensor
status (log entries 3, 4, 5 and 26) and the free value of `iclamp` for a negative PID_I_LIMIT (log entry 31). -/
def Obligations.TornSaveLeavesPrefix : Prop :=
  ∀ (s : State) (a : Agent) (k : Nat) (ts : List Turn) (i : Instr) (rest : List Byte) (ws : List Host.Cell),
    s.cfg.wellFormed = true → s.cfg.nvFormat = {} → s.sys.halted = false → s.env.schedule = .commandCut a k :: ts →
    decode (pendingBytes a s.env) = .command i rest →
    (i = .psSaveOp ∧ s.store.loaded = true ∧
        ws = savedWrites s.nv.bytes 0 (serOp s.store.op ++ [crc8 0x8C (serOp s.store.op)]) ∨
      i = .psSaveCal ∧ s.store.loaded = true ∧
        ws = savedWrites s.nv.bytes 6 (serCal s.store.cal ++ [crc8 0x8C (serCal s.store.cal)]) ∨
      i = .psLoad ∧
        ws =
          (if blockValid 0x8C s.nv.bytes 0 5 then []
           else savedWrites s.nv.bytes 0 (s.cfg.defOp ++ [crc8 0x8C s.cfg.defOp])) ++
          (if blockValid 0x8C s.nv.bytes 6 8 then []
           else savedWrites s.nv.bytes 6 (s.cfg.defCal ++ [crc8 0x8C s.cfg.defCal])) ∨
      i = .powerLoss ∧
        ws =
          (if s.store.loaded then savedWrites s.nv.bytes 0 (serOp s.store.op ++ [crc8 0x8C (serOp s.store.op)])
           else [])) →
    ∃ t, step s = .next t ∧
      t = { State.powerOn s.cfg s.nv.bytes with
            nv := t.nv, env := setPending a rest { s.env with schedule := ts } } ∧
      t.nv.history = s.nv.history ++ ws.take k ∧
      (∀ c ∈ ws.take k, Memory.read t.nv.bytes c.1 = c.2) ∧
      (∀ b, (∀ c ∈ ws.take k, c.1 ≠ b) → Memory.read t.nv.bytes b = Memory.read s.nv.bytes b)

/-- 44_param_store.md R199: after a torn save the next load may take the defaults, and it may accept the mixed image; neither
is excluded. How a cut is scheduled is the model's choice (log entry 8). -/
def Obligations.TornSaveMayPassOrFail : Prop :=
  ∀ accepted : Bool, ∃ s t u : State, s.cfg.nvFormat = {} ∧ s.store.loaded = true ∧ blockValid 0x8C s.nv.bytes 0 5 = true ∧
    (∃ k ts, s.env.schedule = .commandCut .host k :: ts) ∧ pendingBytes .host s.env = [0x11] ∧
    step s = .next t ∧ exec .psLoad t = .next u ∧ u.store.defaultsUsed.op = !accepted ∧
    (accepted = true → u.store.op ≠ s.store.op ∧ bytesAt t.nv.bytes 0 5 ≠ bytesAt s.nv.bytes 0 5)

/-- Every step keeps the machine's invariants: the ranges of the counters (10_state.md R22, R24, R25), the controller's bounds
and its running sum (R28, R29, R31), the duty's range where DUTY_MAX is not negative (R37; log entry 30), the values of
`resume` (R41), inert and halted together with a stopped motor and a heater off (R53, R54), and the canonical form of the NV
store inside its address range. That a reset with a negative PID_I_LIMIT leaves `iclamp` in R29's range is the model's choice
(log entry 31). -/
def Obligations.StepKeepsInvariants : Prop := ∀ s t : State, Inv s → step s = .next t → Inv t

/-- The invariants hold right after power-on with any well-formed configuration and any NV contents, and at reset, whose
configuration and NV contents are the model's choice (log entries 1 and 2), as is that a negative PID_I_LIMIT leaves `iclamp` in
R29's range (log entry 31). -/
def Obligations.InvariantsHoldAtReset : Prop :=
  (∀ (c : Config) (m : Memory), c.wellFormed = true → Memory.wf m = true → (∀ e ∈ m, e.1 < c.nvSize) →
    Inv (State.powerOn c m)) ∧
  Inv State.reset
end

