-- ==== Sys2Proof/Laws/Memory.lean ====
section
/-! SUPPORT. The laws of the NV store's bytes: a read after a write, and that every operation keeps the canonical form. -/

namespace Sys2Proof.Machine.Memory

@[simp] theorem read_nil (a : Nat) : read [] a = fill := rfl

theorem read_cons (c : Host.Cell) (m : Memory) (a : Nat) :
    read (c :: m) a = if c.1 = a then c.2 else read m a := rfl

/-- An address that no entry has reads as an unlisted one. -/
theorem read_of_forall_ne {m : Memory} {a : Nat} (h : ∀ c ∈ m, c.1 ≠ a) : read m a = fill := by
  induction m with
  | nil => rfl
  | cons c m ih =>
    rw [read_cons, if_neg (h c List.mem_cons_self)]
    exact ih fun d hd => h d (List.mem_cons_of_mem _ hd)

@[simp] theorem read_erase_same (m : Memory) (a : Nat) : read (erase m a) a = fill := by
  induction m with
  | nil => rfl
  | cons c m ih => by_cases h : c.1 = a <;> simp [erase, read_cons, h, ih]

theorem read_erase_ne {a b : Nat} (hab : b ≠ a) (m : Memory) : read (erase m a) b = read m b := by
  induction m with
  | nil => rfl
  | cons c m ih =>
    by_cases h : c.1 = a
    · have : c.1 ≠ b := fun e => hab (e.symm.trans h)
      simp [erase, read_cons, h, ih, Ne.symm hab]
    · simp [erase, read_cons, h, ih]

@[simp] theorem read_insert_same (m : Memory) (a : Nat) (v : Byte) : read (insert m a v) a = v := by
  induction m with
  | nil => simp [insert, read_cons]
  | cons c m ih =>
    simp only [insert]
    split
    · simp [read_cons]
    · split
      · simp [read_cons]
      · rename_i h; simp [read_cons, h, ih]

theorem read_insert_ne {a b : Nat} (hab : b ≠ a) (m : Memory) (v : Byte) : read (insert m a v) b = read m b := by
  induction m with
  | nil => simp [insert, read_cons, Ne.symm hab]
  | cons c m ih =>
    simp only [insert]
    split
    · simp [read_cons, Ne.symm hab]
    · split
      · rename_i h; simp [read_cons, h, Ne.symm hab]
      · simp [read_cons, ih]

/-- A read after a write to the same address gives the value written (20_memory.md R76). -/
@[simp] theorem read_write_same (m : Memory) (a : Nat) (v : Byte) : read (write m a v) a = v := by
  unfold write
  split
  · rename_i h; simp [h]
  · simp

/-- A write leaves every other address alone (20_memory.md R69). -/
theorem read_write_ne {a b : Nat} (hab : b ≠ a) (m : Memory) (v : Byte) : read (write m a v) b = read m b := by
  unfold write
  split
  · exact read_erase_ne hab m
  · exact read_insert_ne hab m v

theorem read_write (m : Memory) (a b : Nat) (v : Byte) : read (write m a v) b = if b = a then v else read m b := by
  split
  · rename_i h; simp [h]
  · rename_i h; exact read_write_ne h m v

@[simp] theorem wf_nil : wf [] = true := rfl

theorem wf_cons (c : Host.Cell) (m : Memory) :
    wf (c :: m) = true ↔ c.2 ≠ fill ∧ (∀ d ∈ m, c.1 < d.1) ∧ wf m = true := by
  simp [wf, and_assoc]

theorem mem_erase {m : Memory} {a : Nat} {c : Host.Cell} (h : c ∈ erase m a) : c ∈ m := by
  induction m with
  | nil => exact h
  | cons d m ih =>
    simp only [erase] at h
    split at h
    · exact List.mem_cons_of_mem _ (ih h)
    · rcases List.mem_cons.mp h with h | h
      · exact h ▸ List.mem_cons_self
      · exact List.mem_cons_of_mem _ (ih h)

theorem mem_insert {m : Memory} {a : Nat} {v : Byte} {c : Host.Cell} (h : c ∈ insert m a v) : c = (a, v) ∨ c ∈ m := by
  induction m with
  | nil => exact .inl (by simpa [insert] using h)
  | cons d m ih =>
    simp only [insert] at h
    split at h
    · exact List.mem_cons.mp h
    · split at h
      · exact (List.mem_cons.mp h).imp id (List.mem_cons_of_mem _)
      · rcases List.mem_cons.mp h with h | h
        · exact .inr (h ▸ List.mem_cons_self)
        · exact (ih h).imp id (List.mem_cons_of_mem _)

theorem mem_write {m : Memory} {a : Nat} {v : Byte} {c : Host.Cell} (h : c ∈ write m a v) : c = (a, v) ∨ c ∈ m := by
  unfold write at h
  split at h
  · exact .inr (mem_erase h)
  · exact mem_insert h

theorem erase_wf {m : Memory} (h : wf m = true) (a : Nat) : wf (erase m a) = true := by
  induction m with
  | nil => rfl
  | cons c m ih =>
    obtain ⟨hc, hlt, hm⟩ := (wf_cons c m).mp h
    simp only [erase]
    split
    · exact ih hm
    · exact (wf_cons _ _).mpr ⟨hc, fun d hd => hlt d (mem_erase hd), ih hm⟩

theorem insert_wf {m : Memory} (h : wf m = true) (a : Nat) {v : Byte} (hv : v ≠ fill) : wf (insert m a v) = true := by
  induction m with
  | nil => exact (wf_cons _ _).mpr ⟨hv, by simp, rfl⟩
  | cons c m ih =>
    obtain ⟨hc, hlt, hm⟩ := (wf_cons c m).mp h
    simp only [insert]
    split
    · rename_i hac
      refine (wf_cons _ _).mpr ⟨hv, fun d hd => ?_, h⟩
      rcases List.mem_cons.mp hd with hd | hd
      · exact hd ▸ hac
      · exact hac.trans (hlt d hd)
    · split
      · rename_i hca
        exact (wf_cons _ _).mpr ⟨hv, fun d hd => hca ▸ hlt d hd, hm⟩
      · rename_i h1 h2
        refine (wf_cons _ _).mpr ⟨hc, fun d hd => ?_, ih hm⟩
        rcases mem_insert hd with hd | hd
        · subst hd; show c.1 < a; omega
        · exact hlt d hd

/-- A write keeps the canonical form. -/
theorem write_wf {m : Memory} (h : wf m = true) (a : Nat) (v : Byte) : wf (write m a v) = true := by
  unfold write
  split
  · exact erase_wf h a
  · rename_i hv; exact insert_wf h a hv

/-- Canonical memories with the same bytes are the same data. -/
theorem ext_of_wf {m n : Memory} (hm : wf m = true) (hn : wf n = true) (h : ∀ a, read m a = read n a) : m = n := by
  induction m generalizing n with
  | nil =>
    cases n with
    | nil => rfl
    | cons d n =>
      have := h d.1
      simp [read_cons] at this
      exact absurd this.symm ((wf_cons d n).mp hn).1
  | cons c m ih =>
    obtain ⟨hc, hcl, hm'⟩ := (wf_cons c m).mp hm
    cases n with
    | nil => exact absurd (by simpa [read_cons] using h c.1) hc
    | cons d n =>
      obtain ⟨hd, hdl, hn'⟩ := (wf_cons d n).mp hn
      have hne : ∀ {k : Memory} {x : Host.Cell}, (∀ e ∈ k, x.1 < e.1) → ∀ a ≤ x.1, read k a = fill :=
        fun hk a ha => read_of_forall_ne fun e he => by have := hk e he; omega
      have hcd : c.1 = d.1 := by
        rcases Nat.lt_trichotomy c.1 d.1 with hl | hl | hl
        · refine absurd ?_ hc
          have := h c.1
          rw [read_cons, if_pos rfl, read_cons, if_neg (by omega), hne hdl _ (by omega)] at this
          exact this
        · exact hl
        · refine absurd ?_ hd
          have := h d.1
          rw [read_cons, if_neg (by omega), read_cons, if_pos rfl, hne hcl _ (by omega)] at this
          exact this.symm
      have hcd2 : c.2 = d.2 := by simpa [read_cons, hcd] using h c.1
      have hmn : m = n := ih hm' hn' fun a => by
        by_cases ha : c.1 = a
        · rw [hne hcl a (by omega), hne hdl a (by omega)]
        · have := h a
          rwa [read_cons, if_neg ha, read_cons, if_neg (hcd ▸ ha)] at this
      rw [hmn, Prod.ext hcd hcd2]

end Sys2Proof.Machine.Memory
end

