-- ==== Sys2Proof/Laws/Nv.lean ====
section
/-! SUPPORT. What the NV operations can do: one lemma each for NVRead, NVWrite, MemRead, VALIDATE, the differ-only save and
the replay of its writes. -/

namespace Sys2Proof.Machine

theorem nvRead_inside {size a : Nat} (h : a < size) (n : NvStore) : nvRead size n a = .ok (Memory.read n.bytes a) :=
  if_pos h

theorem nvRead_outside {size a : Nat} (h : ¬ a < size) (n : NvStore) : nvRead size n a = .error (.nvOutOfRange a) :=
  if_neg h

theorem nvWrite_inside {size a : Nat} (h : a < size) (n : NvStore) (v : Byte) :
    nvWrite size n a v = .ok { bytes := Memory.write n.bytes a v, history := n.history ++ [(a, v)] } := if_pos h

theorem bytesAt_zero (m : Memory) (a : Nat) : bytesAt m a 0 = [] := rfl

theorem bytesAt_succ (m : Memory) (a n : Nat) : bytesAt m a (n + 1) = Memory.read m a :: bytesAt m (a + 1) n := by
  simp only [bytesAt, List.range_succ_eq_map, List.map_cons, List.map_map, Nat.add_zero]
  congr 1
  exact List.map_congr_left fun _ _ => by simp [Nat.add_left_comm, Nat.add_comm]

@[simp] theorem bytesAt_length (m : Memory) (a n : Nat) : (bytesAt m a n).length = n := by simp [bytesAt]

/-- Two memories that agree on a range hold the same bytes there. -/
theorem bytesAt_congr {m m' : Memory} {a n : Nat} (h : ∀ b, a ≤ b → b < a + n → Memory.read m b = Memory.read m' b) :
    bytesAt m a n = bytesAt m' a n :=
  List.map_congr_left fun _ hk => h _ (Nat.le_add_right _ _) (Nat.add_lt_add_left (List.mem_range.mp hk) _)

/-- MemRead inside the store gives the bytes in ascending order. -/
theorem memRead_inside {size a k : Nat} (h : a + k ≤ size) (n : NvStore) :
    memRead size n a k = .ok (bytesAt n.bytes a k) := by
  induction k generalizing a with
  | zero => rfl
  | succ k ih =>
    simp only [memRead, nvRead_inside (show a < size by omega), ih (show a + 1 + k ≤ size by omega), bytesAt_succ]
    rfl

/-- VALIDATE inside the store. -/
theorem readBlock_inside {size base len : Nat} (h : base + len < size) (poly : Byte) (n : NvStore) :
    readBlock poly size n base len = .ok (bytesAt n.bytes base len, blockValid poly n.bytes base len) := by
  simp only [readBlock, memRead_inside (show base + len ≤ size by omega), nvRead_inside h, blockValid]
  rfl

@[simp] theorem replayWrites_nil (n : NvStore) : replayWrites n [] = n := rfl

@[simp] theorem replayWrites_cons (n : NvStore) (c : Host.Cell) (cs : List Host.Cell) :
    replayWrites n (c :: cs) =
      replayWrites { bytes := Memory.write n.bytes c.1 c.2, history := n.history ++ [c] } cs := rfl

@[simp] theorem replayWrites_history (n : NvStore) (cs : List Host.Cell) :
    (replayWrites n cs).history = n.history ++ cs := by
  induction cs generalizing n with
  | nil => simp
  | cons c cs ih => simp [ih]

theorem replayWrites_append (n : NvStore) (xs ys : List Host.Cell) :
    replayWrites n (xs ++ ys) = replayWrites (replayWrites n xs) ys := by
  induction xs generalizing n with
  | nil => rfl
  | cons x xs ih => exact ih _

/-- A replay leaves every address alone that none of its writes names. -/
theorem replayWrites_read_ne {n : NvStore} {cs : List Host.Cell} {a : Nat} (h : ∀ c ∈ cs, c.1 ≠ a) :
    Memory.read (replayWrites n cs).bytes a = Memory.read n.bytes a := by
  induction cs generalizing n with
  | nil => rfl
  | cons c cs ih =>
    rw [replayWrites_cons, ih fun d hd => h d (List.mem_cons_of_mem _ hd)]
    exact Memory.read_write_ne (Ne.symm (h c List.mem_cons_self)) _ _

/-- After a replay of writes to rising addresses each of them holds what was written to it. -/
theorem replayWrites_read_mem {n : NvStore} {cs : List Host.Cell} (hr : (cs.map (·.1)).Pairwise (· < ·)) {c : Host.Cell}
    (hc : c ∈ cs) : Memory.read (replayWrites n cs).bytes c.1 = c.2 := by
  induction cs generalizing n with
  | nil => cases hc
  | cons d cs ih =>
    simp only [List.map_cons, List.pairwise_cons] at hr
    rw [replayWrites_cons]
    rcases List.mem_cons.mp hc with rfl | hc
    · rw [replayWrites_read_ne, Memory.read_write_same]
      exact fun e he h => absurd (hr.1 e.1 (List.mem_map_of_mem he)) (by omega)
    · exact ih hr.2 hc

theorem replayWrites_wf {n : NvStore} (h : Memory.wf n.bytes = true) (cs : List Host.Cell) :
    Memory.wf (replayWrites n cs).bytes = true := by
  induction cs generalizing n with
  | nil => exact h
  | cons c cs ih => exact ih (Memory.write_wf h _ _)

/-- A replay lists only addresses that were listed or that a write names. -/
theorem mem_replayWrites {n : NvStore} {cs : List Host.Cell} {d : Host.Cell} (h : d ∈ (replayWrites n cs).bytes) :
    d ∈ n.bytes ∨ ∃ c ∈ cs, c.1 = d.1 := by
  induction cs generalizing n with
  | nil => exact .inl h
  | cons c cs ih =>
    rcases ih h with h | ⟨e, he, hed⟩
    · rcases Memory.mem_write h with h | h
      · exact .inr ⟨c, List.mem_cons_self, by rw [h]⟩
      · exact .inl h
    · exact .inr ⟨e, List.mem_cons_of_mem _ he, hed⟩

/-- The addresses of a save's writes lie in the range saved. -/
theorem savedWrites_range {m : Memory} {a : Nat} {bs : List Byte} {c : Host.Cell} (h : c ∈ savedWrites m a bs) :
    a ≤ c.1 ∧ c.1 < a + bs.length := by
  induction bs generalizing a with
  | nil => cases h
  | cons b bs ih =>
    simp only [savedWrites] at h
    rw [List.length_cons]
    split at h
    · have := ih h; omega
    · rcases List.mem_cons.mp h with h | h
      · subst h; simp
      · have := ih h; omega

/-- Writes below the range saved do not change what a save writes. -/
theorem savedWrites_write_lt {a b : Nat} (h : a < b) (m : Memory) (v : Byte) (bs : List Byte) :
    savedWrites (Memory.write m a v) b bs = savedWrites m b bs := by
  induction bs generalizing b with
  | nil => rfl
  | cons c bs ih =>
    simp only [savedWrites, Memory.read_write_ne (show b ≠ a by omega), ih (show a < b + 1 by omega)]

/-- The differ-only save inside the store makes exactly its differing writes. -/
theorem saveBytes_inside {size a : Nat} {bs : List Byte} (h : a + bs.length ≤ size) (n : NvStore) :
    saveBytes size n a bs = .ok (replayWrites n (savedWrites n.bytes a bs)) := by
  induction bs generalizing a n with
  | nil => rfl
  | cons b bs ih =>
    rw [List.length_cons] at h
    have ha : a < size := by omega
    have hr : a + 1 + bs.length ≤ size := by omega
    simp only [saveBytes, nvRead_inside ha, nvWrite_inside ha, savedWrites]
    by_cases hb : Memory.read n.bytes a = b
    · exact (if_pos hb).trans (by rw [if_pos hb]; exact ih hr n)
    · refine (if_neg hb).trans ?_
      rw [if_neg hb, replayWrites_cons]
      exact (ih hr _).trans (by rw [savedWrites_write_lt (Nat.lt_succ_self a)])

/-- SAVE_BLOCK inside the store (44_param_store.md R192). -/
theorem saveBlock_inside {size base : Nat} {img : List Byte} (h : base + img.length < size) (poly : Byte) (n : NvStore) :
    saveBlock poly size n base img = .ok (replayWrites n (savedWrites n.bytes base (img ++ [crc8 poly img]))) :=
  saveBytes_inside (by rw [List.length_append]; exact h) n

/-- What a finished save reads as: the bytes saved in their range, the old bytes everywhere else. -/
theorem read_saved (n : NvStore) (a : Nat) (bs : List Byte) (b : Nat) :
    Memory.read (replayWrites n (savedWrites n.bytes a bs)).bytes b =
      if h : a ≤ b ∧ b < a + bs.length then bs[b - a] else Memory.read n.bytes b := by
  induction bs generalizing a n with
  | nil => rw [dif_neg (by simp)]; rfl
  | cons c bs ih =>
    simp only [savedWrites, List.length_cons]
    by_cases hb : Memory.read n.bytes a = c
    · rw [if_pos hb, ih]
      by_cases hab : a = b
      · subst hab; rw [dif_neg (by omega), dif_pos (by omega)]; simpa using hb
      · by_cases hin : a ≤ b ∧ b < a + (bs.length + 1)
        · rw [dif_pos (by omega), dif_pos hin, List.getElem_cons]
          rw [dif_neg (by omega)]
          simp only [show b - (a + 1) = b - a - 1 by omega]
        · rw [dif_neg (by omega), dif_neg hin]
    · rw [if_neg hb, replayWrites_cons]
      have := ih { bytes := Memory.write n.bytes a c, history := n.history ++ [(a, c)] } (a + 1)
      rw [savedWrites_write_lt (Nat.lt_succ_self a)] at this
      rw [this]
      by_cases hab : a = b
      · subst hab; rw [dif_neg (by omega), dif_pos (by omega)]; simp
      · rw [Memory.read_write_ne (Ne.symm hab)]
        by_cases hin : a ≤ b ∧ b < a + (bs.length + 1)
        · rw [dif_pos (by omega), dif_pos hin, List.getElem_cons]
          rw [dif_neg (by omega)]
          simp only [show b - (a + 1) = b - a - 1 by omega]
        · rw [dif_neg (by omega), dif_neg hin]

/-- The first `k` writes of a save leave every address outside the range saved alone. -/
theorem read_torn_outside (n : NvStore) (a : Nat) (bs : List Byte) (k b : Nat) (h : ¬ (a ≤ b ∧ b < a + bs.length)) :
    Memory.read (replayWrites n ((savedWrites n.bytes a bs).take k)).bytes b = Memory.read n.bytes b :=
  replayWrites_read_ne fun _ hc e => h (e ▸ savedWrites_range (List.mem_of_mem_take hc))

/-- After a complete save of a block its image and CRC byte are stored (44_param_store.md R192). -/
theorem blockStored_saved (poly : Byte) (n : NvStore) (base : Nat) (img : List Byte) :
    blockStored poly (replayWrites n (savedWrites n.bytes base (img ++ [crc8 poly img]))).bytes base img := by
  constructor
  · refine List.ext_getElem (by simp) fun k h1 h2 => ?_
    rw [bytesAt_length] at h1
    simp only [bytesAt, List.getElem_map, List.getElem_range, read_saved]
    rw [dif_pos (by rw [List.length_append]; simp; omega)]
    simp [List.getElem_append_left h1]
  · rw [read_saved, dif_pos (by rw [List.length_append]; simp)]
    simp

/-- A save writes the same bytes over two memories that agree where it writes. -/
theorem savedWrites_congr {m m' : Memory} {a : Nat} {bs : List Byte}
    (h : ∀ b, a ≤ b → b < a + bs.length → Memory.read m b = Memory.read m' b) : savedWrites m a bs = savedWrites m' a bs := by
  induction bs generalizing a with
  | nil => rfl
  | cons x xs ih =>
    simp only [savedWrites]
    rw [h a (by omega) (by simp), ih fun b h1 h2 => h b (by omega) (by simp; omega)]

/-- The addresses of a save's writes rise. -/
theorem savedWrites_rising (m : Memory) (a : Nat) (bs : List Byte) :
    ((savedWrites m a bs).map (·.1)).Pairwise (· < ·) := by
  induction bs generalizing a with
  | nil => simp [savedWrites]
  | cons b bs ih =>
    simp only [savedWrites]
    split
    · exact ih _
    · simp only [List.map_cons, List.pairwise_cons]
      refine ⟨fun x hx => ?_, ih _⟩
      obtain ⟨c, hc, rfl⟩ := List.mem_map.mp hx
      have := savedWrites_range hc
      show a < c.1
      omega

/-- Validity of a block depends on its own bytes only. -/
theorem blockValid_congr {m m' : Memory} {b l : Nat} (poly : Byte)
    (h : ∀ a, b ≤ a → a ≤ b + l → Memory.read m a = Memory.read m' a) : blockValid poly m b l = blockValid poly m' b l := by
  unfold blockValid
  rw [bytesAt_congr fun a h1 h2 => h a h1 (by omega), h _ (by omega) (by omega)]

/-- A stored block is valid (44_param_store.md R191). -/
theorem blockValid_of_stored {poly : Byte} {m : Memory} {b l : Nat} {img : List Byte} (h : blockStored poly m b img)
    (hl : img.length = l) : blockValid poly m b l = true := by
  subst hl
  unfold blockValid
  rw [h.1, h.2]
  simp

/-! ### The CRC -/

/-- The inverse of one CRC bit step with the polynomial 0x8C, whose top bit tells whether it was added. -/
def crcUnbit (c : Byte) : Byte := if c.getLsbD 7 then ((c ^^^ 0x8C) <<< 1) ||| 1 else c <<< 1

theorem crcUnbit_crcBit : ∀ c : Byte, crcUnbit (crcBit 0x8C c) = c := by decide +kernel

theorem crcBit_inj : Function.Injective (crcBit 0x8C) := Function.LeftInverse.injective crcUnbit_crcBit

theorem crcShift_inj : Function.Injective (crcShift 0x8C) := crcBit_inj.iterate 8

end Sys2Proof.Machine
end

