-- ==== Sys2Proof/Laws/State.lean ====
section
/-! SUPPORT. One lemma per field of State per named update, true by rfl, so that no later proof unfolds a record update. -/

namespace Sys2Proof.Machine

/-! ### raiseFault -/

@[simp] theorem raiseFault_cfg (k : FaultCode) (s : State) : (raiseFault k s).cfg = s.cfg := rfl
@[simp] theorem raiseFault_tick (k : FaultCode) (s : State) : (raiseFault k s).tick = s.tick := rfl
@[simp] theorem raiseFault_sched (k : FaultCode) (s : State) : (raiseFault k s).sched = s.sched := rfl
@[simp] theorem raiseFault_pid (k : FaultCode) (s : State) : (raiseFault k s).pid = s.pid := rfl
@[simp] theorem raiseFault_heater (k : FaultCode) (s : State) : (raiseFault k s).heater = s.heater := rfl
@[simp] theorem raiseFault_roll (k : FaultCode) (s : State) : (raiseFault k s).roll = s.roll := rfl
@[simp] theorem raiseFault_store (k : FaultCode) (s : State) : (raiseFault k s).store = s.store := rfl
@[simp] theorem raiseFault_sys (k : FaultCode) (s : State) : (raiseFault k s).sys = { s.sys with fault := setFaultBit s.sys.fault k } := rfl
@[simp] theorem raiseFault_sensor (k : FaultCode) (s : State) : (raiseFault k s).sensor = s.sensor := rfl
@[simp] theorem raiseFault_nv (k : FaultCode) (s : State) : (raiseFault k s).nv = s.nv := rfl
@[simp] theorem raiseFault_env (k : FaultCode) (s : State) : (raiseFault k s).env = s.env := rfl

/-! ### advance -/

@[simp] theorem advance_cfg (a : Agent) (bs : List Byte) (s : State) : (advance a bs s).cfg = s.cfg := rfl
@[simp] theorem advance_tick (a : Agent) (bs : List Byte) (s : State) : (advance a bs s).tick = s.tick := rfl
@[simp] theorem advance_sched (a : Agent) (bs : List Byte) (s : State) : (advance a bs s).sched = s.sched := rfl
@[simp] theorem advance_pid (a : Agent) (bs : List Byte) (s : State) : (advance a bs s).pid = s.pid := rfl
@[simp] theorem advance_heater (a : Agent) (bs : List Byte) (s : State) : (advance a bs s).heater = s.heater := rfl
@[simp] theorem advance_roll (a : Agent) (bs : List Byte) (s : State) : (advance a bs s).roll = s.roll := rfl
@[simp] theorem advance_store (a : Agent) (bs : List Byte) (s : State) : (advance a bs s).store = s.store := rfl
@[simp] theorem advance_sys (a : Agent) (bs : List Byte) (s : State) : (advance a bs s).sys = s.sys := rfl
@[simp] theorem advance_sensor (a : Agent) (bs : List Byte) (s : State) : (advance a bs s).sensor = s.sensor := rfl
@[simp] theorem advance_nv (a : Agent) (bs : List Byte) (s : State) : (advance a bs s).nv = s.nv := rfl
@[simp] theorem advance_env (a : Agent) (bs : List Byte) (s : State) : (advance a bs s).env = setPending a bs s.env := rfl

/-! ### dropTurn -/

@[simp] theorem dropTurn_cfg (ts : List Turn) (s : State) : (dropTurn ts s).cfg = s.cfg := rfl
@[simp] theorem dropTurn_tick (ts : List Turn) (s : State) : (dropTurn ts s).tick = s.tick := rfl
@[simp] theorem dropTurn_sched (ts : List Turn) (s : State) : (dropTurn ts s).sched = s.sched := rfl
@[simp] theorem dropTurn_pid (ts : List Turn) (s : State) : (dropTurn ts s).pid = s.pid := rfl
@[simp] theorem dropTurn_heater (ts : List Turn) (s : State) : (dropTurn ts s).heater = s.heater := rfl
@[simp] theorem dropTurn_roll (ts : List Turn) (s : State) : (dropTurn ts s).roll = s.roll := rfl
@[simp] theorem dropTurn_store (ts : List Turn) (s : State) : (dropTurn ts s).store = s.store := rfl
@[simp] theorem dropTurn_sys (ts : List Turn) (s : State) : (dropTurn ts s).sys = s.sys := rfl
@[simp] theorem dropTurn_sensor (ts : List Turn) (s : State) : (dropTurn ts s).sensor = s.sensor := rfl
@[simp] theorem dropTurn_nv (ts : List Turn) (s : State) : (dropTurn ts s).nv = s.nv := rfl
@[simp] theorem dropTurn_env (ts : List Turn) (s : State) : (dropTurn ts s).env = { s.env with schedule := ts } := rfl

/-! ### resetEvent -/

@[simp] theorem resetEvent_cfg (s : State) : (resetEvent s).cfg = s.cfg := rfl
@[simp] theorem resetEvent_tick (s : State) : (resetEvent s).tick = (State.powerOn s.cfg s.nv.bytes).tick := rfl
@[simp] theorem resetEvent_sched (s : State) : (resetEvent s).sched = (State.powerOn s.cfg s.nv.bytes).sched := rfl
@[simp] theorem resetEvent_pid (s : State) : (resetEvent s).pid = (State.powerOn s.cfg s.nv.bytes).pid := rfl
@[simp] theorem resetEvent_heater (s : State) : (resetEvent s).heater = (State.powerOn s.cfg s.nv.bytes).heater := rfl
@[simp] theorem resetEvent_roll (s : State) : (resetEvent s).roll = (State.powerOn s.cfg s.nv.bytes).roll := rfl
@[simp] theorem resetEvent_store (s : State) : (resetEvent s).store = (State.powerOn s.cfg s.nv.bytes).store := rfl
@[simp] theorem resetEvent_sys (s : State) : (resetEvent s).sys = (State.powerOn s.cfg s.nv.bytes).sys := rfl
@[simp] theorem resetEvent_sensor (s : State) : (resetEvent s).sensor = {} := rfl
@[simp] theorem resetEvent_nv (s : State) : (resetEvent s).nv = s.nv := rfl
@[simp] theorem resetEvent_env (s : State) : (resetEvent s).env = s.env := rfl

/-! ### makeInert -/

@[simp] theorem makeInert_cfg (s : State) : (makeInert s).cfg = s.cfg := rfl
@[simp] theorem makeInert_tick (s : State) : (makeInert s).tick = s.tick := rfl
@[simp] theorem makeInert_sched (s : State) : (makeInert s).sched = s.sched := rfl
@[simp] theorem makeInert_pid (s : State) : (makeInert s).pid = s.pid := rfl
@[simp] theorem makeInert_heater (s : State) : (makeInert s).heater = { s.heater with duty := 0 } := rfl
@[simp] theorem makeInert_roll (s : State) : (makeInert s).roll = { s.roll with dir := .stop } := rfl
@[simp] theorem makeInert_store (s : State) : (makeInert s).store = s.store := rfl
@[simp] theorem makeInert_sys (s : State) : (makeInert s).sys = { s.sys with inert := true } := rfl
@[simp] theorem makeInert_sensor (s : State) : (makeInert s).sensor = s.sensor := rfl
@[simp] theorem makeInert_nv (s : State) : (makeInert s).nv = s.nv := rfl
@[simp] theorem makeInert_env (s : State) : (makeInert s).env = s.env := rfl

/-! ### afterPowerLoss -/

@[simp] theorem afterPowerLoss_cfg (s : State) (n : NvStore) : (afterPowerLoss s n).cfg = s.cfg := rfl
@[simp] theorem afterPowerLoss_tick (s : State) (n : NvStore) : (afterPowerLoss s n).tick = s.tick := rfl
@[simp] theorem afterPowerLoss_sched (s : State) (n : NvStore) : (afterPowerLoss s n).sched = s.sched := rfl
@[simp] theorem afterPowerLoss_pid (s : State) (n : NvStore) : (afterPowerLoss s n).pid = s.pid := rfl
@[simp] theorem afterPowerLoss_heater (s : State) (n : NvStore) : (afterPowerLoss s n).heater = { s.heater with duty := 0 } := rfl
@[simp] theorem afterPowerLoss_roll (s : State) (n : NvStore) : (afterPowerLoss s n).roll = { s.roll with dir := .stop } := rfl
@[simp] theorem afterPowerLoss_store (s : State) (n : NvStore) : (afterPowerLoss s n).store = s.store := rfl
@[simp] theorem afterPowerLoss_sys (s : State) (n : NvStore) : (afterPowerLoss s n).sys = { s.sys with inert := true, halted := true } := rfl
@[simp] theorem afterPowerLoss_sensor (s : State) (n : NvStore) : (afterPowerLoss s n).sensor = s.sensor := rfl
@[simp] theorem afterPowerLoss_nv (s : State) (n : NvStore) : (afterPowerLoss s n).nv = n := rfl
@[simp] theorem afterPowerLoss_env (s : State) (n : NvStore) : (afterPowerLoss s n).env = s.env := rfl

/-! ### afterLoad -/

@[simp] theorem afterLoad_cfg (op cal : LoadedBlock) (s : State) : (afterLoad op cal s).cfg = s.cfg := rfl
@[simp] theorem afterLoad_tick (op cal : LoadedBlock) (s : State) : (afterLoad op cal s).tick = s.tick := rfl
@[simp] theorem afterLoad_sched (op cal : LoadedBlock) (s : State) : (afterLoad op cal s).sched = s.sched := rfl
@[simp] theorem afterLoad_pid (op cal : LoadedBlock) (s : State) : (afterLoad op cal s).pid = s.pid := rfl
@[simp] theorem afterLoad_heater (op cal : LoadedBlock) (s : State) : (afterLoad op cal s).heater = s.heater := rfl
@[simp] theorem afterLoad_roll (op cal : LoadedBlock) (s : State) : (afterLoad op cal s).roll = s.roll := rfl
@[simp] theorem afterLoad_store (op cal : LoadedBlock) (s : State) : (afterLoad op cal s).store = 
      { op := deOp op.img, cal := deCal cal.img, loaded := true,
        defaultsUsed := { op := op.dflt, cal := cal.dflt } } := rfl
@[simp] theorem afterLoad_sys (op cal : LoadedBlock) (s : State) : (afterLoad op cal s).sys = s.sys := rfl
@[simp] theorem afterLoad_sensor (op cal : LoadedBlock) (s : State) : (afterLoad op cal s).sensor = s.sensor := rfl
@[simp] theorem afterLoad_nv (op cal : LoadedBlock) (s : State) : (afterLoad op cal s).nv = cal.nv := rfl
@[simp] theorem afterLoad_env (op cal : LoadedBlock) (s : State) : (afterLoad op cal s).env = s.env := rfl

/-! ### runCycle -/

@[simp] theorem runCycle_cfg (o : CycleOperands) (s : State) : (runCycle o s).cfg = s.cfg := rfl
@[simp] theorem runCycle_tick (o : CycleOperands) (s : State) : (runCycle o s).tick = { s.tick with ready := false } := rfl
@[simp] theorem runCycle_sched (o : CycleOperands) (s : State) : (runCycle o s).sched = cycleSched o s := rfl
@[simp] theorem runCycle_pid (o : CycleOperands) (s : State) : (runCycle o s).pid = (cycleHeat o s).2 := rfl
@[simp] theorem runCycle_heater (o : CycleOperands) (s : State) : (runCycle o s).heater = (cycleHeat o s).1 := rfl
@[simp] theorem runCycle_roll (o : CycleOperands) (s : State) : (runCycle o s).roll = cycleRoll o s := rfl
@[simp] theorem runCycle_store (o : CycleOperands) (s : State) : (runCycle o s).store = s.store := rfl
@[simp] theorem runCycle_sys (o : CycleOperands) (s : State) : (runCycle o s).sys = s.sys := rfl
@[simp] theorem runCycle_sensor (o : CycleOperands) (s : State) : (runCycle o s).sensor = { noSensor := o.noSensor, shorted := o.shorted } := rfl
@[simp] theorem runCycle_nv (o : CycleOperands) (s : State) : (runCycle o s).nv = s.nv := rfl
@[simp] theorem runCycle_env (o : CycleOperands) (s : State) : (runCycle o s).env = s.env := rfl

/-! ### Environment updates -/

@[simp] theorem setPending_schedule (a : Agent) (bs : List Byte) (e : Env) :
    (setPending a bs e).schedule = e.schedule := by cases a <;> rfl

@[simp] theorem pendingBytes_setPending (a : Agent) (bs : List Byte) (e : Env) :
    pendingBytes a (setPending a bs e) = bs := by cases a <;> rfl

theorem pendingBytes_setPending_ne {a b : Agent} (h : b ≠ a) (bs : List Byte) (e : Env) :
    pendingBytes b (setPending a bs e) = pendingBytes b e := by cases a <;> cases b <;> first | rfl | exact absurd rfl h

@[simp] theorem pendingBytes_dropTurn (a : Agent) (ts : List Turn) (s : State) :
    pendingBytes a (dropTurn ts s).env = pendingBytes a s.env := by cases a <;> rfl

end Sys2Proof.Machine
end

