-- ==== Sys2Proof/Laws/Exec.lean ====
section
/-! SUPPORT. What a command can answer, said once: the inversion of the shared wrappers and NV operations, and of exec. -/

namespace Sys2Proof.Machine

theorem unlessHalted_next {s t : State} {o : Host.Outcome State Fault Refusal} (h : unlessHalted s o = .next t) :
    (s.sys.halted = true ∧ t = s) ∨ (s.sys.halted = false ∧ o = .next t) := by
  unfold unlessHalted at h
  split at h
  · rename_i hh; exact .inl ⟨hh, (Host.Outcome.next.inj h).symm⟩
  · rename_i hh; exact .inr ⟨by simpa using hh, h⟩

theorem unlessHalted_running {s : State} (hs : s.sys.halted = false) (o : Host.Outcome State Fault Refusal) :
    unlessHalted s o = o := by simp [unlessHalted, hs]

theorem unlessHalted_halted {s : State} (hs : s.sys.halted = true) (o : Host.Outcome State Fault Refusal) :
    unlessHalted s o = .next s := by simp [unlessHalted, hs]

theorem ifLoaded_next {s t : State} {o : Host.Outcome State Fault Refusal} (h : ifLoaded s o = .next t) :
    (s.store.loaded = false ∧ t = raiseFault .notLoaded s) ∨ (s.store.loaded = true ∧ o = .next t) := by
  unfold ifLoaded at h
  split at h
  · rename_i hl; exact .inr ⟨hl, h⟩
  · rename_i hl; exact .inl ⟨by simpa using hl, (Host.Outcome.next.inj h).symm⟩

theorem ifLoaded_loaded {s : State} (hs : s.store.loaded = true) (o : Host.Outcome State Fault Refusal) :
    ifLoaded s o = o := by simp [ifLoaded, hs]

theorem ifLoaded_unloaded {s : State} (hs : s.store.loaded = false) (o : Host.Outcome State Fault Refusal) :
    ifLoaded s o = .next (raiseFault .notLoaded s) := by simp [ifLoaded, hs]

theorem ofNv_next {r : Except Fault NvStore} {f : NvStore → State} {t : State} (h : ofNv r f = .next t) :
    ∃ n, r = .ok n ∧ t = f n := by
  cases r with
  | ok n => exact ⟨n, rfl, (Host.Outcome.next.inj h).symm⟩
  | error e => cases h

/-- Peels one step off an NV operation that succeeded. -/
theorem bind_ok {α β : Type} {x : Except Fault α} {f : α → Except Fault β} {b : β} (h : x >>= f = .ok b) :
    ∃ a, x = .ok a ∧ f a = .ok b := by
  cases x with
  | ok a => exact ⟨a, rfl, h⟩
  | error e => cases h

theorem nvRead_ok {size a : Nat} {n : NvStore} {b : Byte} (h : nvRead size n a = .ok b) :
    a < size ∧ b = Memory.read n.bytes a := by
  unfold nvRead at h
  split at h
  · rename_i ha; exact ⟨ha, (Except.ok.inj h).symm⟩
  · cases h

/-- A save that succeeded made exactly its differing writes, all inside the store. -/
theorem saveBytes_ok {size a : Nat} {n n' : NvStore} {bs : List Byte} (h : saveBytes size n a bs = .ok n') :
    n' = replayWrites n (savedWrites n.bytes a bs) ∧ ∀ c ∈ savedWrites n.bytes a bs, c.1 < size := by
  rcases bs with _ | ⟨b, bs⟩
  · exact ⟨(Except.ok.inj h).symm, by simp [savedWrites]⟩
  · have hlen : a + (b :: bs).length ≤ size := by
      induction bs generalizing a b n with
      | nil =>
        obtain ⟨x, hx, -⟩ := bind_ok h
        have := (nvRead_ok hx).1
        simpa using this
      | cons c bs ih =>
        obtain ⟨x, hx, hr⟩ := bind_ok h
        have ha := (nvRead_ok hx).1
        split at hr
        · have := ih _ hr; simp only [List.length_cons] at this ⊢; omega
        · obtain ⟨y, -, hr'⟩ := bind_ok hr
          have := ih _ hr'
          simp only [List.length_cons] at this ⊢; omega
    rw [saveBytes_inside hlen] at h
    exact ⟨(Except.ok.inj h).symm, fun c hc => by have := savedWrites_range hc; omega⟩

theorem memRead_ok {size a k : Nat} {n : NvStore} {bs : List Byte} (h : memRead size n a k = .ok bs) :
    bs = bytesAt n.bytes a k := by
  induction k generalizing a bs with
  | zero => exact (Except.ok.inj h).symm
  | succ k ih =>
    obtain ⟨b, hb, h⟩ := bind_ok h
    obtain ⟨cs, hcs, h⟩ := bind_ok h
    rw [bytesAt_succ, ← ih hcs, ← (nvRead_ok hb).2]
    exact (Except.ok.inj h).symm

theorem readBlock_ok {poly : Byte} {size base len : Nat} {n : NvStore} {r : List Byte × Bool}
    (h : readBlock poly size n base len = .ok r) : r = (bytesAt n.bytes base len, blockValid poly n.bytes base len) := by
  obtain ⟨img, himg, h⟩ := bind_ok h
  obtain ⟨c, hc, h⟩ := bind_ok h
  rw [← Except.ok.inj h, memRead_ok himg, (nvRead_ok hc).2]
  rfl

/-- The block PS_LOAD takes from a store: the stored image if it is valid, else the default, saved (44_param_store.md
R193). -/
def loadedOf (poly : Byte) (n : NvStore) (base len : Nat) (dflt : List Byte) : LoadedBlock :=
  if blockValid poly n.bytes base len then { img := bytesAt n.bytes base len, dflt := false, nv := n }
  else
    { img := dflt, dflt := true, nv := replayWrites n (savedWrites n.bytes base (dflt ++ [crc8 poly dflt])) }

/-- The OperatingParams block PS_LOAD takes in a state. -/
def loadedOp (s : State) : LoadedBlock :=
  loadedOf s.cfg.nvFormat.crcPoly s.nv s.cfg.nvFormat.opBase s.cfg.nvFormat.opLen s.cfg.defOp

/-- The CalibrationParams block PS_LOAD takes in a state, after the OperatingParams block. -/
def loadedCal (s : State) : LoadedBlock :=
  loadedOf s.cfg.nvFormat.crcPoly (loadedOp s).nv s.cfg.nvFormat.calBase s.cfg.nvFormat.calLen s.cfg.defCal

theorem loadBlock_ok {poly : Byte} {size base len : Nat} {n : NvStore} {d : List Byte} {b : LoadedBlock}
    (h : loadBlock poly size n base len d = .ok b) :
    b = loadedOf poly n base len d ∧ ∀ c ∈ b.nv.bytes, c ∈ n.bytes ∨ c.1 < size := by
  obtain ⟨r, hr, h⟩ := bind_ok h
  rw [readBlock_ok hr] at h
  unfold loadedOf
  split at h
  · rename_i hv
    have : blockValid poly n.bytes base len = true := hv
    rw [if_pos this, ← Except.ok.inj h]
    exact ⟨rfl, fun c hc => .inl hc⟩
  · rename_i hv
    have : ¬ blockValid poly n.bytes base len = true := hv
    obtain ⟨n', hn, h⟩ := bind_ok h
    obtain ⟨hn', hin⟩ := saveBytes_ok hn
    rw [if_neg this, ← Except.ok.inj h, hn']
    refine ⟨rfl, fun c hc => ?_⟩
    rcases mem_replayWrites hc with hc | ⟨e, he, hec⟩
    · exact .inl hc
    · exact .inr (hec ▸ hin e he)

/-- With both blocks inside the store, PS_LOAD's block operation succeeds. -/
theorem loadBlock_inside {size base len : Nat} {d : List Byte} (hd : d.length = len) (h : base + len < size)
    (poly : Byte) (n : NvStore) : loadBlock poly size n base len d = .ok (loadedOf poly n base len d) := by
  have hs := saveBlock_inside (size := size) (base := base) (img := d) (by omega) poly n
  simp only [loadBlock, readBlock_inside h, loadedOf]
  by_cases hv : blockValid poly n.bytes base len
  · rw [if_pos hv]; exact if_pos hv
  · rw [if_neg hv]; refine (if_neg hv).trans ?_
    rw [hs]; rfl

/-- The NV store after a complete save of the active OperatingParams. -/
def savedOp (s : State) : NvStore :=
  replayWrites s.nv
    (savedWrites s.nv.bytes s.cfg.nvFormat.opBase
      (serOp s.store.op ++ [crc8 s.cfg.nvFormat.crcPoly (serOp s.store.op)]))

/-- The NV store after a complete save of the active CalibrationParams. -/
def savedCal (s : State) : NvStore :=
  replayWrites s.nv
    (savedWrites s.nv.bytes s.cfg.nvFormat.calBase
      (serCal s.store.cal ++ [crc8 s.cfg.nvFormat.crcPoly (serCal s.store.cal)]))

/-- What a command's own effect leaves, where it performs it. -/
def Effect : Instr → State → State → Prop
  | .tick, s, t => t = { s with tick := tickDivide s.cfg s.tick }
  | .cycle o, s, t => CycleRuns o s ∧ t = runCycle o s
  | .psLoad, s, t =>
    t = afterLoad (loadedOp s) (loadedCal s) s ∧ ∀ c ∈ t.nv.bytes, c ∈ s.nv.bytes ∨ c.1 < s.cfg.nvSize
  | .psSaveOp, s, t =>
    t = { s with nv := savedOp s } ∧
      ∀ c ∈ t.nv.bytes, c ∈ s.nv.bytes ∨ c.1 < s.cfg.nvSize
  | .psSaveCal, s, t =>
    t = { s with nv := savedCal s } ∧
      ∀ c ∈ t.nv.bytes, c ∈ s.nv.bytes ∨ c.1 < s.cfg.nvSize
  | .psWriteOp p, s, t => t = { s with store := { s.store with op := p } }
  | .psWriteCal p, s, t => t = { s with store := { s.store with cal := p } }
  | .setCalMode v _, s, t => t = { s with heater := { s.heater with hs := { s.heater.hs with cal := v } } }
  | .powerLoss, s, t =>
    t = afterPowerLoss s (if s.store.loaded then savedOp s else s.nv) ∧
      ∀ c ∈ t.nv.bytes, c ∈ s.nv.bytes ∨ c.1 < s.cfg.nvSize

theorem mem_saved {size a : Nat} {n : NvStore} {bs : List Byte} (hin : ∀ c ∈ savedWrites n.bytes a bs, c.1 < size)
    {c : Host.Cell} (hc : c ∈ (replayWrites n (savedWrites n.bytes a bs)).bytes) : c ∈ n.bytes ∨ c.1 < size := by
  rcases mem_replayWrites hc with hc | ⟨e, he, hec⟩
  · exact .inl hc
  · exact .inr (hec ▸ hin e he)

/-- The inversion of exec: a command that answers a next state had no step, raised a fault of the core, or performed its
own effect. -/
theorem exec_cases {i : Instr} {s t : State} (h : exec i s = .next t) :
    t = s ∨ (s.sys.halted = false ∧ ∃ k, t = raiseFault k s) ∨ (s.sys.halted = false ∧ Effect i s t) := by
  cases i with
  | tick =>
    rcases unlessHalted_next h with ⟨-, h⟩ | ⟨hh, h⟩
    · exact .inl h
    · exact .inr (.inr ⟨hh, (Host.Outcome.next.inj h).symm⟩)
  | cycle o =>
    rcases unlessHalted_next h with ⟨-, h⟩ | ⟨hh, h⟩
    · exact .inl h
    · split at h
      · exact .inr (.inl ⟨hh, _, (Host.Outcome.next.inj h).symm⟩)
      · rename_i hg
        split at h
        · exact .inl (Host.Outcome.next.inj h).symm
        · rename_i hr
          rcases ifLoaded_next h with ⟨-, h⟩ | ⟨hl, h⟩
          · exact .inr (.inl ⟨hh, _, h⟩)
          · exact .inr (.inr ⟨hh, ⟨hh, by simpa using hg, by simpa using hr, hl⟩, (Host.Outcome.next.inj h).symm⟩)
  | psLoad =>
    rcases unlessHalted_next h with ⟨-, h⟩ | ⟨hh, h⟩
    · exact .inl h
    · split at h
      · rename_i b hb
        obtain ⟨op, hop, hb⟩ := bind_ok hb
        obtain ⟨cal, hcal, hb⟩ := bind_ok hb
        obtain ⟨rfl, hopIn⟩ := loadBlock_ok hop
        obtain ⟨rfl, hcalIn⟩ := loadBlock_ok hcal
        obtain rfl := Except.ok.inj hb
        obtain rfl := Host.Outcome.next.inj h
        exact .inr (.inr ⟨hh, rfl, fun c hc => (hcalIn c hc).elim (hopIn c) .inr⟩)
      · cases h
  | psSaveOp =>
    rcases unlessHalted_next h with ⟨-, h⟩ | ⟨hh, h⟩
    · exact .inl h
    · rcases ifLoaded_next h with ⟨-, h⟩ | ⟨-, h⟩
      · exact .inr (.inl ⟨hh, _, h⟩)
      · obtain ⟨n, hn, rfl⟩ := ofNv_next h
        obtain ⟨rfl, hin⟩ := saveBytes_ok hn
        exact .inr (.inr ⟨hh, rfl, fun c hc => mem_saved hin hc⟩)
  | psSaveCal =>
    rcases unlessHalted_next h with ⟨-, h⟩ | ⟨hh, h⟩
    · exact .inl h
    · rcases ifLoaded_next h with ⟨-, h⟩ | ⟨-, h⟩
      · exact .inr (.inl ⟨hh, _, h⟩)
      · obtain ⟨n, hn, rfl⟩ := ofNv_next h
        obtain ⟨rfl, hin⟩ := saveBytes_ok hn
        exact .inr (.inr ⟨hh, rfl, fun c hc => mem_saved hin hc⟩)
  | psWriteOp p =>
    rcases unlessHalted_next h with ⟨-, h⟩ | ⟨hh, h⟩
    · exact .inl h
    · rcases ifLoaded_next h with ⟨-, h⟩ | ⟨-, h⟩
      · exact .inr (.inl ⟨hh, _, h⟩)
      · exact .inr (.inr ⟨hh, (Host.Outcome.next.inj h).symm⟩)
  | psWriteCal p =>
    rcases unlessHalted_next h with ⟨-, h⟩ | ⟨hh, h⟩
    · exact .inl h
    · rcases ifLoaded_next h with ⟨-, h⟩ | ⟨-, h⟩
      · exact .inr (.inl ⟨hh, _, h⟩)
      · exact .inr (.inr ⟨hh, (Host.Outcome.next.inj h).symm⟩)
  | setCalMode v rsv =>
    rcases unlessHalted_next h with ⟨-, h⟩ | ⟨hh, h⟩
    · exact .inl h
    · split at h
      · exact .inr (.inl ⟨hh, _, (Host.Outcome.next.inj h).symm⟩)
      · exact .inr (.inr ⟨hh, (Host.Outcome.next.inj h).symm⟩)
  | powerLoss =>
    rcases unlessHalted_next h with ⟨-, h⟩ | ⟨hh, h⟩
    · exact .inl h
    · obtain ⟨n, hn, rfl⟩ := ofNv_next h
      unfold finalSave at hn
      split at hn
      · rename_i hl
        obtain ⟨rfl, hin⟩ := saveBytes_ok hn
        exact .inr (.inr ⟨hh, by rw [if_pos hl]; rfl, fun c hc => mem_saved hin hc⟩)
      · rename_i hl
        obtain rfl := Except.ok.inj hn
        exact .inr (.inr ⟨hh, by rw [if_neg hl], fun c hc => .inl hc⟩)

/-! ### When a command performs its effect -/

/-- The NV store is laid out as 20_memory.md R63 decides, and it and the default images are large enough (00_scope.md R10). -/
structure NvFits (c : Config) : Prop where
  format : c.nvFormat = {}
  size : 15 ≤ c.nvSize
  defOp : c.defOp.length = 5
  defCal : c.defCal.length = 8

theorem savedOp_eq {s : State} (hn : NvFits s.cfg) :
    savedOp s =
      replayWrites s.nv (savedWrites s.nv.bytes 0 (serOp s.store.op ++ [crc8 0x8C (serOp s.store.op)])) := by
  simp only [savedOp, hn.format]

theorem savedCal_eq {s : State} (hn : NvFits s.cfg) :
    savedCal s =
      replayWrites s.nv (savedWrites s.nv.bytes 6 (serCal s.store.cal ++ [crc8 0x8C (serCal s.store.cal)])) := by
  simp only [savedCal, hn.format]

theorem loadedOp_eq {s : State} (hn : NvFits s.cfg) : loadedOp s = loadedOf 0x8C s.nv 0 5 s.cfg.defOp := by
  simp only [loadedOp, hn.format]

theorem loadedCal_eq {s : State} (hn : NvFits s.cfg) : loadedCal s = loadedOf 0x8C (loadedOp s).nv 6 8 s.cfg.defCal := by
  simp only [loadedCal, hn.format]

theorem exec_psLoad_runs {s : State} (hn : NvFits s.cfg) (hh : s.sys.halted = false) :
    exec .psLoad s = .next (afterLoad (loadedOp s) (loadedCal s) s) := by
  have hs := hn.size
  have h1 := loadBlock_inside (size := s.cfg.nvSize) (base := 0) hn.defOp (by omega) 0x8C s.nv
  have h2 := loadBlock_inside (size := s.cfg.nvSize) (base := 6) hn.defCal (by omega) 0x8C (loadedOp s).nv
  rw [← loadedOp_eq hn] at h1
  rw [← loadedCal_eq hn] at h2
  have hb : loadBlocks s.cfg s.nv = .ok (loadedOp s, loadedCal s) := by
    simp only [loadBlocks, hn.format]
    rw [h1]
    show (loadBlock _ s.cfg.nvSize (loadedOp s).nv _ _ _ >>= _) = _
    rw [h2]
    rfl
  simp [exec, execPsLoad, unlessHalted_running hh, hb]

theorem saveOp_inside {s : State} (hn : NvFits s.cfg) : saveOp s = .ok (savedOp s) := by
  have hs := hn.size
  exact saveBlock_inside (by simp only [hn.format, serOp, List.length_cons, List.length_nil]; omega) _ _

theorem saveCal_inside {s : State} (hn : NvFits s.cfg) : saveCal s = .ok (savedCal s) := by
  have hs := hn.size
  exact saveBlock_inside (by simp only [hn.format, serCal, List.length_cons, List.length_nil]; omega) _ _

theorem exec_psSaveOp_runs {s : State} (hn : NvFits s.cfg) (hh : s.sys.halted = false)
    (hl : s.store.loaded = true) : exec .psSaveOp s = .next { s with nv := savedOp s } := by
  simp [exec, execPsSaveOp, unlessHalted_running hh, ifLoaded_loaded hl, saveOp_inside hn, ofNv]

theorem exec_psSaveCal_runs {s : State} (hn : NvFits s.cfg) (hh : s.sys.halted = false)
    (hl : s.store.loaded = true) : exec .psSaveCal s = .next { s with nv := savedCal s } := by
  simp [exec, execPsSaveCal, unlessHalted_running hh, ifLoaded_loaded hl, saveCal_inside hn, ofNv]

theorem exec_powerLoss_runs {s : State} (hn : NvFits s.cfg) (hh : s.sys.halted = false) :
    exec .powerLoss s = .next (afterPowerLoss s (if s.store.loaded then savedOp s else s.nv)) := by
  cases hl : s.store.loaded <;> simp [exec, execPowerLoss, unlessHalted_running hh, finalSave, hl, saveOp_inside hn, ofNv]

end Sys2Proof.Machine
end

