-- ==== Sys2Proof/Laws/Step.lean ====
section
/-! SUPPORT. What a step can answer, said once: the inversion of a turn and of step. -/

namespace Sys2Proof.Machine

/-- A configuration without a failed check is well-formed, and only such a one. -/
theorem failedCheck_eq_none (c : Config) : c.failedCheck = none ↔ c.wellFormed = true := by
  simp [Config.failedCheck, Config.wellFormed, List.find?_eq_none, List.all_eq_true]

/-- Every check of a well-formed configuration holds. -/
theorem passes_of_wellFormed {c : Config} (h : c.wellFormed = true) (k : ConfigCheck) : c.passes k = true := by
  have := List.all_eq_true.mp h
  cases k <;> exact this _ (by decide)

/-- An agent's turn that answers a next state: nothing happened, a byte was no opcode, or the command at the front of the
agent's bytes was executed. -/
theorem runCommand_cases {a : Agent} {s t : State} (h : runCommand a s = .next t) :
    t = s ∨
    (s.sys.halted = false ∧ ∃ op rest, decode (pendingBytes a s.env) = .illegalOpcode op rest ∧
      t = raiseFault .illegalCmd (advance a rest s)) ∨
    (s.sys.halted = false ∧ ∃ i rest, decode (pendingBytes a s.env) = .command i rest ∧ waits i s = false ∧
      exec i (advance a rest s) = .next t) := by
  unfold runCommand at h
  split at h
  · exact .inl (Host.Outcome.next.inj h).symm
  · rename_i hh
    have hh : s.sys.halted = false := by simpa using hh
    split at h
    · exact .inl (Host.Outcome.next.inj h).symm
    · cases h
    · rename_i op rest hd
      exact .inr (.inl ⟨hh, op, rest, hd, (Host.Outcome.next.inj h).symm⟩)
    · rename_i i rest hd
      split at h
      · exact .inl (Host.Outcome.next.inj h).symm
      · rename_i hw
        exact .inr (.inr ⟨hh, i, rest, hd, by simpa using hw, h⟩)

theorem cutAfter_next {k : Nat} {s t : State} {o : Host.Outcome State Fault Refusal} (h : cutAfter k s o = .next t) :
    ∃ u, o = .next u ∧ t = tornReset k s u := by
  cases o with
  | next u => exact ⟨u, rfl, (Host.Outcome.next.inj h).symm⟩
  | fault e => cases h
  | refused r => cases h

/-- The inversion of step: the configuration is well-formed, and nothing was scheduled, reset fell, an agent had its turn,
or an agent's turn was cut by reset. -/
theorem step_cases {s t : State} (h : step s = .next t) :
    s.cfg.wellFormed = true ∧
    ((s.env.schedule = [] ∧ t = s) ∨
     (∃ ts, s.env.schedule = .reset :: ts ∧ t = resetEvent (dropTurn ts s)) ∨
     (∃ a ts, s.env.schedule = .command a :: ts ∧ runCommand a (dropTurn ts s) = .next t) ∨
     (∃ a k ts u, s.env.schedule = .commandCut a k :: ts ∧ runCommand a (dropTurn ts s) = .next u ∧
       t = tornReset k (dropTurn ts s) u)) := by
  unfold step checkedTurn at h
  split at h
  · cases h
  · rename_i hc
    refine ⟨(failedCheck_eq_none _).mp hc, ?_⟩
    unfold takeTurn at h
    split at h
    · rename_i hs; exact .inl ⟨hs, (Host.Outcome.next.inj h).symm⟩
    · rename_i ts hs; exact .inr (.inl ⟨ts, hs, (Host.Outcome.next.inj h).symm⟩)
    · rename_i a ts hs; exact .inr (.inr (.inl ⟨a, ts, hs, h⟩))
    · rename_i a k ts hs
      obtain ⟨u, hu, ht⟩ := cutAfter_next h
      exact .inr (.inr (.inr ⟨a, k, ts, u, hs, hu, ht⟩))

/-- Under a well-formed configuration a step is the turn at the front of the schedule. -/
theorem step_of_wellFormed {s : State} (h : s.cfg.wellFormed = true) : step s = takeTurn s := by
  unfold step checkedTurn
  rw [(failedCheck_eq_none _).mpr h]

end Sys2Proof.Machine
end

