-- ==== Sys2Proof/Laws/Control.lean ====
section
/-! SUPPORT. What the control cycle's operations can do: the countdown and the scheduler (40_tick_scheduler.md rules R101 to
R106), the controller's arithmetic (41_pid.md rules R120 to R125), the heater FSM (42_heater_fsm.md rules R140 to R146) and
the roll FSM (43_roll_fsm.md rules R160 to R171). -/

namespace Sys2Proof.Machine

/-! ### Configuration -/

theorem periods_of_wellFormed {c : Config} (h : c.wellFormed = true) :
    (1 ≤ c.coarseTicks ∧ c.coarseTicks ≤ 65535) ∧ (1 ≤ c.pCel ∧ c.pCel ≤ 65535) ∧ (1 ≤ c.pPid ∧ c.pPid ≤ 65535) ∧
      (1 ≤ c.pLog ∧ c.pLog ≤ 65535) ∧ (1 ≤ c.pTen ∧ c.pTen ≤ 65535) ∧ (1 ≤ c.pMin ∧ c.pMin ≤ 65535) := by
  have := passes_of_wellFormed h .wfPeriods
  simpa [Config.passes, Config.periodsOk] using this

/-- A well-formed configuration with the decided layout has room for both blocks (00_scope.md R10; 20_memory.md R63). -/
theorem nvFits_of_wellFormed {c : Config} (h : c.wellFormed = true) (hf : c.nvFormat = {}) : NvFits c := by
  have h1 : c.nvFormat.calBase + c.nvFormat.calLen + 1 ≤ c.nvSize := of_decide_eq_true (passes_of_wellFormed h .wfNv)
  have h2 : c.defOp.length = c.nvFormat.opLen ∧ c.defCal.length = c.nvFormat.calLen :=
    of_decide_eq_true (passes_of_wellFormed h .wfDefaults)
  rw [hf] at h1 h2
  exact ⟨hf, h1, h2.1, h2.2⟩

theorem int32_of_wellFormed {c : Config} (h : c.wellFormed = true) :
    c.pidKiDiv ≠ 0 ∧ 32767 * (c.ki : Int) ≤ 2147483647 ∧
      max c.pidPLimit (c.pidErrThresh * c.kp) + Int.tdiv (32767 * (c.ki : Int)) c.pidKiDiv + 65535 * (c.kd : Int)
        ≤ 2147483647 :=
  of_decide_eq_true (passes_of_wellFormed h .wfInt32)

/-- The check `wf_iclamp` says what R10 says: every value of PID_ICLAMP_FN is in range, and so is PID_I_LIMIT. -/
theorem iclampOk_iff (c : Config) :
    c.iclampOk = true ↔
      (∀ s : Half, 0 ≤ c.iclampFn.apply s ∧ c.iclampFn.apply s ≤ 32767) ∧ c.pidILimit ≤ 32767 := by
  simp only [Config.iclampOk, Bool.and_eq_true, Config.iclampValueOk, decide_eq_true_eq, List.all_eq_true,
    Bool.or_eq_true, IclampFn.tableTotal, List.mem_range]
  refine and_congr_left fun _ => ⟨fun ⟨ht, hd⟩ s => ?_, fun h => ⟨fun e _ => h e.1, ?_⟩⟩
  · cases hl : c.iclampFn.table.lookup s with
    | some v =>
      obtain ⟨l1, l2, hm, -⟩ := List.lookup_eq_some_iff.mp hl
      exact ht (s, v) (hm ▸ by simp)
    | none =>
      rcases hd with hd | hd
      · rw [IclampFn.apply, hl]; exact hd
      · have := hd s.toNat s.isLt
        rw [BitVec.ofNat_toNat, BitVec.setWidth_eq, hl] at this
        cases this
  · by_cases hn : ∀ n < 65536, (c.iclampFn.table.lookup (BitVec.ofNat 16 n)).isSome = true
    · exact .inr hn
    · push Not at hn
      obtain ⟨n, -, hn⟩ := hn
      refine .inl ?_
      have := h (BitVec.ofNat 16 n)
      rw [IclampFn.apply, Option.not_isSome_iff_eq_none.mp hn] at this
      exact this

/-- Every value of PID_ICLAMP_FN under a well-formed configuration. -/
theorem iclampFn_range {c : Config} (h : c.wellFormed = true) (s : Half) :
    0 ≤ c.iclampFn.apply s ∧ c.iclampFn.apply s ≤ 32767 := by
  exact ((iclampOk_iff c).mp (passes_of_wellFormed h .wfIclamp)).1 s

/-! ### Countdown -/

theorem countdown_fst (c : Half) (p : Nat) : (countdown c p).1 = if c = 1 then BitVec.ofNat 16 p else c - 1 := by
  have : c - 1 = 0 ↔ c = 1 := by
    constructor
    · intro h; exact (BitVec.sub_eq_iff_eq_add.mp h).trans (by simp)
    · rintro rfl; rfl
  unfold countdown
  simp only [this]
  split <;> rfl

theorem countdown_snd (c : Half) (p : Nat) : (countdown c p).2 = decide (c = 1) := by
  have : c - 1 = 0 ↔ c = 1 := by
    constructor
    · intro h; exact (BitVec.sub_eq_iff_eq_add.mp h).trans (by simp)
    · rintro rfl; rfl
  unfold countdown
  simp only [this]
  by_cases h : c = 1
  · rw [if_pos h, decide_eq_true h]
  · rw [if_neg h, decide_eq_false h]

theorem toNat_sub_one {c : Half} (h : 1 ≤ c.toNat) : (c - 1).toNat = c.toNat - 1 :=
  BitVec.toNat_sub_of_le (show (1 : Half).toNat ≤ c.toNat from h)

theorem toNat_ofNat_period {n : Nat} (h : n ≤ 65535) : (BitVec.ofNat 16 n).toNat = n := by
  rw [BitVec.toNat_ofNat]; omega

/-- A countdown keeps its counter in [1, period] (40_tick_scheduler.md R101). -/
theorem countdown_range {c : Half} {p : Nat} (h : counterInRange c p) (hp : 1 ≤ p ∧ p ≤ 65535) :
    counterInRange (countdown c p).1 p := by
  rw [countdown_fst]
  split
  · simp only [counterInRange, toNat_ofNat_period hp.2]; omega
  · rename_i hn
    have h1 := toNat_sub_one h.1
    have h2 : c.toNat ≠ 1 := fun e => hn (BitVec.eq_of_toNat_eq (by simpa using e))
    obtain ⟨h3, h4⟩ := h
    simp only [counterInRange]; omega

theorem countdownIf_range {on : Bool} {c : Half} {p : Nat} (h : counterInRange c p) (hp : 1 ≤ p ∧ p ≤ 65535) :
    counterInRange (countdownIf on c p).1 p := by
  unfold countdownIf
  split
  · exact countdown_range h hp
  · exact h

/-- The tick divider is a countdown (40_tick_scheduler.md R100, R101). -/
theorem tickDivide_tickCnt (c : Config) (t : TickUnit) :
    (tickDivide c t).tickCnt = (countdown t.tickCnt c.coarseTicks).1 := by
  unfold tickDivide countdown
  by_cases h : t.tickCnt - 1 = 0
  · simp only [h, if_true]
  · simp only [h, if_false]

theorem tickDivide_ready (c : Config) (t : TickUnit) :
    (tickDivide c t).ready = (t.ready || (countdown t.tickCnt c.coarseTicks).2) := by
  unfold tickDivide countdown
  by_cases h : t.tickCnt - 1 = 0
  · simp only [h, if_true, Bool.or_true]
  · simp only [h, if_false, Bool.or_false]

/-! ### The cycle as a whole -/

/-- A CYCLE that passes its checks answers the coarse cycle's state (45_system.md R210, R211). -/
theorem exec_cycle_runs {o : CycleOperands} {s : State} (h : CycleRuns o s) : exec (.cycle o) s = .next (runCycle o s) := by
  obtain ⟨hh, hg, hr, hl⟩ := h
  simp [exec, execCycle, unlessHalted, ifLoaded, hh, hg, hr, hl]

theorem apoActivePort_runCycle (o : CycleOperands) (s : State) : apoActivePort (runCycle o s) = cycleApo o s := rfl

/-! ### The controller -/

theorem toHalf_toNat {v : Int} (h0 : 0 ≤ v) (h1 : v ≤ 32767) : ((toHalf v).toNat : Int) = v := by
  unfold toHalf; rw [BitVec.toNat_ofInt]; norm_num; omega

theorem toHalf_toInt {v : Int} (h0 : -32768 ≤ v) (h1 : v ≤ 32767) : (toHalf v).toInt = v := by
  unfold toHalf; rw [BitVec.toInt_ofInt]; unfold Int.bmod; norm_num; omega

theorem nextAcc_range {sp pv : Half} {p : Pid} (hi : PidInv p) :
    -(32767 : Int) ≤ nextAcc sp pv p ∧ nextAcc sp pv p ≤ 32767 := by
  have := hi.iclamp
  unfold nextAcc clamp; omega

/-- The value DERIV_STEP returns, from the sample that leaves the buffer (41_pid.md R121). -/
theorem dTerm_eq (c : Config) (pv : Half) (p : Pid) :
    dTerm c pv p = (c.kd : Int) * ((derivGet p.dbuf p.didx).toNat - pv.toNat) := by
  unfold dTerm newDerivSum; congr 1; omega

/-- The index step where the spec gives it a value (41_pid.md R121; log entry 27). -/
theorem nextDidx_toNat {c : Config} {i : BitVec 2} (h0 : 0 < c.pidDepth) (h4 : ((i.toNat : Int) + 1) % c.pidDepth < 4) :
    ((nextDidx c i).toNat : Int) = ((i.toNat : Int) + 1) % c.pidDepth := by
  have := Int.emod_nonneg ((i.toNat : Int) + 1) h0.ne'
  rw [nextDidx, if_pos ⟨h0, h4⟩, BitVec.toNat_ofInt]
  norm_num
  omega

/-- A duty that its register holds (10_state.md R37; log entry 30). -/
theorem dutyOf_toNat {v : Int} (h0 : 0 ≤ v) (h1 : v ≤ 127) : ((dutyOf v).toNat : Int) = v := by
  rw [dutyOf, if_pos ⟨h0, h1⟩, BitVec.toNat_ofInt]
  norm_num
  omega

/-- A duty never exceeds a bound that is not negative and bounds the value written, whether or not it fits (log entry 30). -/
theorem dutyOf_le {v b : Int} (hv : 0 ≤ v) (h : v ≤ b) : ((dutyOf v).toNat : Int) ≤ b := by
  by_cases h1 : v ≤ 127
  · rw [dutyOf_toNat hv h1]; exact h
  · have := (dutyOf v).isLt
    omega

/-- The reset value of `iclamp` for a PID_I_LIMIT it holds (10_state.md R29; log entry 31). -/
theorem resetIclamp_toNat {l : Int} (h0 : 0 ≤ l) (h1 : l ≤ 65535) : ((resetIclamp l).toNat : Int) = l := by
  rw [resetIclamp, if_pos h0, BitVec.toNat_ofInt]
  norm_num
  omega

/-- The reset value of `iclamp` is in its range for every PID_I_LIMIT that passes `wf_iclamp` (10_state.md R29). -/
theorem resetIclamp_le {l : Int} (h : l ≤ 32767) : (resetIclamp l).toNat ≤ 32767 := by
  by_cases h0 : 0 ≤ l
  · have := resetIclamp_toNat h0 (by omega)
    omega
  · have := (Config.openIclamp l).isLt
    rw [resetIclamp, if_neg h0, BitVec.toNat_ofNat]
    omega

theorem newDerivSum_eq {pv : Half} {p : Pid} (h : p.dsum.toNat = derivSum p.dbuf) :
    newDerivSum pv p = derivSum (derivSet p.dbuf p.didx pv) := by
  unfold newDerivSum
  rw [h]
  unfold derivGet derivSet derivSum
  split_ifs <;> push_cast <;> ring

theorem derivSum_lt (b : DerivBuf) : derivSum b < 2 ^ 32 := by
  have h0 := b.s0.isLt
  have h1 := b.s1.isLt
  have h2 := b.s2.isLt
  have h3 := b.s3.isLt
  unfold derivSum; omega

/-- PID_SET_ICLAMP keeps the controller's invariants (41_pid.md R122). -/
theorem pidSetIclamp_inv {c : Config} (hc : c.wellFormed = true) {p : Pid} (h : PidInv p) (s : Half) :
    PidInv (pidSetIclamp c s p) := by
  have hr := iclampFn_range hc s
  have e1 : ((pidSetIclamp c s p).iclamp.toNat : Int) = c.iclampFn.apply s := toHalf_toNat hr.1 hr.2
  have e2 : (pidSetIclamp c s p).acc.toInt =
      clamp p.acc.toInt (-(c.iclampFn.apply s)) (c.iclampFn.apply s) :=
    toHalf_toInt (by unfold clamp; omega) (by unfold clamp; omega)
  refine ⟨by omega, ?_, ?_, h.dsum⟩
  · rw [e1, e2]; unfold clamp; omega
  · rw [e1, e2]; unfold clamp; omega

/-- PID_CLEAR keeps the controller's invariants (41_pid.md R123). -/
theorem pidClear_inv {p : Pid} (h : PidInv p) : PidInv (pidClear p) := by
  refine ⟨h.iclamp, ?_, ?_, rfl⟩
  · show -(p.iclamp.toNat : Int) ≤ 0; omega
  · show 0 ≤ (p.iclamp.toNat : Int); omega

/-- PID_UPDATE keeps the controller's invariants (41_pid.md R120, R121). -/
theorem pidUpdate_inv {p : Pid} (h : PidInv p) (c : Config) (sp pv : Half) : PidInv (pidUpdate c sp pv p) := by
  have hn := nextAcc_range (sp := sp) (pv := pv) h
  have hacc : (pidUpdate c sp pv p).acc.toInt = nextAcc sp pv p := toHalf_toInt (by omega) hn.2
  refine ⟨h.iclamp, ?_, ?_, ?_⟩
  · rw [hacc]; show -(p.iclamp.toNat : Int) ≤ _; unfold nextAcc clamp; omega
  · rw [hacc]; show _ ≤ (p.iclamp.toNat : Int); unfold nextAcc clamp; omega
  · show (BitVec.ofInt 32 (newDerivSum pv p)).toNat = derivSum (derivSet p.dbuf p.didx pv)
    rw [newDerivSum_eq h.dsum, BitVec.ofInt_natCast, BitVec.toNat_ofNat]
    exact Nat.mod_eq_of_lt (derivSum_lt _)

/-! ### The heater FSM -/

theorem heaterButtons_rr (o : CycleOperands) (a : Bool) (hs : HeaterBits) :
    (heaterButtons o a hs).rr = hasButton o.longHeld .heat := by
  unfold heaterButtons; simp only; split <;> split <;> rfl

theorem heaterButtons_cal (o : CycleOperands) (a : Bool) (hs : HeaterBits) : (heaterButtons o a hs).cal = hs.cal := by
  unfold heaterButtons; simp only; split <;> split <;> rfl

theorem heaterStep_hs (c : Config) (op : OpParams) (o : CycleOperands) (f a : Bool) (h : Heater) (p : Pid) :
    (heaterStep c op o f a h p).1.hs = { heaterButtons o a h.hs with spc := setpointChanged op h } := by
  unfold heaterStep; simp only; split <;> rfl

/-- The controller a cycle leaves (42_heater_fsm.md R144). -/
theorem heaterStep_pid (c : Config) (op : OpParams) (o : CycleOperands) (f a : Bool) (h : Heater) (p : Pid) :
    (heaterStep c op o f a h p).2 =
      if f || setpointChanged op h then
        eventPid c op o (heaterButtons o a h.hs).en (afterClear (hasButton o.longHeld .heat) (afterSetpoint c op h p))
      else p := by
  unfold heaterStep pidEvent
  simp only [heaterButtons_rr]
  by_cases hq : (f || setpointChanged op h) = true
  · simp only [hq, if_true]
  · simp only [hq, if_false, Bool.false_eq_true]
    simp at hq; simp [afterSetpoint, hq]

/-- The duty a cycle leaves (42_heater_fsm.md R144). -/
theorem heaterStep_duty (c : Config) (op : OpParams) (o : CycleOperands) (f a : Bool) (h : Heater) (p : Pid) :
    (heaterStep c op o f a h p).1.duty =
      if f || setpointChanged op h then
        eventDuty c op o (heaterButtons o a h.hs).en (afterClear (hasButton o.longHeld .heat) (afterSetpoint c op h p))
      else h.duty := by
  unfold heaterStep pidEvent; simp only [heaterButtons_rr]; split <;> rfl

/-! ### The roll FSM -/

/-- Manual mode writes no resume direction (43_roll_fsm.md R164 to R170). -/
theorem manualMode_resume (op : OpParams) (o : CycleOperands) (e x : Bool) (r : Roll) :
    (manualMode op o e x r).resume = r.resume := by
  have d : ∀ r, (directionButtons o r).resume = r.resume := by intro r; unfold directionButtons; split_ifs <;> rfl
  have c : ∀ r, (cycleButton op o e r).resume = r.resume := by
    intro r; unfold cycleButton cycleToggle; split_ifs <;> rfl
  have a : ∀ q r, (applyResume x q r).resume = r.resume := by intro q r; unfold applyResume; split_ifs <;> rfl
  have l : ∀ r, (cycleLogic op o r).resume = r.resume := by intro r; unfold cycleLogic; simp only; split_ifs <;> rfl
  unfold manualMode
  simp only
  split
  · rw [l, a, c, d]
  · rw [a, c, d]

/-- The resume on APO exit, as one write of the direction (43_roll_fsm.md R167). -/
theorem applyResume_quiet (x : Bool) (r : Roll) :
    applyResume x true r = { r with dir := if x = true ∧ r.resume ≠ .stop then r.resume else r.dir } := by
  have hb : (r.resume != .stop) = decide (r.resume ≠ .stop) := by cases r.resume <;> rfl
  unfold applyResume
  rw [hb]
  by_cases h : x = true ∧ r.resume ≠ .stop
  · simp [h]
  · rw [if_neg (by simpa using h), if_neg h]

end Sys2Proof.Machine
end

