-- ==== Sys2Proof/Laws/Encoding.lean ====
section
/-! SUPPORT. The operand forms of a command: what each field of an encoded byte reads back as (30_encoding.md rules R83 to R88;
20_memory.md rules R64 to R66). -/

namespace Sys2Proof.Machine

theorem halfOf_bytes (h : Half) : halfOf (loByte h) (hiByte h) = h := by
  apply BitVec.eq_of_getLsbD_eq
  intro i hi
  refine (BitVec.getLsbD_append (x := hiByte h) (y := loByte h)).trans ?_
  unfold hiByte loByte
  simp only [BitVec.getLsbD_extractLsb']
  by_cases h8 : i < 8
  · simp [h8]
  · simp [h8, show i - 8 < 8 by omega, show 8 + (i - 8) = i by omega]

theorem loByte_halfOf (a b : Byte) : loByte (halfOf a b) = a := by
  apply BitVec.eq_of_getLsbD_eq
  intro i hi
  unfold loByte
  rw [BitVec.getLsbD_extractLsb', show halfOf a b = b ++ a from rfl,
    BitVec.getLsbD_append (x := b) (y := a) (i := 0 + i)]
  simp [hi]

theorem hiByte_halfOf (a b : Byte) : hiByte (halfOf a b) = b := by
  apply BitVec.eq_of_getLsbD_eq
  intro i hi
  unfold hiByte
  rw [BitVec.getLsbD_extractLsb', show halfOf a b = b ++ a from rfl,
    BitVec.getLsbD_append (x := b) (y := a) (i := 8 + i)]
  simp [hi]

theorem lowFive_buttonByte (r : BitVec 3) (b : ButtonSet) : lowFive (buttonByte r b) = b := by revert r b; decide

theorem highThree_buttonByte (r : BitVec 3) (b : ButtonSet) : highThree (buttonByte r b) = r := by revert r b; decide

theorem buttonByte_parts : ∀ b : Byte, buttonByte (highThree b) (lowFive b) = b := by decide

/-- Byte 6 of a CYCLE holds its five status bits and the reserved ones. -/
theorem statusByte_bits (o : CycleOperands) :
    (statusByte o).getLsbD 0 = o.noSensor ∧ (statusByte o).getLsbD 1 = o.shorted ∧
    (statusByte o).getLsbD 2 = o.epValid ∧ (statusByte o).getLsbD 3 = o.atFwdEnd ∧
    (statusByte o).getLsbD 4 = o.atRevEnd ∧ highThree (statusByte o) = o.rsvStatus := by
  unfold statusByte highThree
  generalize o.rsvStatus = r
  generalize o.noSensor = a
  generalize o.shorted = b
  generalize o.epValid = c
  generalize o.atFwdEnd = d
  generalize o.atRevEnd = e
  revert r a b c d e
  decide

/-- The operands of a byte string of eleven bytes encode to those bytes. -/
theorem cycleBytes_operands (b0 b1 b2 b3 b4 b5 b6 b7 b8 b9 b10 : Byte) :
    cycleBytes (cycleOperandsOf b0 b1 b2 b3 b4 b5 b6 b7 b8 b9 b10) = [b0, b1, b2, b3, b4, b5, b6, b7, b8, b9, b10] := by
  have parts : ∀ b : BitVec 8,
      (highThree b ++ BitVec.ofBool (b.getLsbD 4) ++ BitVec.ofBool (b.getLsbD 3) ++ BitVec.ofBool (b.getLsbD 2)
        ++ BitVec.ofBool (b.getLsbD 1) ++ BitVec.ofBool (b.getLsbD 0) : BitVec 8) = b := by decide
  have h6 : statusByte (cycleOperandsOf b0 b1 b2 b3 b4 b5 b6 b7 b8 b9 b10) = b6 := parts b6
  unfold cycleBytes
  rw [h6]
  show [buttonByte (highThree b0) (lowFive b0), buttonByte (highThree b1) (lowFive b1),
    buttonByte (highThree b2) (lowFive b2), buttonByte (highThree b3) (lowFive b3), loByte (halfOf b4 b5),
    hiByte (halfOf b4 b5), b6, loByte (halfOf b7 b8), hiByte (halfOf b7 b8), loByte (halfOf b9 b10),
    hiByte (halfOf b9 b10)] = _
  simp only [buttonByte_parts, loByte_halfOf, hiByte_halfOf]

/-- `de_op` undoes `ser_op` (20_memory.md R64). -/
theorem deOp_serOp (p : OpParams) : deOp (serOp p) = p := by simp [deOp, serOp, halfOf_bytes]

/-- `de_cal` undoes `ser_cal` (20_memory.md R65). -/
theorem deCal_serCal (p : CalParams) : deCal (serCal p) = p := by simp [deCal, serCal, halfOf_bytes]

end Sys2Proof.Machine

namespace Sys2Proof

theorem lookupOpcode_opcodeOf (m : Mnemonic) : lookupOpcode (opcodeOf m) = some m := by cases m <;> rfl

theorem opcodeOf_lookupOpcode {op : Byte} {m : Mnemonic} (h : lookupOpcode op = some m) : opcodeOf m = op := by
  simpa using List.find?_some h

theorem commandOf_mnemonic (m : Mnemonic) (bs : List Byte) : (commandOf m bs).mnemonic = m := by cases m <;> rfl

end Sys2Proof
end

