-- ==== Sys2Proof/Laws/PerInstr.lean ====
section
/-! SUPPORT. The statements made per command, as syntax. -/

namespace Sys2Proof.Laws.EncodingLength

/-- A command's encoding is its opcode and as many operand bytes as its format takes, whatever its operands
(30_encoding.md R81, R91). -/
def Statement (i : Instr) : Prop := (encode i).length = 1 + operandLength (formatOf i.mnemonic)

theorem tick : Statement .tick := rfl
theorem cycle (o : CycleOperands) : Statement (.cycle o) := rfl
theorem psLoad : Statement .psLoad := rfl
theorem psSaveOp : Statement .psSaveOp := rfl
theorem psSaveCal : Statement .psSaveCal := rfl
theorem psWriteOp (p : OpParams) : Statement (.psWriteOp p) := rfl
theorem psWriteCal (p : CalParams) : Statement (.psWriteCal p) := rfl
theorem setCalMode (v : Bool) (rsv : BitVec 7) : Statement (.setCalMode v rsv) := rfl
theorem powerLoss : Statement .powerLoss := rfl

end Sys2Proof.Laws.EncodingLength
end

