-- ==== Sys2Proof/Tests/Slice0.lean ====
section
/-! SUPPORT. The model's own tests, with expected results from 95_test_vectors.md or worked out from the rules, and for every
statement with hypotheses a witness: concrete states and operands that meet them all, one per clause, at the boundaries. -/

namespace Sys2Proof.Tests

open Sys2Proof Sys2Proof.Machine
set_option Elab.async false

/-! ### Helpers -/

/-- The image NV_GOOD (95_test_vectors.md section 1.2). -/
def nvGood : Memory :=
  [(0, 0xB4), (1, 0x00), (2, 0x03), (3, 0x01), (4, 0x1E), (5, 0xF2), (6, 0x19), (7, 0x00), (8, 0x2C), (9, 0x01),
   (10, 0xC8), (11, 0x00), (12, 0xBC), (13, 0x02), (14, 0xED), (15, 0x00)]

/-- Right after power-on with NV_GOOD. -/
def bare : State := State.powerOn Config.exampleE nvGood

/-- The records of NV_GOOD loaded (95_test_vectors.md section 1.2). -/
def ld : State :=
  { bare with
    store :=
      { op := { setpoint := 180, rollCycles := 3, soundEn := 1, apoTimeout := 30 }
        cal := { c1 := 25, r1 := 300, c2 := 200, r2 := 700 }, loaded := true, defaultsUsed := {} } }

/-- Loaded and ready for a CYCLE. -/
def rdy : State := { ld with tick := { ld.tick with ready := true } }

/-- Both active records differ from what NV_GOOD stores, as after PS-5's and PS-9's writes (95_test_vectors.md section 3.7). -/
def edited : State :=
  { ld with
    store :=
      { ld.store with
        op := { ld.store.op with setpoint := 200 }, cal := { c1 := 20, r1 := 200, c2 := 250, r2 := 900 } } }

/-- Right after power-on with an NV store of bytes 0xFF. -/
def erased : State := State.powerOn Config.exampleE ((List.range 16).map fun a => (a, 0xFF))

/-- Halted by POWER_LOSS. -/
def off : State := { ld with sys := { fault := {}, halted := true, inert := true } }

/-- A set of buttons. -/
def B (ks : List Button) : ButtonSet := buttonSet ks

/-- The environment in which the host agent has these bytes and these turns follow. -/
def feed (s : State) (bs : List Byte) (ts : List Turn) : State := { s with env := { hostIn := bs, schedule := ts } }

/-- The host agent's turn. -/
def go : Turn := .command .host

/-- Whether an outcome is a next state that passes a test. -/
def nextAnd (o : Host.Outcome State Fault Refusal) (p : State → Bool) : Bool :=
  match o with
  | .next t => p t
  | .fault _ => false
  | .refused _ => false

/-- An outcome that is a next state with a property, from the test that says so. -/
theorem next_of {o : Host.Outcome State Fault Refusal} {p : State → Bool} (h : nextAnd o p = true) :
    ∃ t, o = .next t ∧ p t = true := by
  cases o with
  | next t => exact ⟨t, rfl, h⟩
  | fault e => cases h
  | refused r => cases h

/-- The roll FSM's start states of 95_test_vectors.md section 3.6. -/
def rollAt (r : Roll) (apo : Bool) : State :=
  { rdy with
    roll := r
    store := { rdy.store with op := { rdy.store.op with apoTimeout := if apo then 1 else 0 } }
    sched := { rdy.sched with apoCnt := if apo then 1 else 0 } }

/-- The roll FSM of a stopped motor, to start from. -/
def still : Roll := bare.roll

/-- The heater FSM's start states of 95_test_vectors.md section 3.5: `ev` says whether the PID event fires, `sp` is the
setpoint and `last` the one the last cycle saw. -/
def heatAt (hs : HeaterBits) (duty : BitVec 7) (ev : Bool) (acc sp last : Half) : State :=
  { rdy with
    heater := { hs := hs, duty := duty, lastSpValid := true, lastSp := last }
    pid := { rdy.pid with acc := acc }
    sched := { rdy.sched with cntPid := if ev then 1 else 2 }
    store := { rdy.store with op := { rdy.store.op with setpoint := sp } } }

/-- Each of the cycle's checks passes. -/
theorem rollAt_runs (r : Roll) (a : Bool) {o : CycleOperands} (h : o.reservedClear = true) : CycleRuns o (rollAt r a) :=
  ⟨rfl, h, rfl, rfl⟩

theorem heatAt_runs (hs : HeaterBits) (d : BitVec 7) (e : Bool) (a sp l : Half) {o : CycleOperands}
    (h : o.reservedClear = true) : CycleRuns o (heatAt hs d e a sp l) :=
  ⟨rfl, h, rfl, rfl⟩

/-- An operand bundle with the section's `sp = 400`, `pv = 380`. -/
def heatOps : CycleOperands := { spInt := 400, pv := 380 }

/-! ### Well-formedness -/

/-- One reserved bit of each operand byte that has some (30_encoding.md R83, R87). -/
theorem test_wellFormed_refuses_reserved_bits :
    (Instr.cycle { rsvPressed := 1 }).wellFormed = false ∧ (Instr.cycle { rsvRelShort := 1 }).wellFormed = false ∧
    (Instr.cycle { rsvLongHeld := 4 }).wellFormed = false ∧ (Instr.cycle { rsvRaw := 4 }).wellFormed = false ∧
    (Instr.cycle { rsvStatus := 4 }).wellFormed = false ∧ (Instr.setCalMode true 1).wellFormed = false ∧
    (Instr.cycle {}).wellFormed = true ∧ (Instr.setCalMode true 0).wellFormed = true := by decide

/-- One configuration per check of 00_scope.md R10 that fails it; E fails none, nor does an entry that no setpoint reaches. -/
theorem test_checks_refuse_configurations :
    Config.exampleE.failedCheck = none ∧
    { Config.exampleE with pMin := 0 }.failedCheck = some .wfPeriods ∧
    { Config.exampleE with coarseTicks := 65536 }.failedCheck = some .wfPeriods ∧
    { Config.exampleE with scalingFactor := 0 }.failedCheck = some .wfScale ∧
    { Config.exampleE with minSetTemp := 251 }.failedCheck = some .wfSetpoint ∧
    { Config.exampleE with apoCntMax := 119 }.failedCheck = some .wfApo ∧
    { Config.exampleE with iclampFn := { table := [(5, -1)] } }.failedCheck = some .wfIclamp ∧
    { Config.exampleE with iclampFn := { table := [(5, 100), (5, -1)] } }.failedCheck = none ∧
    { Config.exampleE with iclampFn := { deflt := 32768, table := [(5, 100)] } }.failedCheck = some .wfIclamp ∧
    { Config.exampleE with pidILimit := 32768 }.failedCheck = some .wfIclamp ∧
    { Config.exampleE with apoRollHyst := 32708 }.failedCheck = some .wfHyst ∧
    { Config.exampleE with nvSize := 14 }.failedCheck = some .wfNv ∧
    { Config.exampleE with defOp := [] }.failedCheck = some .wfDefaults ∧
    { Config.exampleE with ki := 65539 }.failedCheck = some .wfInt32 ∧
    { Config.exampleE with pidKiDiv := 0 }.failedCheck = some .wfInt32 ∧
    { Config.exampleE with pidKiDiv := -20 }.failedCheck = none := by decide +kernel

/-! ### Decoding (95_test_vectors.md section 3.1) -/

/-- ENC-5, ENC-6 and ENC-4: a status bit, a button bit and the sign of the temperature, at their places in R83. -/
theorem test_decode_cycle_fields :
    decode [0x02, 0x00, 0x04, 0x00, 0x00, 0x19, 0x00, 0x04, 0x00, 0x00, 0x00, 0x00] =
      .command (.cycle { relShort := B [.cyc], epValid := true, tempC := 25 }) [] ∧
    decode [0x02, 0x00, 0x00, 0x10, 0x00, 0x00, 0x00, 0x1F, 0x00, 0x00, 0x00, 0x00] =
      .command (.cycle { longHeld := B [.heat], noSensor := true, shorted := true, epValid := true, atFwdEnd := true,
                         atRevEnd := true }) [] ∧
    decode [0x02, 0x00, 0x00, 0x00, 0x00, 0xFB, 0xFF, 0x00, 0x00, 0x00, 0x00, 0x00] =
      .command (.cycle { tempC := BitVec.ofInt 16 (-5) }) [] := by decide +kernel

/-- ENC-15 to ENC-17, ENC-22: illegal opcodes are one byte long, and a stream may end inside a command. -/
theorem test_decode_rejects_by_name :
    decode [0x00] = .illegalOpcode 0x00 [] ∧ decode [0xFF] = .illegalOpcode 0xFF [] ∧
    decode [0x03, 0x01] = .illegalOpcode 0x03 [0x01] ∧ decode [0x13, 0xC8, 0x00] = .incomplete ∧ decode [] = .empty := by
  decide +kernel

/-- Each row's word of the opcode table, with operand bits zero, is its command. -/
theorem test_table_words :
    decodeTableWord 8 0x01 = some .tick ∧ decodeTableWord 96 0x02 = some (.cycle {}) ∧
    decodeTableWord 8 0x10 = some .psLoad ∧ decodeTableWord 8 0x11 = some .psSaveOp ∧
    decodeTableWord 8 0x12 = some .psSaveCal ∧ decodeTableWord 48 0xC813 = some (.psWriteOp ⟨200, 0, 0, 0⟩) ∧
    decodeTableWord 72 0x1414 = some (.psWriteCal ⟨20, 0, 0, 0⟩) ∧
    decodeTableWord 16 0x0120 = some (.setCalMode true 0) ∧ decodeTableWord 8 0x30 = some .powerLoss ∧
    decodeTableWord 8 0x03 = none := by decide +kernel

/-- A placed word is the next step's command: TICK counts (TICK's first row of 95_test_vectors.md section 3.2, with 20 for
3), and a placed CYCLE does not wait. -/
theorem test_placed_word_runs :
    nextAnd (step (State.reset.withFetchWord 8 0x01)) (fun t => decide (t.tick = { tickCnt := 19, ready := false })) = true ∧
    nextAnd (step (rdy.withFetchWord 96 0x02)) (fun t => decide (t.tick.ready = false)) = true ∧
    nextAnd (step (ld.withFetchWord 96 0x02)) (fun t => decide (t.tick.ready = false)) = true := by decide +kernel

/-- ENC-2 as text, and a line of section 3.3 (30_encoding.md R92, R93). -/
theorem test_command_text :
    bytesOfText Config.exampleE ["CYCLE pressed=" ++ bracketed "fwd" ++ ", raw=" ++ bracketed "fwd" ++
      ", temp=25, sp=400, pv=380"] =
      some [0x02, 0x01, 0x00, 0x00, 0x01, 0x19, 0x00, 0x00, 0x90, 0x01, 0x7C, 0x01] ∧
    bytesOfText Config.exampleE ["BOOT", "TICKS 2", "REPEAT 2: PS_WRITE_OP setpoint=-5, cycles=0, sound=0, timeout=0",
        "DB 03 ff"] =
      some ([0x10, 0x01, 0x01] ++ [0x13, 0xFB, 0xFF, 0x00, 0x00, 0x00] ++ [0x13, 0xFB, 0xFF, 0x00, 0x00, 0x00] ++
        [0x03, 0xFF]) := by decide +kernel

/-- A text that names a foreign operand, misses a required one, or leaves a field's range is no command (R92). -/
theorem test_command_text_refused :
    lineOfText "TICK v=1" = none ∧ lineOfText "PS_WRITE_OP setpoint=1, cycles=0, sound=0" = none ∧
    lineOfText "SET_CAL_MODE v=2" = none ∧ lineOfText "PS_WRITE_OP setpoint=32768, cycles=0, sound=0, timeout=0" = none := by
  decide +kernel

/-! ### Operations -/

/-- PID-E5 and PID-E6: truncation toward zero and the derivative (95_test_vectors.md section 3.4). -/
theorem test_pid_vectors :
    let p : Pid := { acc := 80, iclamp := 1000, dbuf := ⟨380, 380, 380, 380⟩, dsum := 1520, didx := 0 }
    pidDuty Config.exampleE 400 382 p = 17 ∧
    pidUpdate Config.exampleE 400 382 p = { acc := 98, iclamp := 1000, dbuf := ⟨382, 380, 380, 380⟩, dsum := 1522, didx := 1 } ∧
    pidDuty Config.exampleE 400 380 (pidUpdate Config.exampleE 400 382 p) = 21 := by decide +kernel

/-- The rules R120 and R29 by hand for parameters other than the source's: a negative divisor and threshold, and the largest
values the registers hold. -/
theorem test_int_parameters :
    iTerm { Config.exampleE with pidKiDiv := -20 } 30 = -3 ∧
    pTerm { Config.exampleE with pidErrThresh := -5, pidPLimit := 7 } 0 = 7 ∧
    pTerm { Config.exampleE with pidErrThresh := -5, pidPLimit := 7 } (-5) = -7 ∧
    dutyOf 0 = 0 ∧ dutyOf 127 = 127 ∧ resetIclamp 0 = 0 ∧ resetIclamp 32767 = 32767 := by decide +kernel

/-- PID-Z6: a clamp function that is not constant (95_test_vectors.md section 3.4). -/
theorem test_pid_iclamp :
    let p : Pid := { bare.pid with acc := 1000 }
    pidSetIclamp { Config.exampleE with iclampFn := { table := [(180, 180)] } } 180 p =
      { p with iclamp := 180, acc := 180 } := by decide +kernel

/-- PS-3: the default load of an erased store writes every byte once, in ascending order (95_test_vectors.md section 3.7). -/
theorem test_load_defaults :
    nextAnd (exec .psLoad erased)
      (fun t => decide (t.store.defaultsUsed = { op := true, cal := true } ∧
        t.nv.history = [(0, 0x96), (1, 0x00), (2, 0x01), (3, 0x01), (4, 0x0F), (5, 0x05), (6, 0x14), (7, 0x00), (8, 0xC8),
          (9, 0x00), (10, 0xFA), (11, 0x00), (12, 0x84), (13, 0x03), (14, 0xE3)])) = true := by decide +kernel

/-- PS-1: NV_GOOD loads without defaults. -/
theorem test_load_good : nextAnd (exec .psLoad bare) (fun t => decide (t.store = ld.store ∧ t.nv = bare.nv)) = true := by
  decide +kernel

/-- PS-9's save: the bytes that differ, the CRC byte last (95_test_vectors.md section 3.7). -/
theorem test_save_op :
    nextAnd (exec .psSaveOp edited)
      (fun t => decide (t.nv.history = [(0, 0xC8), (5, 0xBE)])) = true := by decide +kernel

/-- PS-5's save (95_test_vectors.md section 3.7). -/
theorem test_save_cal :
    nextAnd (exec .psSaveCal edited)
      (fun t => decide (t.nv.history =
        [(6, 0x14), (8, 0xC8), (9, 0x00), (10, 0xFA), (12, 0x84), (13, 0x03), (14, 0xE3)])) = true := by decide +kernel

/-- PS-12: no range check (95_test_vectors.md section 3.7). -/
theorem test_write_op :
    nextAnd (exec (.psWriteOp ⟨BitVec.ofInt 16 (-5), 0, 0, 0⟩) ld) (fun t => decide (t.store.op.setpoint.toInt = -5)) = true := by
  decide +kernel

/-- PS-5's write (95_test_vectors.md section 3.7). -/
theorem test_write_cal :
    nextAnd (exec (.psWriteCal ⟨20, 200, 250, 900⟩) ld) (fun t => decide (t.store.cal = ⟨20, 200, 250, 900⟩)) = true := by
  decide +kernel

/-- SYS-6 and SYS-8 (95_test_vectors.md section 3.8). -/
theorem test_set_cal_mode :
    nextAnd (exec (.setCalMode true 0) bare) (fun t => decide (t.heater.hs = { cal := true })) = true ∧
    nextAnd (exec (.setCalMode true 1) bare) (fun t => decide (t.heater.hs = {} ∧ t.sys.fault = { badOperand := true })) = true := by
  decide +kernel

/-- SYS-10 (95_test_vectors.md section 3.8). -/
theorem test_power_loss :
    nextAnd (exec .powerLoss edited)
      (fun t => decide (t.nv.history = [(0, 0xC8), (5, 0xBE)] ∧ t.sys.halted = true ∧ t.sys.inert = true)) = true := by
  decide +kernel

/-- TICK-9: the reload (95_test_vectors.md section 3.2). -/
theorem test_tick_reload :
    nextAnd (exec .tick { bare with tick := { tickCnt := 1, ready := false } })
      (fun t => decide (t.tick = { tickCnt := 20, ready := true })) = true := by decide +kernel

/-- ROLL-25: the last cycle completes (95_test_vectors.md section 3.6). -/
theorem test_cycle_completes :
    nextAnd (exec (.cycle { epValid := true, atRevEnd := true })
        (rollAt { still with dir := .rev, cyc := true, cyclesDone := 2 } false))
      (fun t => decide (t.roll =
        { still with cyclesDone := 3, ccomp := true, dchg := true, fbev := { cycleComplete := true } })) = true := by
  decide +kernel

/-- ROLL-33: a resumed direction is reversed in the same cycle at the forward end (95_test_vectors.md section 3.6). -/
theorem test_resume_then_reverse :
    nextAnd (exec (.cycle { epValid := true, atFwdEnd := true })
        (rollAt { still with cyc := true, resume := .fwd, prevApo := true } false))
      (fun t => decide (t.roll = { still with dir := .rev, cyc := true, dchg := true, fbev := { dirAuto := true } })) = true := by
  decide +kernel

/-- The derivative index wraps at PID_DEPTH (41_pid.md R121). -/
theorem test_didx_wraps :
    nextDidx Config.exampleE 3 = 0 ∧ nextDidx { Config.exampleE with pidDepth := 2 } 1 = 0 ∧
    nextDidx { Config.exampleE with pidDepth := 5 } 2 = 3 := by decide

/-- HT-14: a regulated PID event, at one degree below the largest setpoint (95_test_vectors.md section 3.5). -/
theorem test_cycle_regulates :
    nextAnd (exec (.cycle heatOps) (heatAt { en := true } 40 true 77 249 249))
      (fun t => decide (t.heater.duty = 0 ∧ t.pid.acc = 97 ∧ t.pid.dsum = 380 ∧ t.pid.didx = 1)) = true := by
  decide +kernel

/-- Single flags at their bits of 10_state.md R26, R34, R45, R51 and R52. -/
theorem test_port_bits :
    SchedFlags.bits { apoSoon := true } = 0x20 ∧ HeaterBits.bits { cal := true } = 0x8 ∧
    FeedbackEvents.bits { cycleStartFail := true } = 0x20 ∧ DefaultsUsed.bits { cal := true } = 0x2 ∧
    FaultBits.bits { notLoaded := true } = 0x4 := by decide

/-- The sensor inputs of a cycle on their ports (60_exceptions.md R234). -/
theorem test_sensor_ports :
    nextAnd (exec (.cycle { shorted := true }) rdy)
      (fun t => decide (sensorPort t = { shorted := true } ∧ sensorErrorPort t = true)) = true := by decide +kernel

/-- PS-10: a save cut by reset after its first write leaves a block that fails its check (95_test_vectors.md section 3.7). -/
theorem test_torn_save :
    nextAnd (step (feed edited [0x11] [.commandCut .host 1]))
      (fun t => decide (t.nv.history = [(0, 0xC8)] ∧ blockValid 0x8C t.nv.bytes 0 5 = false ∧ t.store.loaded = false)) = true := by
  decide +kernel

/-! ### Witnesses: encoding -/

theorem witness_EncodeOfDecode :
    decode [0x20, 0x81, 0x01] = .command (.setCalMode true 0x40) [0x01] ∧ decode [0x01] = .command .tick [] := by
  decide +kernel

theorem witness_UnlistedOpcodeRaisesIllegalCmd :
    (0x00 : Byte) ∉ ([0x01, 0x02, 0x10, 0x11, 0x12, 0x13, 0x14, 0x20, 0x30] : List Byte) ∧
    (0xFF : Byte) ∉ ([0x01, 0x02, 0x10, 0x11, 0x12, 0x13, 0x14, 0x20, 0x30] : List Byte) ∧
    bare.cfg.wellFormed = true ∧ bare.sys.halted = false ∧
    (feed bare [0xFF, 0x01] [go]).env.schedule = .command .host :: [] ∧
    pendingBytes .host (feed bare [0xFF, 0x01] [go]).env = 0xFF :: [0x01] := by decide +kernel

/-- Cut after the opcode and before the last operand byte. -/
theorem witness_IncompleteCommandIsRefused :
    1 < (encode (.setCalMode true 0)).length ∧ 11 < (encode (.cycle {})).length ∧
    pendingBytes .host (feed bare [0x20] [go]).env = (encode (.setCalMode true 0)).take 1 ∧
    (feed bare [0x20] [go]).env.schedule = .command .host :: [] ∧ bare.cfg.wellFormed = true ∧
    bare.sys.halted = false := by decide +kernel

theorem witness_RecordImagesAreBijections :
    ([0xB4, 0x00, 0x03, 0x01, 0x1E] : List Byte).length = 5 ∧
    ([0x19, 0x00, 0x2C, 0x01, 0xC8, 0x00, 0xBC, 0x02] : List Byte).length = 8 := by decide

/-! ### Witnesses: the tick divider and the scheduler -/

/-- Running and halted; a counter at either end of its range. -/
theorem witness_TickDividesToReady :
    bare.sys.halted = false ∧ off.sys.halted = true ∧ bare.cfg.wellFormed = true ∧
    counterInRange bare.tick.tickCnt bare.cfg.coarseTicks ∧
    (∃ t, exec .tick bare = .next t ∧ decide (t.tick.tickCnt = 19) = true) ∧
    counterInRange (1 : Half) bare.cfg.coarseTicks ∧
    (∃ t, exec .tick { bare with tick := { tickCnt := 1, ready := false } } = .next t ∧
      decide (t.tick.tickCnt = 20) = true) :=
  ⟨rfl, rfl, by decide +kernel, by unfold counterInRange; decide +kernel, next_of (by decide +kernel),
    by unfold counterInRange; decide +kernel, next_of (by decide +kernel)⟩

theorem witness_PeriodRaisesReadyAtItsLastTick :
    bare.cfg.wellFormed = true ∧ bare.sys.halted = false ∧ bare.tick.ready = false ∧
    bare.tick.tickCnt = BitVec.ofNat 16 bare.cfg.coarseTicks ∧ 0 ≤ bare.cfg.coarseTicks ∧ 20 ≤ bare.cfg.coarseTicks := by
  decide +kernel

theorem witness_ReadyIsTheTickToCycleHandoff :
    (∃ t, exec .tick { bare with tick := { tickCnt := 1, ready := false } } = .next t ∧
      decide (t.tick.ready ≠ false) = true) ∧
    (∃ t, exec (.cycle {}) rdy = .next t ∧ decide (t.tick.ready ≠ rdy.tick.ready) = true) :=
  ⟨next_of (by decide +kernel), next_of (by decide +kernel)⟩

/-- A cycle in which every counter fires, and one in which none of the nested ones counts. -/
theorem witness_CycleStepsTheCounters :
    CycleRuns {} rdy ∧
    CycleRuns {} { rdy with sched := { rdy.sched with cntCel := 1, cntPid := 1, cntLog := 1, cntTen := 1, cntMin := 1 } } ∧
    CycleRuns {} { rdy with sched := { rdy.sched with cntCel := 2, cntTen := 2 } } :=
  ⟨⟨rfl, rfl, rfl, rfl⟩, ⟨rfl, rfl, rfl, rfl⟩, ⟨rfl, rfl, rfl, rfl⟩⟩

/-- APO-6, APO-7 and APO-17: the last minute counted, the saturated counter, and a press in the minute's cycle. -/
theorem witness_CycleCountsApoMinutes :
    CycleRuns {} { rdy with sched := { rdy.sched with apoCnt := 254, cntTen := 1, cntMin := 1 } } ∧
    CycleRuns {} { rdy with sched := { rdy.sched with apoCnt := 255, cntTen := 1, cntMin := 1 } } ∧
    CycleRuns { pressed := B [.menu] } { rdy with sched := { rdy.sched with apoCnt := 5, cntTen := 1, cntMin := 1 } } :=
  ⟨⟨rfl, rfl, rfl, rfl⟩, ⟨rfl, rfl, rfl, rfl⟩, ⟨rfl, rfl, rfl, rfl⟩⟩

theorem witness_SchedulerFiresByItsPeriods :
    Config.exampleE.wellFormed = true ∧ (schedAfter Config.exampleE 2 2).sflags.pid = true ∧
    (schedAfter Config.exampleE 2 12).sflags.min = true := by decide +kernel

/-! ### Witnesses: the heater and the controller -/

theorem witness_CycleTogglesThenOverridesHeater :
    CycleRuns { heatOps with relShort := B [.heat] } (heatAt {} 0 true 0 180 180) ∧
    CycleRuns { heatOps with noSensor := true } (heatAt { en := true } 40 true 0 180 180) :=
  ⟨heatAt_runs _ _ _ _ _ _ rfl, heatAt_runs _ _ _ _ _ _ rfl⟩

/-- A setpoint changed, one unchanged, and the first cycle after reset. -/
theorem witness_CycleDetectsSetpointChange :
    CycleRuns heatOps (heatAt {} 0 false 0 200 180) ∧ CycleRuns heatOps (heatAt {} 0 false 0 180 180) ∧
    CycleRuns heatOps rdy :=
  ⟨heatAt_runs _ _ _ _ _ _ rfl, heatAt_runs _ _ _ _ _ _ rfl, ⟨rfl, rfl, rfl, rfl⟩⟩

/-- HT-14 at 249, one below the largest setpoint, and HT-11: an event by the schedule and one by a setpoint change. -/
theorem witness_RegulatedCycleComputesPid :
    PidInv (heatAt { en := true } 40 true 77 249 249).pid ∧ CycleRuns heatOps (heatAt { en := true } 40 true 77 249 249) ∧
    Config.exampleE.wellFormed = true ∧
    (∃ t, exec (.cycle heatOps) (heatAt { en := true } 40 true 77 249 249) = .next t ∧
      decide (t.heater.hs.en = true ∧ t.sched.sflags.pid = true ∧ (249 : Half).toInt < t.cfg.maxSetTemp.toInt) = true) ∧
    (∃ t, exec (.cycle heatOps) (heatAt { en := true } 40 false 0 200 180) = .next t ∧
      decide (t.heater.hs.en = true ∧ t.heater.hs.spc = true) = true) :=
  ⟨⟨by decide +kernel, by decide +kernel, by decide +kernel, by decide +kernel⟩, heatAt_runs _ _ _ _ _ _ rfl,
    by decide +kernel, next_of (by decide +kernel), next_of (by decide +kernel)⟩

/-- HT-13 at 250, the largest setpoint, HT-15 with a reset request, and a setpoint change. -/
theorem witness_UnregulatedHeaterGetsFullDuty :
    CycleRuns heatOps (heatAt { en := true } 40 true 0 250 250) ∧
    (∃ t, exec (.cycle heatOps) (heatAt { en := true } 40 true 0 250 250) = .next t ∧
      decide (t.heater.hs.en = true ∧ t.sched.sflags.pid = true ∧ t.heater.hs.rr = false ∧ t.heater.hs.spc = false ∧
        t.cfg.maxSetTemp.toInt ≤ (250 : Half).toInt) = true) ∧
    (∃ t, exec (.cycle { heatOps with longHeld := B [.heat] }) (heatAt { en := true } 0 true 300 300 300) = .next t ∧
      decide (t.heater.hs.en = true ∧ t.sched.sflags.pid = true ∧ t.heater.hs.rr = true) = true) ∧
    (∃ t, exec (.cycle heatOps) (heatAt { en := true } 0 false 300 300 180) = .next t ∧
      decide (t.heater.hs.en = true ∧ t.heater.hs.spc = true ∧ t.heater.hs.rr = false) = true) :=
  ⟨heatAt_runs _ _ _ _ _ _ rfl, next_of (by decide +kernel), next_of (by decide +kernel), next_of (by decide +kernel)⟩

/-- HT-3, HT-8 and HT-12. -/
theorem witness_DisabledHeaterGetsZeroAtPidEvent :
    CycleRuns { heatOps with relShort := B [.heat] } (heatAt { en := true } 40 true 0 180 180) ∧
    (∃ t, exec (.cycle { heatOps with relShort := B [.heat] }) (heatAt { en := true } 40 true 0 180 180) = .next t ∧
      decide (t.heater.hs.en = false ∧ t.sched.sflags.pid = true ∧ t.heater.hs.rr = false ∧ t.heater.hs.spc = false) = true) ∧
    (∃ t, exec (.cycle { heatOps with longHeld := B [.heat] }) (heatAt {} 0 true 500 180 180) = .next t ∧
      decide (t.heater.hs.en = false ∧ t.sched.sflags.pid = true ∧ t.heater.hs.rr = true) = true) ∧
    (∃ t, exec (.cycle heatOps) (heatAt {} 0 false 0 200 180) = .next t ∧
      decide (t.heater.hs.en = false ∧ t.heater.hs.rr = false ∧ t.heater.hs.spc = true) = true) :=
  ⟨heatAt_runs _ _ _ _ _ _ rfl, next_of (by decide +kernel), next_of (by decide +kernel), next_of (by decide +kernel)⟩

/-- HT-5. -/
theorem witness_DutyHoldsBetweenPidEvents :
    CycleRuns { heatOps with shorted := true } (heatAt { en := true } 40 false 0 180 180) ∧
    (∃ t, exec (.cycle { heatOps with shorted := true }) (heatAt { en := true } 40 false 0 180 180) = .next t ∧
      decide (t.sched.sflags.pid = false ∧ t.heater.hs.spc = false) = true) :=
  ⟨heatAt_runs _ _ _ _ _ _ rfl, next_of (by decide +kernel)⟩

theorem witness_DutyChangesOnlyAtPidEventsAndPowerLoss :
    (∃ t, exec (.cycle heatOps) (heatAt { en := true } 40 true 0 250 250) = .next t ∧
      decide (t.heater.duty ≠ 40) = true) ∧
    (∃ t, exec .powerLoss (heatAt { en := true } 40 true 0 250 250) = .next t ∧ decide (t.heater.duty ≠ 40) = true) :=
  ⟨next_of (by decide +kernel), next_of (by decide +kernel)⟩

theorem witness_SetIclampPullsAccumulatorIn :
    { Config.exampleE with iclampFn := { table := [(180, 180)] } }.wellFormed = true := by decide +kernel

theorem witness_PidArithmeticFitsInt32 :
    Config.exampleE.wellFormed = true ∧ 0 ≤ Config.exampleE.pidPLimit ∧ 0 ≤ Config.exampleE.pidKiDiv ∧
    PidInv { acc := BitVec.ofInt 16 (-1000), iclamp := 1000, dbuf := ⟨65535, 0, 0, 0⟩, dsum := 65535, didx := 0 } ∧
    pidErr 0 65535 ∈ [pidErr 0 65535] :=
  ⟨by decide +kernel, by decide, by decide, ⟨by decide +kernel, by decide +kernel, by decide +kernel, by decide +kernel⟩, by simp⟩

/-! ### Witnesses: the roll FSM -/

/-- ROLL-1 and ROLL-2: either half of the condition. -/
theorem witness_InterlockStopsMotor :
    CycleRuns { raw := B [.fwd, .rev] } (rollAt { still with dir := .rev, cyc := true } false) ∧
    (hasButton (B [.fwd, .rev]) .fwd = true ∧ hasButton (B [.fwd, .rev]) .rev = true) ∧
    CycleRuns { pressed := B [.fwd, .rev] } (rollAt { still with dir := .fwd } false) :=
  ⟨rollAt_runs _ _ rfl, by decide, rollAt_runs _ _ rfl⟩

/-- ROLL-5, ROLL-4, ROLL-9, ROLL-11 and ROLL-7: 65 and 66, 60 and 61 degrees, and a sensor error. -/
theorem witness_ApoOverrideDecidesDirection :
    CycleRuns { tempC := 65 } (rollAt still true) ∧
    ¬ (hasButton ({ tempC := 65 } : CycleOperands).raw .fwd = true ∧ hasButton ({ tempC := 65 } : CycleOperands).raw .rev = true) ∧
    ¬ (hasButton ({ tempC := 65 } : CycleOperands).pressed .fwd = true ∧
      hasButton ({ tempC := 65 } : CycleOperands).pressed .rev = true) ∧
    (∃ t, exec (.cycle { tempC := 65 }) (rollAt still true) = .next t ∧ decide (apoActivePort t = true ∧ t.roll.dir = .stop) = true) ∧
    (∃ t, exec (.cycle { tempC := 66 }) (rollAt { still with resume := .fwd } true) = .next t ∧
      decide (apoActivePort t = true ∧ t.roll.dir = .fwd ∧ t.roll.resume = .stop) = true) ∧
    (∃ t, exec (.cycle { tempC := 60 }) (rollAt { still with dir := .rev } true) = .next t ∧
      decide (apoActivePort t = true ∧ t.roll.dir = .stop ∧ t.roll.resume = .fwd) = true) ∧
    (∃ t, exec (.cycle { tempC := 61 }) (rollAt { still with dir := .fwd } true) = .next t ∧
      decide (apoActivePort t = true ∧ t.roll.dir = .fwd) = true) ∧
    (∃ t, exec (.cycle { tempC := 20, noSensor := true }) (rollAt { still with dir := .fwd } true) = .next t ∧
      decide (apoActivePort t = true ∧ t.roll.dir = .fwd) = true) :=
  ⟨rollAt_runs _ _ rfl, by decide, by decide, next_of (by decide +kernel), next_of (by decide +kernel),
    next_of (by decide +kernel), next_of (by decide +kernel), next_of (by decide +kernel)⟩

/-- ROLL-13 and ROLL-14. -/
theorem witness_DirectionPressSetsDirection :
    CycleRuns { pressed := B [.fwd], raw := B [.fwd] } (rollAt still false) ∧
    hasButton (B [.fwd]) .fwd ≠ hasButton (B [.fwd]) .rev ∧ hasButton (0 : ButtonSet) .cyc = false ∧
    (∃ t, exec (.cycle { pressed := B [.fwd], raw := B [.fwd] }) (rollAt still false) = .next t ∧
      decide (apoActivePort t = false ∧ t.roll.dir = .fwd) = true) ∧
    (∃ t, exec (.cycle { pressed := B [.rev], raw := B [.rev] }) (rollAt { still with dir := .fwd } false) = .next t ∧
      decide (apoActivePort t = false ∧ t.roll.dir = .rev) = true) :=
  ⟨rollAt_runs _ _ rfl, by decide, by decide, next_of (by decide +kernel), next_of (by decide +kernel)⟩

/-- ROLL-17 and ROLL-19, and an APO exit in the same cycle. -/
theorem witness_LongPressResetsEndpoints :
    CycleRuns { longHeld := B [.cyc] } (rollAt { still with dir := .rev, cyc := true } false) ∧
    hasButton (B [.cyc]) .cyc = true ∧ still.prevCycLong = false ∧ hasButton (0 : ButtonSet) .fwd = false ∧
    (∃ t, exec (.cycle { longHeld := B [.cyc] }) (rollAt { still with dir := .rev, cyc := true } false) = .next t ∧
      decide (apoActivePort t = false ∧ t.roll.dir = .rev ∧ t.roll.epReset = true) = true) ∧
    (∃ t, exec (.cycle { longHeld := B [.cyc], relShort := B [.cyc], epValid := true })
        (rollAt { still with prevApo := true, resume := .fwd } false) = .next t ∧
      decide (apoActivePort t = false ∧ t.roll.dir = .fwd ∧ t.roll.resume = .stop) = true) ∧
    (∃ t, exec (.cycle { longHeld := B [.cyc], pressed := B [.rev] }) (rollAt still false) = .next t ∧
      decide (apoActivePort t = false ∧ t.roll.dir = .rev ∧ t.roll.fbev.pointReset = true) = true) :=
  ⟨rollAt_runs _ _ rfl, by decide, rfl, by decide, next_of (by decide +kernel), next_of (by decide +kernel),
    next_of (by decide +kernel)⟩

/-- ROLL-22, ROLL-20 and ROLL-21; one configured cycle is enough to start. -/
theorem witness_ShortReleaseTogglesCycleMode :
    CycleRuns { relShort := B [.cyc] } (rollAt { still with dir := .rev, cyc := true } false) ∧
    hasButton (B [.cyc]) .cyc = true ∧ hasButton (0 : ButtonSet) .cyc = false ∧
    (∃ t, exec (.cycle { relShort := B [.cyc] }) (rollAt { still with dir := .rev, cyc := true } false) = .next t ∧
      decide (apoActivePort t = false ∧ t.roll.fbev.cycleStopped = true) = true) ∧
    (∃ t, exec (.cycle { relShort := B [.cyc], epValid := true }) (rollAt { still with cyclesDone := 7 } false) = .next t ∧
      decide (apoActivePort t = false ∧ t.roll.fbev.cycleStarted = true ∧ t.roll.cyclesDone = 0) = true) ∧
    (∃ t, exec (.cycle { relShort := B [.cyc] }) (rollAt still false) = .next t ∧
      decide (apoActivePort t = false ∧ t.roll.fbev.cycleStartFail = true) = true) ∧
    (∃ t, exec (.cycle { relShort := B [.cyc], pressed := B [.rev] }) (rollAt still false) = .next t ∧
      decide (apoActivePort t = false ∧ t.roll.dir = .rev ∧ t.roll.fbev.cycleStartFail = true) = true) :=
  ⟨rollAt_runs _ _ rfl, by decide, by decide, next_of (by decide +kernel), next_of (by decide +kernel),
    next_of (by decide +kernel), next_of (by decide +kernel)⟩

/-- ROLL-29 and ROLL-31. -/
theorem witness_ResumeIsAppliedOnceOnApoExit :
    CycleRuns { tempC := 50 } (rollAt { still with resume := .fwd, prevApo := true } false) ∧ still.cyc = false ∧
    (∃ t, exec (.cycle { tempC := 50 }) (rollAt { still with resume := .fwd, prevApo := true } false) = .next t ∧
      decide (apoActivePort t = false ∧ t.roll.dir = .fwd ∧ t.roll.resume = .stop) = true) ∧
    (∃ t, exec (.cycle {}) (rollAt { still with prevApo := true } false) = .next t ∧
      decide (apoActivePort t = false ∧ t.roll.dir = .stop) = true) :=
  ⟨rollAt_runs _ _ rfl, rfl, next_of (by decide +kernel), next_of (by decide +kernel)⟩

/-- ROLL-23, ROLL-24, ROLL-25 and ROLL-27, and a saturated cycle counter. -/
theorem witness_CycleLogicFollowsEndpoints :
    CycleRuns { epValid := true, atFwdEnd := true } (rollAt { still with dir := .fwd, cyc := true } false) ∧
    (∃ t, exec (.cycle { epValid := true, atFwdEnd := true }) (rollAt { still with dir := .fwd, cyc := true } false) = .next t ∧
      decide (apoActivePort t = false ∧ t.roll.dir = .rev) = true) ∧
    (∃ t, exec (.cycle { atRevEnd := true }) (rollAt { still with dir := .rev, cyc := true, cyclesDone := 1 } false) = .next t ∧
      decide (apoActivePort t = false ∧ t.roll.dir = .fwd ∧ t.roll.cyclesDone = 2) = true) ∧
    (∃ t, exec (.cycle { atRevEnd := true }) (rollAt { still with dir := .rev, cyc := true, cyclesDone := 2 } false) = .next t ∧
      decide (apoActivePort t = false ∧ t.roll.dir = .stop ∧ t.roll.ccomp = true) = true) ∧
    (∃ t, exec (.cycle { atFwdEnd := true, atRevEnd := true }) (rollAt { still with cyc := true } false) = .next t ∧
      decide (apoActivePort t = false ∧ t.roll.dir = .stop ∧ t.roll.cyc = true) = true) ∧
    (∃ t, exec (.cycle { atRevEnd := true }) (rollAt { still with dir := .rev, cyc := true, cyclesDone := 255 } false) = .next t ∧
      decide (apoActivePort t = false ∧ t.roll.cyclesDone = 255) = true) :=
  ⟨rollAt_runs _ _ rfl, next_of (by decide +kernel), next_of (by decide +kernel), next_of (by decide +kernel),
    next_of (by decide +kernel), next_of (by decide +kernel)⟩

/-! ### Witnesses: the control cycle and the parameter store -/

theorem witness_CycleFrame : CycleRuns heatOps rdy := ⟨rfl, rfl, rfl, rfl⟩

theorem witness_CycleHoldsUntilReady :
    ld.sys.halted = false ∧ heatOps.reservedClear = true ∧ ld.tick.ready = false ∧ ld.cfg.wellFormed = true ∧
    (feed ld (encode (.cycle heatOps)) [go]).env.schedule = .command .host :: [] ∧
    decode (pendingBytes .host (feed ld (encode (.cycle heatOps)) [go]).env) = .command (.cycle heatOps) [] := by
  decide +kernel

/-- The last address inside a store of 16 bytes, and the first outside it. -/
theorem witness_NvPrimitivesNeverWrap : (15 : Nat) < 16 ∧ (16 : Nat) ≤ 16 := by decide

theorem witness_SaveOpStoresTheRecord :
    edited.cfg.wellFormed = true ∧ edited.cfg.nvFormat = {} ∧ edited.sys.halted = false ∧ edited.store.loaded = true := by
  decide +kernel

theorem witness_SaveCalStoresTheRecord :
    edited.cfg.wellFormed = true ∧ edited.cfg.nvFormat = {} ∧ edited.sys.halted = false ∧ edited.store.loaded = true := by
  decide +kernel

/-- Both blocks valid (PS-1), both invalid (PS-3). -/
theorem witness_LoadTakesImageOrDefault :
    bare.cfg.wellFormed = true ∧ bare.cfg.nvFormat = {} ∧ bare.sys.halted = false ∧ blockValid 0x8C bare.nv.bytes 0 5 = true ∧
    blockValid 0x8C bare.nv.bytes 6 8 = true ∧
    blockValid 0x8C erased.nv.bytes 0 5 = false ∧
    blockValid 0x8C erased.nv.bytes 6 8 = false := by decide +kernel

theorem witness_WriteCommandsReplaceTheRecord : ld.sys.halted = false ∧ ld.store.loaded = true := by decide

theorem witness_SaveThenLoadRoundTrip :
    edited.cfg.wellFormed = true ∧ edited.cfg.nvFormat = {} ∧ edited.sys.halted = false ∧ edited.store.loaded = true := by
  decide +kernel

/-- PS-6 and PS-8, and the first and last byte of either block. -/
theorem witness_SingleByteCorruptionHeals :
    bare.cfg.wellFormed = true ∧ bare.cfg.nvFormat = {} ∧ bare.sys.halted = false ∧ blockValid 0x8C bare.nv.bytes 0 5 = true ∧
    blockValid 0x8C bare.nv.bytes 6 8 = true ∧ (0xB5 : Byte) ≠ Memory.read bare.nv.bytes 0 ∧
    (0x00 : Byte) ≠ Memory.read bare.nv.bytes 5 ∧ (0x00 : Byte) ≠ Memory.read bare.nv.bytes 6 ∧
    (0xEC : Byte) ≠ Memory.read bare.nv.bytes 14 := by decide +kernel

/-- A save of two bytes, a reset, and the save cut by reset after its first byte. -/
theorem witness_UnusedNvBytesNeverChange :
    edited.cfg.nvFormat = {} ∧
    (∃ t, step (feed edited [0x11] [go]) = .next t ∧ decide (t.nv.history = [(0, 0xC8), (5, 0xBE)]) = true) ∧
    (∃ t, step (feed edited [0x11] [.reset]) = .next t ∧ decide (t.nv.history = []) = true) ∧
    (∃ t, step (feed edited [0x11] [.commandCut .host 1]) = .next t ∧ decide (t.nv.history = [(0, 0xC8)]) = true) :=
  ⟨rfl, next_of (by decide +kernel), next_of (by decide +kernel), next_of (by decide +kernel)⟩

theorem witness_OnlyStoreCommandsWriteNv :
    (∃ t, exec (.psWriteOp ⟨200, 3, 1, 30⟩) ld = .next t ∧ decide (t.store.op.setpoint = 200) = true) ∧
    (Instr.psWriteOp ⟨200, 3, 1, 30⟩ ≠ .psLoad ∧ Instr.psWriteOp ⟨200, 3, 1, 30⟩ ≠ .psSaveOp ∧
      Instr.psWriteOp ⟨200, 3, 1, 30⟩ ≠ .psSaveCal ∧ Instr.psWriteOp ⟨200, 3, 1, 30⟩ ≠ .powerLoss) :=
  ⟨next_of (by decide +kernel), by decide⟩

/-! ### Witnesses: system commands, faults, reset, the step -/

theorem witness_SetCalModeWritesCal : bare.sys.halted = false := rfl

/-- A command that runs, and one that faults. -/
theorem witness_CalModeChangesNothingElse :
    (∀ w rsv, Instr.tick ≠ .setCalMode w rsv) ∧ (∃ t, exec .tick bare = .next t ∧ decide (t.tick.tickCnt = 19) = true) ∧
    (∀ w rsv, Instr.psSaveOp ≠ .setCalMode w rsv) ∧
    (∃ t, exec .psSaveOp bare = .next t ∧ decide (t.sys.fault.notLoaded = true) = true) :=
  ⟨fun _ _ => nofun, next_of (by decide +kernel), fun _ _ => nofun, next_of (by decide +kernel)⟩

/-- SYS-9 and SYS-11: unloaded and loaded. -/
theorem witness_PowerLossSavesAndHalts :
    bare.cfg.wellFormed = true ∧ bare.cfg.nvFormat = {} ∧ bare.sys.halted = false ∧ bare.store.loaded = false ∧
    edited.cfg.wellFormed = true ∧ edited.cfg.nvFormat = {} ∧ edited.sys.halted = false ∧ edited.store.loaded = true := by
  decide +kernel

theorem witness_InertPortsReadInert : off.sys.inert = true ∧ ld.sys.inert = false := by decide

/-- The lowest reserved bit alone, in each byte that has one (SYS-2, ENC-20). -/
theorem witness_ReservedBitsRaiseBadOperand :
    bare.sys.halted = false ∧ 32 ≤ (0x20 : Byte).toNat ∧ 2 ≤ (0x02 : Byte).toNat := by decide

/-- PS-11 and SYS-1, and a command that never raises the fault. -/
theorem witness_UnloadedCommandsRaiseNotLoaded :
    bare.sys.halted = false ∧ bare.store.loaded = false ∧ heatOps.reservedClear = true ∧
    { bare with tick := { bare.tick with ready := true } }.tick.ready = true ∧
    (∃ t, exec .psLoad bare = .next t ∧ decide (t.store.loaded = true) = true) ∧
    (∃ t, exec .tick bare = .next t ∧ decide (t.tick.tickCnt = 19) = true) ∧
    (∃ t, exec (.setCalMode true 0) bare = .next t ∧ decide (t.heater.hs.cal = true) = true) ∧
    (∃ t, exec .powerLoss bare = .next t ∧ decide (t.sys.halted = true) = true) :=
  ⟨rfl, rfl, rfl, rfl, next_of (by decide +kernel), next_of (by decide +kernel), next_of (by decide +kernel),
    next_of (by decide +kernel)⟩

/-- SYS-5: a second fault keeps the first one's bit. -/
theorem witness_FaultBitsAreSticky :
    (∃ t, step (feed { bare with sys := { bare.sys with fault := { illegalCmd := true } } } [0x20, 0x02] [go]) = .next t ∧
      decide (t.sys.fault = { illegalCmd := true, badOperand := true }) = true) ∧
    (∀ ts, (feed bare [0x20, 0x02] [go]).env.schedule ≠ .reset :: ts) ∧
    (∀ a k ts, (feed bare [0x20, 0x02] [go]).env.schedule ≠ .commandCut a k :: ts) :=
  ⟨next_of (by decide +kernel), (fun _ h => by cases h), fun _ _ _ h => by cases h⟩

/-- SYS-12 and SYS-13. -/
theorem witness_HaltedCoreTakesNoCommand :
    off.sys.halted = true ∧ off.cfg.wellFormed = true ∧ (feed off [0xFF] [go]).env.schedule = .command .host :: [] ∧
    (∃ t, step (feed off [] [.reset]) = .next t ∧ decide (t.sys.halted = false) = true) :=
  ⟨rfl, by decide +kernel, rfl, next_of (by decide +kernel)⟩

theorem witness_IllFormedConfigurationIsRefused :
    { bare with cfg := { bare.cfg with nvSize := 14 } }.cfg.wellFormed = false := by decide +kernel

theorem witness_ConfigurationIsFixed :
    ∃ t, step (feed ld [0x11] [.reset]) = .next t ∧ decide (t.cfg = Config.exampleE) = true :=
  next_of (by decide +kernel)

theorem witness_ResetEventKeepsNv :
    off.cfg.wellFormed = true ∧ (feed off [0x01] [.reset, go]).env.schedule = .reset :: [go] := by decide +kernel

theorem witness_StepRunsTheDecodedCommand :
    ld.cfg.wellFormed = true ∧ ld.sys.halted = false ∧ (feed ld [0x11, 0x01] [go, go]).env.schedule = .command .host :: [go] ∧
    decode (pendingBytes .host (feed ld [0x11, 0x01] [go, go]).env) = .command .psSaveOp [0x01] ∧
    ¬ (∃ o, Instr.psSaveOp = .cycle o ∧ o.reservedClear = true ∧ ld.tick.ready = false) :=
  ⟨by decide +kernel, rfl, rfl, rfl, by rintro ⟨o, h, -⟩; cases h⟩

/-- Each command with a list of writes that is not empty, cut before the first one, after it, and after the last one. -/
theorem witness_TornSaveLeavesPrefix :
    edited.cfg.wellFormed = true ∧ edited.cfg.nvFormat = {} ∧ edited.sys.halted = false ∧ edited.store.loaded = true ∧
    (∀ k, (feed edited [0x11] [.commandCut .host k]).env.schedule = .commandCut .host k :: []) ∧
    decode (pendingBytes .host (feed edited [0x11] [.commandCut .host 1]).env) = .command .psSaveOp [] ∧
    savedWrites edited.nv.bytes 0 (serOp edited.store.op ++ [crc8 0x8C (serOp edited.store.op)]) = [(0, 0xC8), (5, 0xBE)] ∧
    decode (pendingBytes .host (feed edited [0x12] [.commandCut .host 1]).env) = .command .psSaveCal [] ∧
    savedWrites edited.nv.bytes 6 (serCal edited.store.cal ++ [crc8 0x8C (serCal edited.store.cal)]) =
      [(6, 0x14), (8, 0xC8), (9, 0x00), (10, 0xFA), (12, 0x84), (13, 0x03), (14, 0xE3)] ∧
    decode (pendingBytes .host (feed edited [0x30] [.commandCut .host 1]).env) = .command .powerLoss [] ∧
    erased.cfg.wellFormed = true ∧ erased.cfg.nvFormat = {} ∧ erased.sys.halted = false ∧
    decode (pendingBytes .host (feed erased [0x10] [.commandCut .host 7]).env) = .command .psLoad [] ∧
    blockValid 0x8C erased.nv.bytes 0 5 = false ∧ blockValid 0x8C erased.nv.bytes 6 8 = false ∧
    (savedWrites erased.nv.bytes 0 (erased.cfg.defOp ++ [crc8 0x8C erased.cfg.defOp])).length = 6 := by
  refine ⟨by decide +kernel, rfl, rfl, rfl, fun _ => rfl, ?_⟩
  decide +kernel

/-- A good state, and a step from it. -/
theorem witness_StepKeepsInvariants :
    Inv bare ∧ (∃ t, step (feed bare [0x10] [go]) = .next t ∧ decide (t.store.loaded = true) = true) :=
  ⟨⟨⟨by unfold counterInRange; decide +kernel, by unfold counterInRange; decide +kernel,
      by unfold counterInRange; decide +kernel, by unfold counterInRange; decide +kernel,
      by unfold counterInRange; decide +kernel, by unfold counterInRange; decide +kernel, by decide +kernel⟩,
    ⟨by decide +kernel, by decide +kernel, by decide +kernel, by decide +kernel⟩, ⟨by decide +kernel, by decide +kernel⟩,
    ⟨by decide +kernel, by decide +kernel⟩, ⟨rfl, fun h => absurd h (by decide), fun h => absurd h (by decide)⟩⟩,
    next_of (by decide +kernel)⟩

theorem witness_InvariantsHoldAtReset :
    Config.exampleE.wellFormed = true ∧ Memory.wf nvGood = true ∧ ∀ e ∈ nvGood, e.1 < Config.exampleE.nvSize := by
  decide +kernel

end Sys2Proof.Tests
end

section
/-! The configuration checks (00_scope.md rule R10): what each says of the parameters, and that a step under a configuration
that fails one is refused by the check's name. -/

namespace Sys2Proof.Machine

/-! ### The checks, over the parameters -/

theorem wellFormed_iff_checks (c : Config) :
    c.wellFormed = true ↔
      c.periodsOk = true ∧ c.scaleOk = true ∧ c.setpointOk = true ∧ c.apoOk = true ∧ c.iclampOk = true ∧
        c.hystOk = true ∧ c.nvOk = true ∧ c.defaultsOk = true ∧ c.int32Ok = true := by
  simp [Config.wellFormed, Config.allChecks, Config.passes]

theorem periodsOk_iff (c : Config) :
    c.periodsOk = true ↔
      (1 ≤ c.coarseTicks ∧ c.coarseTicks ≤ 65535) ∧ (1 ≤ c.pCel ∧ c.pCel ≤ 65535) ∧ (1 ≤ c.pPid ∧ c.pPid ≤ 65535) ∧
        (1 ≤ c.pLog ∧ c.pLog ≤ 65535) ∧ (1 ≤ c.pTen ∧ c.pTen ≤ 65535) ∧ (1 ≤ c.pMin ∧ c.pMin ≤ 65535) := by
  simp [Config.periodsOk]

/-- `wf_int32` with the spec's `tdiv` (R12) and the bound as a numeral. -/
theorem int32Ok_iff (c : Config) :
    c.int32Ok = true ↔
      c.pidKiDiv ≠ 0 ∧ 32767 * (c.ki : Int) ≤ 2147483647 ∧
        max c.pidPLimit (c.pidErrThresh * c.kp) + tdiv (32767 * (c.ki : Int)) c.pidKiDiv + 65535 * (c.kd : Int)
          ≤ 2147483647 :=
  decide_eq_true_iff

/-- Settles O51: well-formed is the conjunction of the nine checks. The periods, `PID_ICLAMP_FN` (`iclampOk_iff`) and
`wf_int32` have a lemma each; the other six checks decide the very conditions of R10. -/
theorem configurationChecks : Obligations.ConfigurationChecks := by
  intro c
  rw [wellFormed_iff_checks, periodsOk_iff, iclampOk_iff, int32Ok_iff]
  have scale : c.scaleOk = true ↔ _ := decide_eq_true_iff
  have setpoint : c.setpointOk = true ↔ _ := decide_eq_true_iff
  have apo : c.apoOk = true ↔ _ := decide_eq_true_iff
  have hyst : c.hystOk = true ↔ _ := decide_eq_true_iff
  have nv : c.nvOk = true ↔ _ := decide_eq_true_iff
  have defaults : c.defaultsOk = true ↔ _ := decide_eq_true_iff
  rw [scale, setpoint, apo, hyst, nv, defaults]

/-! ### The refusal -/

/-- The check that `failedCheck` names is one the configuration fails. -/
theorem passes_of_failedCheck_eq_some {c : Config} {k : ConfigCheck} (h : c.failedCheck = some k) :
    c.passes k = false := by
  simpa using List.find?_some h

theorem exists_failedCheck_of_not_wellFormed {c : Config} (h : c.wellFormed = false) : ∃ k, c.failedCheck = some k := by
  refine Option.ne_none_iff_exists'.mp fun hn => ?_
  rw [(failedCheck_eq_none c).mp hn] at h
  cases h

theorem step_of_failedCheck {s : State} {k : ConfigCheck} (h : s.cfg.failedCheck = some k) :
    step s = .refused (.configIllFormed k) := by
  unfold step checkedTurn
  rw [h]

/-- Settles O52: the check named is the first one that fails. -/
theorem illFormedConfigurationIsRefused : Obligations.IllFormedConfigurationIsRefused := by
  intro s h
  obtain ⟨k, hk⟩ := exists_failedCheck_of_not_wellFormed h
  exact ⟨k, passes_of_failedCheck_eq_some hk, step_of_failedCheck hk⟩

end Sys2Proof.Machine
end

section
/-! The registers between commands (10_state.md): what a command writes to the NV store, the frame of the configuration and
of the duty, the machine's invariants along every step, and the output ports. -/

namespace Sys2Proof.Machine

/-! ### What a command writes to the NV store -/

/-- `n'` is `n` after some NV writes, all to addresses of a store of `size` bytes (20_memory.md R62). -/
def WritesInside (size : Nat) (n n' : NvStore) : Prop := ∃ ws, n' = replayWrites n ws ∧ ∀ c ∈ ws, c.1 < size

theorem WritesInside.refl (size : Nat) (n : NvStore) : WritesInside size n n := ⟨[], rfl, by simp⟩

theorem WritesInside.trans {size : Nat} {a b c : NvStore} (hab : WritesInside size a b) (hbc : WritesInside size b c) :
    WritesInside size a c := by
  obtain ⟨xs, rfl, hx⟩ := hab
  obtain ⟨ys, rfl, hy⟩ := hbc
  exact ⟨xs ++ ys, (replayWrites_append a xs ys).symm, fun c hc => (List.mem_append.mp hc).elim (hx c) (hy c)⟩

theorem saveBytes_writesInside {size a : Nat} {n n' : NvStore} {bs : List Byte} (h : saveBytes size n a bs = .ok n') :
    WritesInside size n n' := ⟨_, saveBytes_ok h⟩

theorem loadBlock_writesInside {poly : Byte} {size base len : Nat} {n : NvStore} {d : List Byte} {b : LoadedBlock}
    (h : loadBlock poly size n base len d = .ok b) : WritesInside size n b.nv := by
  obtain ⟨r, -, h⟩ := bind_ok h
  split at h
  · rw [← Except.ok.inj h]
    exact .refl size n
  · obtain ⟨n', hn, h⟩ := bind_ok h
    rw [← Except.ok.inj h]
    exact saveBytes_writesInside hn

theorem loadBlocks_writesInside {c : Config} {n : NvStore} {b : LoadedBlock × LoadedBlock} (h : loadBlocks c n = .ok b) :
    WritesInside c.nvSize n b.2.nv := by
  obtain ⟨op, hop, h⟩ := bind_ok h
  obtain ⟨cal, hcal, h⟩ := bind_ok h
  rw [← Except.ok.inj h]
  exact (loadBlock_writesInside hop).trans (loadBlock_writesInside hcal)

theorem execPsLoad_writesInside {s t : State} (h : execPsLoad s = .next t) :
    WritesInside s.cfg.nvSize s.nv t.nv := by
  rcases unlessHalted_next h with ⟨-, rfl⟩ | ⟨-, h⟩
  · exact .refl _ _
  · split at h
    · rename_i b hb
      rw [← Host.Outcome.next.inj h]
      exact loadBlocks_writesInside hb
    · cases h

/-- PS_SAVE_OP and PS_SAVE_CAL: the writes are those of the save `r` that they make (44_param_store.md R194, R195). -/
theorem guardedSave_writesInside {s t : State} {r : Except Fault NvStore}
    (hr : ∀ n, r = .ok n → WritesInside s.cfg.nvSize s.nv n)
    (h : unlessHalted s (ifLoaded s (ofNv r fun n => { s with nv := n })) = .next t) :
    WritesInside s.cfg.nvSize s.nv t.nv := by
  rcases unlessHalted_next h with ⟨-, rfl⟩ | ⟨-, h⟩
  · exact .refl _ _
  · rcases ifLoaded_next h with ⟨-, rfl⟩ | ⟨-, h⟩
    · exact .refl _ _
    · obtain ⟨n, hn, rfl⟩ := ofNv_next h
      exact hr n hn

theorem finalSave_writesInside {s : State} {n : NvStore} (h : finalSave s = .ok n) :
    WritesInside s.cfg.nvSize s.nv n := by
  unfold finalSave at h
  split at h
  · exact saveBytes_writesInside h
  · exact Except.ok.inj h ▸ .refl _ _

theorem execPowerLoss_writesInside {s t : State} (h : execPowerLoss s = .next t) :
    WritesInside s.cfg.nvSize s.nv t.nv := by
  rcases unlessHalted_next h with ⟨-, rfl⟩ | ⟨-, h⟩
  · exact .refl _ _
  · obtain ⟨n, hn, rfl⟩ := ofNv_next h
    exact finalSave_writesInside hn

theorem exec_writesInside {i : Instr} {s t : State} (h : exec i s = .next t) : WritesInside s.cfg.nvSize s.nv t.nv := by
  rcases exec_cases h with rfl | ⟨-, k, rfl⟩ | ⟨-, he⟩
  · exact .refl _ _
  · exact .refl _ _
  · cases i with
    | psLoad => exact execPsLoad_writesInside h
    | psSaveOp => exact guardedSave_writesInside (fun _ => saveBytes_writesInside) h
    | psSaveCal => exact guardedSave_writesInside (fun _ => saveBytes_writesInside) h
    | powerLoss => exact execPowerLoss_writesInside h
    | cycle o => obtain ⟨-, rfl⟩ := he; exact .refl _ _
    | tick | psWriteOp p | psWriteCal p | setCalMode v rsv => obtain rfl := he; exact .refl _ _

theorem runCommand_writesInside {a : Agent} {s t : State} (h : runCommand a s = .next t) :
    WritesInside s.cfg.nvSize s.nv t.nv := by
  rcases runCommand_cases h with rfl | ⟨-, op, rest, -, rfl⟩ | ⟨-, i, rest, -, -, he⟩
  · exact .refl _ _
  · exact .refl _ _
  · simpa using exec_writesInside he

/-! ### The configuration -/

theorem exec_cfg {i : Instr} {s t : State} (h : exec i s = .next t) : t.cfg = s.cfg := by
  rcases exec_cases h with rfl | ⟨-, k, rfl⟩ | ⟨-, he⟩
  · rfl
  · rfl
  · cases i with
    | tick | psWriteOp p | psWriteCal p | setCalMode v rsv => obtain rfl := he; rfl
    | cycle o => obtain ⟨-, rfl⟩ := he; rfl
    | psLoad | psSaveOp | psSaveCal | powerLoss => obtain ⟨rfl, -⟩ := he; rfl

theorem runCommand_cfg {a : Agent} {s t : State} (h : runCommand a s = .next t) : t.cfg = s.cfg := by
  rcases runCommand_cases h with rfl | ⟨-, op, rest, -, rfl⟩ | ⟨-, i, rest, -, -, he⟩
  · rfl
  · rfl
  · simpa using exec_cfg he

@[simp] theorem tornReset_cfg (k : Nat) (s t : State) : (tornReset k s t).cfg = t.cfg := rfl

/-- Settles O53: no command and no reset writes the configuration, so no kind of turn does. -/
theorem configurationIsFixed : Obligations.ConfigurationIsFixed := by
  intro s t h
  obtain ⟨-, ⟨-, rfl⟩ | ⟨ts, -, rfl⟩ | ⟨a, ts, -, hr⟩ | ⟨a, k, ts, u, -, hr, rfl⟩⟩ := step_cases h
  · rfl
  · rfl
  · simpa using runCommand_cfg hr
  · simpa using runCommand_cfg hr

/-! ### The duty -/

/-- A coarse cycle without a PID event holds the duty (42_heater_fsm.md R144). -/
theorem runCycle_duty_of_no_event {o : CycleOperands} {s : State} (hpid : (runCycle o s).sched.sflags.pid = false)
    (hspc : (runCycle o s).heater.hs.spc = false) : (runCycle o s).heater.duty = s.heater.duty := by
  simp only [runCycle_sched, runCycle_heater, cycleHeat, heaterStep_hs] at hpid hspc ⊢
  rw [heaterStep_duty, hpid, hspc]
  rfl

/-- Settles O20: of the commands' effects only those of CYCLE and POWER_LOSS name the duty. -/
theorem dutyChangesOnlyAtPidEventsAndPowerLoss : Obligations.DutyChangesOnlyAtPidEventsAndPowerLoss := by
  intro i s t h hne
  rcases exec_cases h with rfl | ⟨-, k, rfl⟩ | ⟨-, he⟩
  · exact absurd rfl hne
  · exact absurd rfl hne
  · cases i with
    | cycle o =>
      obtain ⟨-, rfl⟩ := he
      refine .inl ⟨⟨o, rfl⟩, ?_⟩
      by_contra hno
      simp only [not_or, Bool.not_eq_true] at hno
      exact hne (runCycle_duty_of_no_event hno.1 hno.2)
    | powerLoss => obtain ⟨rfl, -⟩ := he; exact .inr ⟨rfl, rfl⟩
    | tick | psWriteOp p | psWriteCal p | setCalMode v rsv => obtain rfl := he; exact absurd rfl hne
    | psLoad | psSaveOp | psSaveCal => obtain ⟨rfl, -⟩ := he; exact absurd rfl hne

/-! ### The invariants, unit by unit -/

theorem apoIncrement_le {maxCnt cnt : Byte} (h : cnt.toNat ≤ maxCnt.toNat) (m : Bool) :
    (apoIncrement maxCnt m cnt).1.toNat ≤ maxCnt.toNat := by
  unfold apoIncrement
  split
  · rename_i hm
    obtain ⟨-, hlt⟩ : m = true ∧ cnt.toNat < maxCnt.toNat := by simpa using hm
    bv_omega
  · exact h

theorem tick_schedInv {s : State} (hc : s.cfg.wellFormed = true) (h : SchedInv s) :
    SchedInv { s with tick := tickDivide s.cfg s.tick } :=
  { h with tickCnt := tickDivide_tickCnt s.cfg s.tick ▸ countdown_range h.tickCnt (periods_of_wellFormed hc).1 }

/-- APO_RESET and SCHED_ADVANCE keep the scheduler's ranges (40_tick_scheduler.md R101 to R105). -/
theorem runCycle_schedInv {s : State} (hc : s.cfg.wellFormed = true) (h : SchedInv s) (o : CycleOperands) :
    SchedInv (runCycle o s) := by
  obtain ⟨-, hcel, hpid, hlog, hten, hmin⟩ := periods_of_wellFormed hc
  obtain ⟨a, ha, hsc⟩ : ∃ a : Byte, a.toNat ≤ s.cfg.apoCntMax.toNat ∧
      (if userActivity o then apoReset s.sched else s.sched) = { s.sched with apoCnt := a } := by
    split
    · exact ⟨0, Nat.zero_le _, rfl⟩
    · exact ⟨s.sched.apoCnt, h.apoCnt, rfl⟩
  have sched : (runCycle o s).sched = schedAdvance s.cfg s.store.op.apoTimeout { s.sched with apoCnt := a } :=
    congrArg (schedAdvance _ _) hsc
  refine ⟨h.tickCnt, ?_, ?_, ?_, ?_, ?_, ?_⟩ <;> rw [sched]
  · exact countdown_range h.cntCel hcel
  · exact countdownIf_range h.cntPid hpid
  · exact countdown_range h.cntLog hlog
  · exact countdown_range h.cntTen hten
  · exact countdownIf_range h.cntMin hmin
  · exact apoIncrement_le ha _

/-- HEATER_STEP keeps the controller's invariants (42_heater_fsm.md R143, R144). -/
theorem heaterStep_pidInv {c : Config} (hc : c.wellFormed = true) {p : Pid} (hp : PidInv p) (op : OpParams)
    (o : CycleOperands) (f a : Bool) (h : Heater) : PidInv (heaterStep c op o f a h p).2 := by
  have updated : PidInv (afterSetpoint c op h p) := by
    unfold afterSetpoint
    split
    · exact pidSetIclamp_inv hc hp _
    · exact hp
  have cleared (rr : Bool) : PidInv (afterClear rr (afterSetpoint c op h p)) := by
    unfold afterClear
    split
    · exact pidClear_inv updated
    · exact updated
  rw [heaterStep_pid]
  split
  · unfold eventPid
    split
    · exact pidUpdate_inv (cleared _) c _ _
    · exact cleared _
  · exact hp

theorem eventDuty_le {c : Config} (hd : 0 ≤ c.dutyMax) (op : OpParams) (o : CycleOperands) (en : Bool) (p : Pid) :
    ((eventDuty c op o en p).toNat : Int) ≤ c.dutyMax := by
  unfold eventDuty
  split
  · exact dutyOf_le hd le_rfl
  · split
    · exact dutyOf_le (le_min (le_max_right _ _) hd) (min_le_right _ _)
    · exact hd

theorem heaterStep_duty_le {c : Config} (hd : 0 ≤ c.dutyMax) (op : OpParams) (o : CycleOperands) (f a : Bool)
    {h : Heater} (hh : (h.duty.toNat : Int) ≤ c.dutyMax) (p : Pid) :
    ((heaterStep c op o f a h p).1.duty.toNat : Int) ≤ c.dutyMax := by
  rw [heaterStep_duty]
  split
  · exact eventDuty_le hd op o _ _
  · exact hh

theorem apoOverride_resume_ne_rev {r : Roll} (h : r.resume ≠ .rev) (c : Config) (o : CycleOperands) :
    (apoOverride c o r).resume ≠ .rev := by
  unfold apoOverride
  split
  · exact nofun
  · split
    · exact nofun
    · exact h

/-- ROLL_STEP never remembers the reverse direction (10_state.md R41; 43_roll_fsm.md R163, R167). -/
theorem rollStep_resume_ne_rev {r : Roll} (h : r.resume ≠ .rev) (c : Config) (op : OpParams) (o : CycleOperands)
    (apo : Bool) : (rollStep c op o apo r).resume ≠ .rev := by
  have clear : (rollClear r).resume ≠ .rev := h
  have branch : (rollBranch c op o apo (rollClear r)).resume ≠ .rev := by
    unfold rollBranch
    split
    · exact clear
    · split
      · exact apoOverride_resume_ne_rev clear c o
      · rw [manualMode_resume]
        exact clear
  unfold rollStep
  simp only
  split
  · exact nofun
  · exact branch

theorem runCycle_outputInv {s : State} (h : OutputInv s) (o : CycleOperands) : OutputInv (runCycle o s) where
  duty hd := heaterStep_duty_le hd _ _ _ _ (h.duty hd) _
  resume := rollStep_resume_ne_rev h.resume _ _ _ _

theorem runCycle_haltInv {s : State} (hh : s.sys.halted = false) (h : HaltInv s) (o : CycleOperands) :
    HaltInv (runCycle o s) where
  inertIff := h.inertIff
  duty ht := nomatch hh.symm.trans ht
  dir ht := nomatch hh.symm.trans ht

theorem NvInv.of_writesInside {s t : State} (h : NvInv s) (hcfg : t.cfg = s.cfg)
    (hw : WritesInside s.cfg.nvSize s.nv t.nv) : NvInv t := by
  obtain ⟨ws, hn, hin⟩ := hw
  refine ⟨hn ▸ replayWrites_wf h.canonical ws, fun c hc => ?_⟩
  rw [hcfg]
  rcases mem_replayWrites (hn ▸ hc) with hc | ⟨e, he, hec⟩
  · exact h.inside c hc
  · exact hec ▸ hin e he

/-! ### The invariants of the whole machine -/

/-- The registers that the invariants read, but for the NV store. -/
def invRegs (s : State) : Config × Half × Scheduler × Pid × BitVec 7 × Roll × Bool × Bool :=
  (s.cfg, s.tick.tickCnt, s.sched, s.pid, s.heater.duty, s.roll, s.sys.inert, s.sys.halted)

/-- Where none of `invRegs` changes, the invariants need a look at the NV store only. -/
theorem Inv.of_invRegs_eq {s t : State} (h : Inv s) (hr : invRegs t = invRegs s) (hnv : NvInv t) : Inv t := by
  simp only [invRegs, Prod.mk.injEq] at hr
  obtain ⟨hcfg, htick, hsched, hpid, hduty, hroll, hinert, hhalted⟩ := hr
  obtain ⟨⟨tickCnt, cntCel, cntPid, cntLog, cntTen, cntMin, apoCnt⟩, pid, -, ⟨dutyLe, resume⟩, ⟨inertIff, duty, dir⟩⟩ := h
  rw [← hcfg, ← hsched] at cntCel cntPid cntLog cntTen cntMin apoCnt
  rw [← hcfg, ← htick] at tickCnt
  rw [← hcfg, ← hduty] at dutyLe
  rw [← hroll] at resume
  rw [← hinert, ← hhalted] at inertIff
  rw [← hhalted, ← hduty] at duty
  rw [← hhalted, ← hroll] at dir
  exact ⟨⟨tickCnt, cntCel, cntPid, cntLog, cntTen, cntMin, apoCnt⟩, hpid ▸ pid, hnv, ⟨dutyLe, resume⟩,
    ⟨inertIff, duty, dir⟩⟩

/-- A command keeps the invariants. -/
theorem exec_inv {i : Instr} {s t : State} (hc : s.cfg.wellFormed = true) (h : Inv s) (he : exec i s = .next t) :
    Inv t := by
  have hnv : NvInv t := h.nv.of_writesInside (exec_cfg he) (exec_writesInside he)
  rcases exec_cases he with rfl | ⟨-, k, rfl⟩ | ⟨hh, he⟩
  · exact h
  · exact h.of_invRegs_eq rfl hnv
  · cases i with
    | tick =>
      obtain rfl := he
      exact ⟨tick_schedInv hc h.sched, h.pid, hnv, ⟨h.output.duty, h.output.resume⟩,
        ⟨h.halt.inertIff, h.halt.duty, h.halt.dir⟩⟩
    | cycle o =>
      obtain ⟨-, rfl⟩ := he
      exact ⟨runCycle_schedInv hc h.sched o, heaterStep_pidInv hc h.pid _ _ _ _ _, hnv,
        runCycle_outputInv h.output o, runCycle_haltInv hh h.halt o⟩
    | psWriteOp p | psWriteCal p | setCalMode v rsv => obtain rfl := he; exact h.of_invRegs_eq rfl hnv
    | psLoad | psSaveOp | psSaveCal => obtain ⟨rfl, -⟩ := he; exact h.of_invRegs_eq rfl hnv
    | powerLoss =>
      obtain ⟨rfl, -⟩ := he
      exact ⟨{ h.sched with }, h.pid, hnv, ⟨id, h.output.resume⟩, ⟨rfl, fun _ => rfl, fun _ => rfl⟩⟩

/-- An agent's turn keeps the invariants. -/
theorem runCommand_inv {a : Agent} {s t : State} (hc : s.cfg.wellFormed = true) (h : Inv s)
    (hr : runCommand a s = .next t) : Inv t := by
  rcases runCommand_cases hr with rfl | ⟨-, op, rest, -, rfl⟩ | ⟨-, i, rest, -, -, he⟩
  · exact h
  · exact h.of_invRegs_eq rfl { h.nv with }
  · exact exec_inv (s := advance a rest s) hc (h.of_invRegs_eq rfl { h.nv with }) he

/-- Power-on with a well-formed configuration establishes the invariants (70_reset_and_hazards.md R250). -/
theorem powerOn_inv {c : Config} {m : Memory} (hc : c.wellFormed = true) (hm : Memory.wf m = true)
    (hin : ∀ e ∈ m, e.1 < c.nvSize) : Inv (State.powerOn c m) := by
  obtain ⟨hcoarse, hcel, hpid, hlog, hten, hmin⟩ := periods_of_wellFormed hc
  have period {p : Nat} (hp : 1 ≤ p ∧ p ≤ 65535) : counterInRange (BitVec.ofNat 16 p) p := by
    rw [counterInRange, toNat_ofNat_period hp.2]
    exact ⟨hp.1, le_rfl⟩
  have iclamp : (resetIclamp c.pidILimit).toNat ≤ 32767 :=
    resetIclamp_le ((iclampOk_iff c).mp (passes_of_wellFormed hc .wfIclamp)).2
  exact
    { sched := ⟨period hcoarse, period hcel, period hpid, period hlog, period hten, period hmin, Nat.zero_le _⟩
      pid := ⟨iclamp, neg_nonpos.mpr (Int.natCast_nonneg _), Int.natCast_nonneg _, rfl⟩
      nv := ⟨hm, hin⟩
      output := ⟨id, nofun⟩
      halt := ⟨rfl, nofun, nofun⟩ }

/-- Reset establishes the invariants from those of the NV store alone (70_reset_and_hazards.md R252). -/
theorem resetEvent_inv {s : State} (hc : s.cfg.wellFormed = true) (h : NvInv s) : Inv (resetEvent s) :=
  (powerOn_inv hc h.canonical h.inside).of_invRegs_eq rfl { h with }

/-- Reset inside a command keeps the NV store's invariant, because the writes done before it are inside the store too
(20_memory.md R74). -/
theorem tornReset_inv {s t : State} {k : Nat} (hc : t.cfg.wellFormed = true) (hcfg : t.cfg = s.cfg) (h : NvInv s)
    (hw : WritesInside s.cfg.nvSize s.nv t.nv) : Inv (tornReset k s t) := by
  obtain ⟨ws, hn, hin⟩ := hw
  refine resetEvent_inv hc (h.of_writesInside hcfg ⟨ws.take k, ?_, fun c hc => hin c (List.mem_of_mem_take hc)⟩)
  simp only [hn, replayWrites_history, List.drop_left]

/-- Settles O59, by the kinds of turn: each command keeps the invariants, and a reset, inside a command or not, establishes
them anew from what the command left in the NV store. -/
theorem stepKeepsInvariants : Obligations.StepKeepsInvariants := by
  intro s t h hs
  obtain ⟨hc, hturn⟩ := step_cases hs
  have dropped (ts : List Turn) : Inv (dropTurn ts s) := h.of_invRegs_eq rfl { h.nv with }
  obtain ⟨-, rfl⟩ | ⟨ts, -, rfl⟩ | ⟨a, ts, -, hr⟩ | ⟨a, k, ts, u, -, hr, rfl⟩ := hturn
  · exact h
  · exact resetEvent_inv hc (dropped ts).nv
  · exact runCommand_inv (s := dropTurn ts s) hc (dropped ts) hr
  · have hcfg := runCommand_cfg hr
    exact tornReset_inv (hcfg ▸ hc) hcfg (dropped ts).nv (runCommand_writesInside hr)

/-! ### The output ports -/

theorem ledFwd_ledRev_exclusive (s : State) : ¬ (ledFwd s = true ∧ ledRev s = true) := by
  unfold ledFwd ledRev
  cases s.roll.dir <;> simp

theorem apoActive_eq_decide (t cnt : Byte) : apoActive t cnt = decide (t ≠ 0 ∧ t.toNat ≤ cnt.toNat) := by
  rw [Bool.decide_and, decide_not]
  rfl

/-- The bits of `x` with the bit `b` put below them, as the flag ports put theirs. -/
theorem getLsbD_append_ofBool {w : Nat} (x : BitVec w) (b : Bool) (i : Nat) :
    (x ++ BitVec.ofBool b).getLsbD i = if i = 0 then b else x.getLsbD (i - 1) := by
  rw [BitVec.getLsbD_append, BitVec.getLsbD_ofBool]
  cases i <;> simp

theorem SchedFlags.bits_getLsbD (f : SchedFlags) :
    f.bits.getLsbD 0 = f.cel ∧ f.bits.getLsbD 1 = f.pid ∧ f.bits.getLsbD 2 = f.log ∧ f.bits.getLsbD 3 = f.ten ∧
      f.bits.getLsbD 4 = f.min ∧ f.bits.getLsbD 5 = f.apoSoon ∧ f.bits.getLsbD 6 = f.apoExp := by
  simp only [bits, getLsbD_append_ofBool]
  simp

theorem HeaterBits.bits_getLsbD (h : HeaterBits) :
    h.bits.getLsbD 0 = h.en ∧ h.bits.getLsbD 1 = h.rr ∧ h.bits.getLsbD 2 = h.spc ∧ h.bits.getLsbD 3 = h.cal := by
  simp only [bits, getLsbD_append_ofBool]
  simp

theorem FeedbackEvents.bits_getLsbD (f : FeedbackEvents) :
    f.bits.getLsbD 0 = f.dirPressed ∧ f.bits.getLsbD 1 = f.cycleStarted ∧ f.bits.getLsbD 2 = f.cycleStopped ∧
      f.bits.getLsbD 3 = f.dirAuto ∧ f.bits.getLsbD 4 = f.cycleComplete ∧ f.bits.getLsbD 5 = f.cycleStartFail ∧
      f.bits.getLsbD 6 = f.pointReset := by
  simp only [bits, getLsbD_append_ofBool]
  simp

theorem DefaultsUsed.bits_getLsbD (d : DefaultsUsed) : d.bits.getLsbD 0 = d.op ∧ d.bits.getLsbD 1 = d.cal := by
  simp only [bits, getLsbD_append_ofBool]
  simp

theorem FaultBits.bits_getLsbD (f : FaultBits) :
    f.bits.getLsbD 0 = f.illegalCmd ∧ f.bits.getLsbD 1 = f.badOperand ∧ f.bits.getLsbD 2 = f.notLoaded := by
  simp only [bits, getLsbD_append_ofBool]
  simp

/-- While `inert` is 1 the actuator ports read inert (10_state.md R54, R56). -/
theorem actuatorPorts_of_inert {s : State} (h : s.sys.inert = true) :
    motorDir s = .stop ∧ heaterDuty s = 0 ∧ ledFwd s = false ∧ ledRev s = false ∧ endpointReset s = false := by
  simp [motorDir, heaterDuty, ledFwd, ledRev, endpointReset, h]

/-- While `inert` is 0 the actuator ports show the registers (10_state.md R47, R56). -/
theorem actuatorPorts_of_not_inert {s : State} (h : s.sys.inert = false) :
    motorDir s = s.roll.dir ∧ heaterDuty s = s.heater.duty ∧ ledFwd s = decide (s.roll.dir = .fwd) ∧
      ledRev s = decide (s.roll.dir = .rev) ∧ endpointReset s = s.roll.epReset := by
  simp [motorDir, heaterDuty, ledFwd, ledRev, endpointReset, h]

/-- Settles O46: the actuator ports by `inert`, the flag ports by their records' bits; the other ports are their registers. -/
theorem inertPortsReadInert : Obligations.InertPortsReadInert := by
  intro s
  obtain ⟨dirPressed, cycleStarted, cycleStopped, dirAuto, cycleComplete, cycleStartFail, pointReset⟩ :=
    s.roll.fbev.bits_getLsbD
  exact ⟨actuatorPorts_of_inert, actuatorPorts_of_not_inert, ledFwd_ledRev_exclusive s, ⟨rfl, rfl, rfl⟩,
    s.sched.sflags.bits_getLsbD, apoActive_eq_decide _ _, s.heater.hs.bits_getLsbD,
    ⟨dirPressed, cycleStarted, cycleStopped, dirAuto, cycleComplete, cycleStartFail, pointReset, rfl⟩, rfl, rfl,
    s.store.defaultsUsed.bits_getLsbD, s.sys.fault.bits_getLsbD, rfl, rfl⟩

end Sys2Proof.Machine
end

section
/-! The NV store and the records (20_memory.md): the record images, the NV primitives, who changes `ready` and who writes the
NV store, and which bytes a command writes, complete or cut by reset. -/

namespace Sys2Proof.Machine

/-! ### The record images -/

theorem serOp_deOp {bs : List Byte} (h : bs.length = 5) : serOp (deOp bs) = bs := by
  match bs, h with
  | [_, _, _, _, _], _ => simp [serOp, deOp, loByte_halfOf, hiByte_halfOf]

theorem serCal_deCal {bs : List Byte} (h : bs.length = 8) : serCal (deCal bs) = bs := by
  match bs, h with
  | [_, _, _, _, _, _, _, _], _ => simp [serCal, deCal, loByte_halfOf, hiByte_halfOf]

/-- Settles O6: a 16-bit field is its two bytes, and the other fields are bytes. -/
theorem recordImagesAreBijections : Obligations.RecordImagesAreBijections :=
  ⟨fun p => ⟨rfl, deOp_serOp p⟩, fun _ => serOp_deOp, fun p => ⟨rfl, deCal_serCal p⟩, fun _ => serCal_deCal⟩

/-! ### The NV primitives -/

theorem nvWrite_outside {size a : Nat} (h : ¬ a < size) (n : NvStore) (v : Byte) :
    nvWrite size n a v = .error (.nvOutOfRange a) := if_neg h

/-- Settles O34: each primitive is one test of the address; what the write leaves reads as `Memory.read_write` says. -/
theorem nvPrimitivesNeverWrap : Obligations.NvPrimitivesNeverWrap := by
  intro size n a v
  refine ⟨fun h => ⟨nvRead_inside h n, _, nvWrite_inside h n v, rfl, fun b => Memory.read_write _ _ _ _⟩, fun h => ?_⟩
  exact ⟨nvRead_outside h.not_gt n, nvWrite_outside h.not_gt n v⟩

/-! ### Who changes `ready`, and who writes the NV store -/

/-- TICK changes `ready` in one direction only (40_tick_scheduler.md R100). -/
theorem tickDivide_ready_of_ne {c : Config} {t : TickUnit} (h : (tickDivide c t).ready ≠ t.ready) :
    (tickDivide c t).ready = true := by
  rw [tickDivide_ready] at h ⊢
  cases ht : t.ready
  · simpa [ht] using h
  · rfl

/-- Settles O10: of the commands' effects only those of TICK and CYCLE name `ready`. -/
theorem readyIsTheTickToCycleHandoff : Obligations.ReadyIsTheTickToCycleHandoff := by
  intro i s t h hne
  rcases exec_cases h with rfl | ⟨-, k, rfl⟩ | ⟨-, he⟩
  · exact absurd rfl hne
  · exact absurd rfl hne
  · cases i with
    | tick => obtain rfl := he; exact .inl ⟨rfl, tickDivide_ready_of_ne hne⟩
    | cycle o => obtain ⟨-, rfl⟩ := he; exact .inr ⟨⟨o, rfl⟩, rfl⟩
    | psWriteOp p | psWriteCal p | setCalMode v rsv => obtain rfl := he; exact absurd rfl hne
    | psLoad | psSaveOp | psSaveCal | powerLoss => obtain ⟨rfl, -⟩ := he; exact absurd rfl hne

/-- Settles O42: of the commands' effects only those of the four commands named name the NV store. -/
theorem onlyStoreCommandsWriteNv : Obligations.OnlyStoreCommandsWriteNv := by
  rintro i s t h ⟨hload, hsaveOp, hsaveCal, hpower⟩
  rcases exec_cases h with rfl | ⟨-, k, rfl⟩ | ⟨-, he⟩
  · rfl
  · rfl
  · cases i with
    | tick | psWriteOp p | psWriteCal p | setCalMode v rsv => obtain rfl := he; rfl
    | cycle o => obtain ⟨-, rfl⟩ := he; rfl
    | psLoad => exact absurd rfl hload
    | psSaveOp => exact absurd rfl hsaveOp
    | psSaveCal => exact absurd rfl hsaveCal
    | powerLoss => exact absurd rfl hpower

/-! ### The writes of PS_LOAD

The saves' writes are those of `savedOp_eq` and `savedCal_eq`. PS_LOAD makes two saves, the second over the store that the
first left, but the two blocks do not meet: its writes can be told from the store before it. -/

/-- The writes of PS_LOAD for one block: those of the default's save, unless the block is valid (44_param_store.md R193). -/
def defaultWrites (m : Memory) (base len : Nat) (dflt : List Byte) : List Host.Cell :=
  if blockValid 0x8C m base len then [] else savedWrites m base (dflt ++ [crc8 0x8C dflt])

theorem loadedOf_nv (n : NvStore) (base len : Nat) (dflt : List Byte) :
    (loadedOf 0x8C n base len dflt).nv = replayWrites n (defaultWrites n.bytes base len dflt) := by
  unfold loadedOf defaultWrites
  split <;> rfl

theorem defaultWrites_range {m : Memory} {base len : Nat} {dflt : List Byte} (hd : dflt.length = len) {c : Host.Cell}
    (h : c ∈ defaultWrites m base len dflt) : base ≤ c.1 ∧ c.1 ≤ base + len := by
  unfold defaultWrites at h
  split at h
  · cases h
  · have := savedWrites_range h
    rw [List.length_append, hd, List.length_singleton] at this
    omega

theorem defaultWrites_rising (m : Memory) (base len : Nat) (dflt : List Byte) :
    ((defaultWrites m base len dflt).map (·.1)).Pairwise (· < ·) := by
  unfold defaultWrites
  split
  · exact .nil
  · exact savedWrites_rising _ _ _

theorem defaultWrites_congr {m m' : Memory} {base len : Nat} {dflt : List Byte} (hd : dflt.length = len)
    (h : ∀ b, base ≤ b → b ≤ base + len → Memory.read m b = Memory.read m' b) :
    defaultWrites m base len dflt = defaultWrites m' base len dflt := by
  have writes : savedWrites m base (dflt ++ [crc8 0x8C dflt]) = savedWrites m' base (dflt ++ [crc8 0x8C dflt]) :=
    savedWrites_congr fun b h1 h2 => h b h1 (by rw [List.length_append, hd, List.length_singleton] at h2; omega)
  unfold defaultWrites
  rw [blockValid_congr 0x8C h, writes]

/-- The writes of PS_LOAD, the OperatingParams block's before the CalibrationParams block's (44_param_store.md R193). -/
def loadWrites (s : State) : List Host.Cell :=
  defaultWrites s.nv.bytes 0 5 s.cfg.defOp ++ defaultWrites s.nv.bytes 6 8 s.cfg.defCal

theorem loadedCal_nv {s : State} (hn : NvFits s.cfg) : (loadedCal s).nv = replayWrites s.nv (loadWrites s) := by
  have disjoint : defaultWrites (loadedOp s).nv.bytes 6 8 s.cfg.defCal = defaultWrites s.nv.bytes 6 8 s.cfg.defCal := by
    refine defaultWrites_congr hn.defCal fun b hb _ => ?_
    rw [loadedOp_eq hn, loadedOf_nv]
    refine replayWrites_read_ne fun c hc => ?_
    have := defaultWrites_range hn.defOp hc
    omega
  rw [loadedCal_eq hn, loadedOf_nv, disjoint, loadedOp_eq hn, loadedOf_nv, ← replayWrites_append]
  rfl

theorem loadWrites_lt {s : State} (hn : NvFits s.cfg) {c : Host.Cell} (hc : c ∈ loadWrites s) : c.1 < 15 := by
  rcases List.mem_append.mp hc with hc | hc
  · have := defaultWrites_range hn.defOp hc
    omega
  · have := defaultWrites_range hn.defCal hc
    omega

theorem loadWrites_rising {s : State} (hn : NvFits s.cfg) : ((loadWrites s).map (·.1)).Pairwise (· < ·) := by
  unfold loadWrites
  rw [List.map_append, List.pairwise_append]
  refine ⟨defaultWrites_rising _ _ _ _, defaultWrites_rising _ _ _ _, fun x hx y hy => ?_⟩
  obtain ⟨c, hc, rfl⟩ := List.mem_map.mp hx
  obtain ⟨d, hd, rfl⟩ := List.mem_map.mp hy
  have := defaultWrites_range hn.defOp hc
  have := defaultWrites_range hn.defCal hd
  omega

/-! ### Every write names an address below 15 -/

theorem savedOp_writesInside {s : State} (hn : NvFits s.cfg) : WritesInside 15 s.nv (savedOp s) := by
  refine ⟨_, savedOp_eq hn, fun c hc => ?_⟩
  have : c.1 < 0 + 6 := (savedWrites_range hc).2
  omega

theorem savedCal_writesInside {s : State} (hn : NvFits s.cfg) : WritesInside 15 s.nv (savedCal s) :=
  ⟨_, savedCal_eq hn, fun _ hc => (savedWrites_range hc).2⟩

theorem exec_writes_lt_15 {i : Instr} {s t : State} (hn : NvFits s.cfg) (h : exec i s = .next t) :
    WritesInside 15 s.nv t.nv := by
  rcases exec_cases h with rfl | ⟨-, k, rfl⟩ | ⟨-, he⟩
  · exact .refl _ _
  · exact .refl _ _
  · cases i with
    | tick | psWriteOp p | psWriteCal p | setCalMode v rsv => obtain rfl := he; exact .refl _ _
    | cycle o => obtain ⟨-, rfl⟩ := he; exact .refl _ _
    | psLoad => obtain ⟨rfl, -⟩ := he; exact ⟨_, loadedCal_nv hn, fun _ => loadWrites_lt hn⟩
    | psSaveOp => obtain ⟨rfl, -⟩ := he; exact savedOp_writesInside hn
    | psSaveCal => obtain ⟨rfl, -⟩ := he; exact savedCal_writesInside hn
    | powerLoss =>
      obtain ⟨rfl, -⟩ := he
      rw [afterPowerLoss_nv]
      split
      · exact savedOp_writesInside hn
      · exact .refl _ _

theorem runCommand_writes_lt_15 {a : Agent} {s t : State} (hn : NvFits s.cfg) (h : runCommand a s = .next t) :
    WritesInside 15 s.nv t.nv := by
  rcases runCommand_cases h with rfl | ⟨-, op, rest, -, rfl⟩ | ⟨-, i, rest, -, -, he⟩
  · exact .refl _ _
  · exact .refl _ _
  · exact exec_writes_lt_15 (s := advance a rest s) hn he

/-- Of a command's writes, a reset inside it leaves the first `k` (20_memory.md R74). -/
theorem tornReset_nv {s t : State} {ws : List Host.Cell} (h : t.nv = replayWrites s.nv ws) (k : Nat) :
    (tornReset k s t).nv = replayWrites s.nv (ws.take k) := by
  simp only [tornReset, resetEvent_nv, h, replayWrites_history, List.drop_left]

theorem tornReset_writesInside {size : Nat} {s t : State} (h : WritesInside size s.nv t.nv) (k : Nat) :
    WritesInside size s.nv (tornReset k s t).nv := by
  obtain ⟨ws, hn, hin⟩ := h
  exact ⟨ws.take k, tornReset_nv hn k, fun c hc => hin c (List.mem_of_mem_take hc)⟩

theorem step_writes_lt_15 {s t : State} (hf : s.cfg.nvFormat = {}) (h : step s = .next t) :
    WritesInside 15 s.nv t.nv := by
  obtain ⟨hc, hturn⟩ := step_cases h
  have hn : NvFits s.cfg := nvFits_of_wellFormed hc hf
  obtain ⟨-, rfl⟩ | ⟨ts, -, rfl⟩ | ⟨a, ts, -, hr⟩ | ⟨a, k, ts, u, -, hr, rfl⟩ := hturn
  · exact .refl _ _
  · exact .refl _ _
  · exact runCommand_writes_lt_15 (s := dropTurn ts s) hn hr
  · exact tornReset_writesInside (runCommand_writes_lt_15 (s := dropTurn ts s) hn hr) k

/-- Settles O41: a step replays writes to addresses below 15, which leave every other address alone. -/
theorem unusedNvBytesNeverChange : Obligations.UnusedNvBytesNeverChange := by
  intro s t hf h
  obtain ⟨ws, hnv, hlt⟩ := step_writes_lt_15 hf h
  rw [hnv]
  refine ⟨fun a ha => replayWrites_read_ne fun c hc => ?_, ws, replayWrites_history _ _, hlt⟩
  have := hlt c hc
  omega

/-! ### Reset inside a command -/

/-- A command that does not wait, cut by reset, answers the torn state of its outcome (20_memory.md R74). -/
theorem step_commandCut {s u : State} {a : Agent} {k : Nat} {ts : List Turn} {i : Instr} {rest : List Byte}
    (hc : s.cfg.wellFormed = true) (hh : s.sys.halted = false) (hs : s.env.schedule = .commandCut a k :: ts)
    (hd : decode (pendingBytes a s.env) = .command i rest) (hw : waits i s = false)
    (he : exec i (advance a rest (dropTurn ts s)) = .next u) : step s = .next (tornReset k (dropTurn ts s) u) := by
  have hw' : waits i (dropTurn ts s) = false := hw
  have run : runCommand a (dropTurn ts s) = .next u := by
    unfold runCommand
    rw [dropTurn_sys, hh, pendingBytes_dropTurn, hd]
    simp [hw', he]
  rw [step_of_wellFormed hc]
  unfold takeTurn
  rw [hs]
  simp only [run, cutAfter]

/-- What a reset inside a command leaves, where the command's writes `ws` are to rising addresses. -/
theorem tornReset_keeps_first_writes {s u : State} {ws : List Host.Cell} (hnv : u.nv = replayWrites s.nv ws)
    (hr : (ws.map (·.1)).Pairwise (· < ·)) (k : Nat) :
    tornReset k s u = { State.powerOn u.cfg s.nv.bytes with nv := (tornReset k s u).nv, env := u.env } ∧
      (tornReset k s u).nv.history = s.nv.history ++ ws.take k ∧
      (∀ c ∈ ws.take k, Memory.read (tornReset k s u).nv.bytes c.1 = c.2) ∧
      (∀ b, (∀ c ∈ ws.take k, c.1 ≠ b) → Memory.read (tornReset k s u).nv.bytes b = Memory.read s.nv.bytes b) := by
  refine ⟨rfl, ?_⟩
  rw [tornReset_nv hnv]
  have rising : ((ws.take k).map (·.1)).Pairwise (· < ·) := hr.sublist ((List.take_sublist k ws).map _)
  exact ⟨replayWrites_history _ _, fun _ hc => replayWrites_read_mem rising hc, fun _ => replayWrites_read_ne⟩

/-- The writes of POWER_LOSS are those of its final save (45_system.md R217). -/
theorem finalSave_nv {s : State} (hn : NvFits s.cfg) :
    (if s.store.loaded then savedOp s else s.nv) =
      replayWrites s.nv
        (if s.store.loaded then savedWrites s.nv.bytes 0 (serOp s.store.op ++ [crc8 0x8C (serOp s.store.op)])
         else []) := by
  split
  · exact savedOp_eq hn
  · rfl

/-- Settles O57: each of the four commands replays its writes, to rising addresses, and a reset inside it keeps the first
`k` of them. -/
theorem tornSaveLeavesPrefix : Obligations.TornSaveLeavesPrefix := by
  intro s a k ts i rest ws hc hf hh hs hd hcmd
  have hn : NvFits s.cfg := nvFits_of_wellFormed hc hf
  have runs : waits i s = false ∧ (ws.map (·.1)).Pairwise (· < ·) ∧
      ∃ u, exec i (advance a rest (dropTurn ts s)) = .next u ∧ u.cfg = s.cfg ∧
        u.env = setPending a rest { s.env with schedule := ts } ∧ u.nv = replayWrites s.nv ws := by
    obtain ⟨rfl, hl, rfl⟩ | ⟨rfl, hl, rfl⟩ | ⟨rfl, rfl⟩ | ⟨rfl, rfl⟩ := hcmd
    · exact ⟨rfl, savedWrites_rising _ _ _, _, exec_psSaveOp_runs hn hh hl, rfl, rfl, savedOp_eq hn⟩
    · exact ⟨rfl, savedWrites_rising _ _ _, _, exec_psSaveCal_runs hn hh hl, rfl, rfl, savedCal_eq hn⟩
    · exact ⟨rfl, loadWrites_rising hn, _, exec_psLoad_runs hn hh, rfl, rfl, loadedCal_nv hn⟩
    · refine ⟨rfl, ?_, _, exec_powerLoss_runs hn hh, rfl, rfl, finalSave_nv hn⟩
      split
      · exact savedWrites_rising _ _ _
      · exact .nil
  obtain ⟨hw, hr, u, he, hcfg, henv, hnv⟩ := runs
  obtain ⟨regs, history, written, kept⟩ := tornReset_keeps_first_writes (s := dropTurn ts s) hnv hr k
  rw [hcfg, henv] at regs
  exact ⟨_, step_commandCut hc hh hs hd hw he, regs, history, written, kept⟩

end Sys2Proof.Machine
end

section
/-! The command encoding (30_encoding.md): encoding and decoding are inverse, what a step does with the bytes an agent has
pending, reserved operand bits, the TICKs of a period, and command text. -/

namespace Sys2Proof.Machine

/-! ### Operand bytes and operands -/

/-- Format C's operands read back from their bytes (30_encoding.md R83). -/
theorem commandOf_cycleBytes (o : CycleOperands) : commandOf .cycle (cycleBytes o) = .cycle o := by
  obtain ⟨noSensor, shorted, epValid, atFwdEnd, atRevEnd, rsvStatus⟩ := statusByte_bits o
  simp only [commandOf, cycleBytes, cycleOperandsOf, List.getD_cons_zero, List.getD_cons_succ, lowFive_buttonByte,
    highThree_buttonByte, halfOf_bytes, noSensor, shorted, epValid, atFwdEnd, atRevEnd, rsvStatus]

/-- Format B's operand reads back from its byte (30_encoding.md R87). -/
theorem setCalModeOf_calModeByte (v : Bool) (rsv : BitVec 7) : setCalModeOf (calModeByte v rsv) = .setCalMode v rsv := by
  revert v rsv
  decide

/-- Format B's operand byte is bit 0 below the reserved bits (30_encoding.md R87). -/
theorem calModeByte_parts : ∀ b : Byte, calModeByte (b.getLsbD 0) (b.extractLsb' 1 7) = b := by decide

theorem operandBytes_length (i : Instr) : (operandBytes i).length = operandLength (formatOf i.mnemonic) := by
  cases i <;> rfl

theorem commandOf_operandBytes (i : Instr) : commandOf i.mnemonic (operandBytes i) = i := by
  cases i with
  | tick | psLoad | psSaveOp | psSaveCal | powerLoss => rfl
  | cycle o => exact commandOf_cycleBytes o
  | psWriteOp p => exact congrArg Instr.psWriteOp (deOp_serOp p)
  | psWriteCal p => exact congrArg Instr.psWriteCal (deCal_serCal p)
  | setCalMode v rsv => exact setCalModeOf_calModeByte v rsv

theorem operandBytes_commandOf {m : Mnemonic} {bs : List Byte} (h : bs.length = operandLength (formatOf m)) :
    operandBytes (commandOf m bs) = bs := by
  cases m with
  | tick | psLoad | psSaveOp | psSaveCal | powerLoss => exact (List.length_eq_zero_iff.mp h).symm
  | cycle =>
    match bs, h with
    | [_, _, _, _, _, _, _, _, _, _, _], _ => exact cycleBytes_operands _ _ _ _ _ _ _ _ _ _ _
  | psWriteOp => exact serOp_deOp h
  | psWriteCal => exact serCal_deCal h
  | setCalMode =>
    match bs, h with
    | [b], _ => exact congrArg (fun x => [x]) (calModeByte_parts b)

/-! ### What the decoder answers -/

/-- An opcode and its format's operand bytes are a command, whatever follows (30_encoding.md R80). -/
theorem decode_opcode_operands {m : Mnemonic} {bs : List Byte} (h : bs.length = operandLength (formatOf m))
    (rest : List Byte) : decode (opcodeOf m :: (bs ++ rest)) = .command (commandOf m bs) rest := by
  simp [decode, lookupOpcode_opcodeOf, ← h]

/-- An opcode and too few bytes for its format are no command (30_encoding.md R80). -/
theorem decode_opcode_short {m : Mnemonic} {bs : List Byte} (h : bs.length < operandLength (formatOf m)) :
    decode (opcodeOf m :: bs) = .incomplete := by
  simp [decode, lookupOpcode_opcodeOf, h]

/-- A byte that is no opcode is a command of one byte (30_encoding.md R89). -/
theorem decode_unlisted {op : Byte} (h : op ∉ opcodeMap.map opcodeOf) (rest : List Byte) :
    decode (op :: rest) = .illegalOpcode op rest := by
  have unlisted : lookupOpcode op = none :=
    List.find?_eq_none.mpr fun m hm he => h (List.mem_map.mpr ⟨m, hm, by simpa using he⟩)
  simp [decode, unlisted]

/-- The inversion of decode where it answers a command: an opcode, its format's operand bytes, and the rest. -/
theorem decode_command_cases {bs rest : List Byte} {i : Instr} (h : decode bs = .command i rest) :
    ∃ m operands, operands.length = operandLength (formatOf m) ∧ bs = opcodeOf m :: (operands ++ rest) ∧
      i = commandOf m operands := by
  cases bs with
  | nil => cases h
  | cons op tail =>
    rw [decode] at h
    split at h
    · cases h
    · rename_i m hm
      split at h
      · cases h
      · rename_i hlen
        obtain ⟨rfl, rfl⟩ := Decoded.command.inj h
        refine ⟨m, _, List.length_take_of_le (by omega), ?_, rfl⟩
        rw [opcodeOf_lookupOpcode hm, List.take_append_drop]

/-- Settles O2: the operand bytes have the format's length, and read back as the operands. -/
theorem decodeOfEncode : Obligations.DecodeOfEncode := by
  intro i rest
  have h := decode_opcode_operands (operandBytes_length i) rest
  rwa [commandOf_operandBytes] at h

/-- Settles O3: the operands keep every bit of the bytes they were read from. -/
theorem encodeOfDecode : Obligations.EncodeOfDecode := by
  intro bs rest i h
  obtain ⟨m, operands, hlen, rfl, rfl⟩ := decode_command_cases h
  rw [encode, commandOf_mnemonic, operandBytes_commandOf hlen]
  rfl

/-- Settles O1: each byte string is the command's encoding. -/
theorem listedWordsDecode : Obligations.ListedWordsDecode :=
  ⟨decodeOfEncode .tick [],
    decodeOfEncode (.cycle { pressed := 1, raw := 1, tempC := 25, spInt := 400, pv := 380 }) [],
    decodeOfEncode .psLoad [], decodeOfEncode .psSaveOp [], decodeOfEncode .psSaveCal [],
    decodeOfEncode (.psWriteOp { setpoint := BitVec.ofInt 16 (-5), rollCycles := 0, soundEn := 0, apoTimeout := 0 }) [],
    decodeOfEncode (.psWriteCal { c1 := 20, r1 := 200, c2 := 250, r2 := 900 }) [],
    decodeOfEncode (.setCalMode true 0) [], decodeOfEncode .powerLoss []⟩

/-! ### An agent's turn -/

theorem step_command {s : State} {a : Agent} {ts : List Turn} (hc : s.cfg.wellFormed = true)
    (hs : s.env.schedule = .command a :: ts) : step s = runCommand a (dropTurn ts s) := by
  rw [step_of_wellFormed hc, takeTurn, hs]

theorem runCommand_illegalOpcode {a : Agent} {s : State} {op : Byte} {rest : List Byte} (hh : s.sys.halted = false)
    (hd : decode (pendingBytes a s.env) = .illegalOpcode op rest) :
    runCommand a s = .next (raiseFault .illegalCmd (advance a rest s)) := by
  simp [runCommand, hh, hd]

theorem runCommand_incomplete {a : Agent} {s : State} (hh : s.sys.halted = false)
    (hd : decode (pendingBytes a s.env) = .incomplete) : runCommand a s = .refused .incompleteCommand := by
  simp [runCommand, hh, hd]

theorem runCommand_command {a : Agent} {s : State} {i : Instr} {rest : List Byte} (hh : s.sys.halted = false)
    (hd : decode (pendingBytes a s.env) = .command i rest) (hw : waits i s = false) :
    runCommand a s = exec i (advance a rest s) := by
  simp [runCommand, hh, hd, hw]

/-- Only a CYCLE with good operands waits, and only for `ready` (45_system.md R210). -/
theorem waits_cases {i : Instr} {s : State} (h : waits i s = true) :
    ∃ o, i = .cycle o ∧ o.reservedClear = true ∧ s.tick.ready = false := by
  cases i with
  | cycle o => exact ⟨o, rfl, by simpa [waits] using h⟩
  | tick | psLoad | psSaveOp | psSaveCal | psWriteOp p | psWriteCal p | setCalMode v rsv | powerLoss => cases h

/-- Settles O4: the step takes the byte off and raises the fault. -/
theorem unlistedOpcodeRaisesIllegalCmd : Obligations.UnlistedOpcodeRaisesIllegalCmd := by
  intro op rest hop
  have hd : decode (op :: rest) = .illegalOpcode op rest := decode_unlisted hop rest
  refine ⟨hd, fun s a ts hc hh hs hp => ?_⟩
  rw [step_command hc hs]
  exact runCommand_illegalOpcode (s := dropTurn ts s) hh (by rw [pendingBytes_dropTurn, hp, hd])

/-- Settles O5: a proper prefix that is not empty keeps the opcode and lacks operand bytes. -/
theorem incompleteCommandIsRefused : Obligations.IncompleteCommandIsRefused := by
  intro i n hpos hlt
  have hd : decode ((encode i).take n) = .incomplete := by
    obtain ⟨k, rfl⟩ := Nat.exists_eq_succ_of_ne_zero hpos.ne'
    refine decode_opcode_short (bs := (operandBytes i).take k) ?_
    have hk : k < (operandBytes i).length := Nat.lt_of_succ_lt_succ hlt
    rwa [← operandBytes_length, List.length_take_of_le hk.le]
  refine ⟨hd, fun s a ts hc hh hs hp => ?_⟩
  rw [step_command hc hs]
  exact runCommand_incomplete (s := dropTurn ts s) hh (by rw [pendingBytes_dropTurn, hp, hd])

/-- Settles O56: the command does not wait, so the turn executes it. -/
theorem stepRunsTheDecodedCommand : Obligations.StepRunsTheDecodedCommand := by
  intro s a ts i rest hc hh hs hd hwait
  have hw : waits i (dropTurn ts s) = false := Bool.eq_false_iff.mpr fun h => hwait (waits_cases h)
  rw [step_command hc hs]
  exact runCommand_command (s := dropTurn ts s) hh (by rw [pendingBytes_dropTurn, hd]) hw

/-! ### Reserved operand bits -/

/-- Bits 7:5 of a byte, by its value (30_encoding.md R83). -/
theorem highThree_eq_zero_iff : ∀ b : Byte, highThree b = 0 ↔ b.toNat < 32 := by decide

/-- Bits 7:1 of a byte, by its value (30_encoding.md R87). -/
theorem highSeven_eq_zero_iff : ∀ b : Byte, b.extractLsb' 1 7 = (0 : BitVec 7) ↔ b.toNat < 2 := by decide

/-- The operands in eleven bytes are good exactly if bytes 0 to 3 and 6 have no bit of 7:5 (30_encoding.md R83). -/
theorem reservedClear_cycleOperandsOf (b0 b1 b2 b3 b4 b5 b6 b7 b8 b9 b10 : Byte) :
    (cycleOperandsOf b0 b1 b2 b3 b4 b5 b6 b7 b8 b9 b10).reservedClear = true ↔
      b0.toNat < 32 ∧ b1.toNat < 32 ∧ b2.toNat < 32 ∧ b3.toNat < 32 ∧ b6.toNat < 32 := by
  simp [CycleOperands.reservedClear, cycleOperandsOf, ← highThree_eq_zero_iff, and_assoc]

theorem exec_cycle_reserved {o : CycleOperands} {s : State} (hh : s.sys.halted = false) (ho : o.reservedClear = false) :
    exec (.cycle o) s = .next (raiseFault .badOperand s) := by
  simp [exec, execCycle, unlessHalted_running hh, ho]

theorem exec_setCalMode_reserved {v : Bool} {rsv : BitVec 7} {s : State} (hh : s.sys.halted = false) (hr : rsv ≠ 0) :
    exec (.setCalMode v rsv) s = .next (raiseFault .badOperand s) := by
  rw [exec, execSetCalMode, unlessHalted_running hh, if_pos (bne_iff_ne.mpr hr)]

/-- Settles O47: the check of the reserved bits comes before those of `ready` and `loaded`. -/
theorem reservedBitsRaiseBadOperand : Obligations.ReservedBitsRaiseBadOperand := by
  constructor
  · intro b0 b1 b2 b3 b4 b5 b6 b7 b8 b9 b10
    refine ⟨decode_opcode_operands (m := .cycle) (bs := [b0, b1, b2, b3, b4, b5, b6, b7, b8, b9, b10]) rfl [],
      fun s hh hres => exec_cycle_reserved hh (Bool.eq_false_iff.mpr fun good => ?_)⟩
    rw [reservedClear_cycleOperandsOf] at good
    omega
  · intro b
    refine ⟨_, _, decode_opcode_operands (m := .setCalMode) (bs := [b]) rfl [], fun s hh hres => ?_⟩
    exact exec_setCalMode_reserved hh fun h => absurd ((highSeven_eq_zero_iff b).mp h) (by omega)

/-! ### The TICKs of a period -/

/-- TICKs of a running core only iterate the tick divider (40_tick_scheduler.md R100). -/
theorem ticksFrom_running {s : State} (hh : s.sys.halted = false) (k : Nat) :
    ticksFrom s k = .next { s with tick := (tickDivide s.cfg)^[k] s.tick } := by
  induction k with
  | zero => rfl
  | succ k ih => simp [ticksFrom, ih, exec, execTick, unlessHalted, hh, Function.iterate_succ_apply']

/-- Above 1 the counter counts down and `ready` stays. -/
theorem tickDivide_counts (c : Config) {n : Nat} (hn : 1 ≤ n) (hlt : n < 65536) (r : Bool) :
    tickDivide c { tickCnt := BitVec.ofNat 16 (n + 1), ready := r } = { tickCnt := BitVec.ofNat 16 n, ready := r } := by
  have down : BitVec.ofNat 16 (n + 1) - 1 = BitVec.ofNat 16 n := by
    rw [BitVec.ofNat_add]
    exact BitVec.add_sub_cancel _ _
  have running : BitVec.ofNat 16 n ≠ 0 := by
    intro h
    have := congrArg BitVec.toNat h
    rw [BitVec.toNat_ofNat, Nat.mod_eq_of_lt hlt] at this
    exact Nat.ne_of_gt hn this
  simp only [tickDivide, down, if_neg running]

theorem tickDivide_iterate_counts (c : Config) {n : Nat} (hn : 1 ≤ n) (r : Bool) (k : Nat) (hlt : n + k ≤ 65535) :
    (tickDivide c)^[k] { tickCnt := BitVec.ofNat 16 (n + k), ready := r } =
      { tickCnt := BitVec.ofNat 16 n, ready := r } := by
  induction k with
  | zero => rfl
  | succ k ih =>
    rw [Function.iterate_succ_apply, ← Nat.add_assoc, tickDivide_counts c (by omega) (by omega)]
    exact ih (by omega)

/-- At 1 the counter reloads and raises `ready`. -/
theorem tickDivide_reloads (c : Config) (r : Bool) :
    tickDivide c { tickCnt := 1#16, ready := r } = { tickCnt := BitVec.ofNat 16 c.coarseTicks, ready := true } := by
  simp [tickDivide]

/-- `ready` within one period of the tick divider from a full counter. -/
theorem tickDivide_iterate_ready {c : Config} (hc : 1 ≤ c.coarseTicks ∧ c.coarseTicks ≤ 65535) {k : Nat}
    (hk : k ≤ c.coarseTicks) :
    ((tickDivide c)^[k] { tickCnt := BitVec.ofNat 16 c.coarseTicks, ready := false }).ready =
      decide (k = c.coarseTicks) := by
  rcases hk.lt_or_eq with hlt | heq
  · obtain ⟨n, hn⟩ := Nat.exists_eq_add_of_lt hlt
    rw [show c.coarseTicks = (n + 1) + k by omega, tickDivide_iterate_counts c (by omega) false k (by omega)]
    simp
  · obtain ⟨j, hj⟩ := Nat.exists_eq_add_of_le hc.1
    rw [show k = j + 1 by omega, Function.iterate_succ_apply', hj,
      tickDivide_iterate_counts c le_rfl false j (by omega), tickDivide_reloads]
    simp [Nat.add_comm]

/-- Settles O9: the TICKs iterate the tick divider through one period. -/
theorem periodRaisesReadyAtItsLastTick : Obligations.PeriodRaisesReadyAtItsLastTick := by
  intro s hc hh hready hcnt k hk
  have full : s.tick = { tickCnt := BitVec.ofNat 16 s.cfg.coarseTicks, ready := false } :=
    congr (congrArg TickUnit.mk hcnt) hready
  refine ⟨_, ticksFrom_running hh k, rfl, ?_⟩
  rw [full]
  exact tickDivide_iterate_ready (periods_of_wellFormed hc).1 hk

/-! ### Command text -/

theorem copies_singleton (n : Nat) (b : Byte) : copies n [b] = List.replicate n b := by
  induction n with
  | zero => rfl
  | succ n ih => exact congrArg (b :: ·) ih

/-- The line R92's worked example stands for. -/
theorem lineOfText_workedExample :
    lineOfText ("CYCLE pressed=" ++ bracketed "fwd" ++ ", raw=" ++ bracketed "fwd" ++ ", temp=25, sp=400, pv=380") =
      some (.simple (.command (.cycle { pressed := 1, raw := 1, tempC := 25, spInt := 400, pv := 380 }))) := by
  decide +kernel

/-- Settles O7: the worked example is one CYCLE, and each pseudo-command is its bytes or copies of them. -/
theorem commandTextExpands : Obligations.CommandTextExpands := by
  refine ⟨fun c => ?_, fun c o l n bs => ?_⟩
  · rw [lineOfText_workedExample]
    rfl
  · have period := congrArg (· ++ encode (.cycle o)) (copies_singleton c.coarseTicks 0x01)
    exact ⟨copies_singleton n 0x01, period, rfl, rfl, rfl, rfl, rfl⟩

end Sys2Proof.Machine
end

section
/-! The tick divider and the scheduler (40_tick_scheduler.md): what TICK answers, what one control cycle does to the counters
and their flags, and how often each event fires from reset. -/

namespace Sys2Proof.Machine

/-! ### TICK -/

/-- Settles O8: TICK is one step of the tick divider, which is a countdown. -/
theorem tickDividesToReady : Obligations.TickDividesToReady := by
  refine ⟨rfl, fun s hh => unlessHalted_running hh _, fun s hh => unlessHalted_halted hh _, fun s t hc hcnt h => ?_⟩
  rcases unlessHalted_next h with ⟨-, rfl⟩ | ⟨-, h⟩
  · exact hcnt
  · obtain rfl := Host.Outcome.next.inj h
    exact tickDivide_tickCnt s.cfg s.tick ▸ countdown_range hcnt (periods_of_wellFormed hc).1

/-! ### The counters in one control cycle -/

theorem countdownIf_fst (on : Bool) (c : Half) (p : Nat) :
    (countdownIf on c p).1 = if on then if c = 1 then BitVec.ofNat 16 p else c - 1 else c := by
  cases on
  · rfl
  · exact countdown_fst c p

theorem countdownIf_snd (on : Bool) (c : Half) (p : Nat) : (countdownIf on c p).2 = (on && decide (c = 1)) := by
  cases on
  · rfl
  · exact countdown_snd c p

/-- The APO counter that SCHED_ADVANCE finds in a control cycle (40_tick_scheduler.md R105; 45_system.md R212). -/
def cycleApoBefore (o : CycleOperands) (s : State) : Byte := if o.pressed = 0 then s.sched.apoCnt else 0

/-- User activity resets the APO counter and no other scheduler register (40_tick_scheduler.md R105). -/
theorem cycleSched_eq (o : CycleOperands) (s : State) :
    cycleSched o s = schedAdvance s.cfg s.store.op.apoTimeout { s.sched with apoCnt := cycleApoBefore o s } := by
  unfold cycleSched cycleApoBefore userActivity
  by_cases h : o.pressed = 0
  · rw [if_neg (by simpa using h), if_pos h]
  · rw [if_pos (by simpa using h), if_neg h]
    rfl

/-- Settles O11: each counter is a countdown, and those of PID and MIN step only in the event they are nested in. -/
theorem cycleStepsTheCounters : Obligations.CycleStepsTheCounters := by
  intro o s h
  refine ⟨_, exec_cycle_runs h, ?_⟩
  rw [runCycle_sched, cycleSched_eq]
  exact ⟨countdown_fst _ _, countdown_snd _ _, countdownIf_fst _ _ _, countdownIf_snd _ _ _, countdown_fst _ _,
    countdown_snd _ _, countdown_fst _ _, countdown_snd _ _, countdownIf_fst _ _ _, countdownIf_snd _ _ _⟩

/-! ### The APO minutes in one control cycle -/

theorem apoIncrement_snd (maxCnt : Byte) (m : Bool) (cnt : Byte) :
    (apoIncrement maxCnt m cnt).2 = (m && decide (cnt.toNat < maxCnt.toNat)) := by
  unfold apoIncrement
  split
  · rename_i h; exact h.symm
  · rename_i h; exact (Bool.eq_false_iff.mpr h).symm

/-- The minute counter steps without wrapping, for it is below its maximum (40_tick_scheduler.md R103). -/
theorem apoIncrement_fst_toNat (maxCnt : Byte) (m : Bool) (cnt : Byte) :
    (apoIncrement maxCnt m cnt).1.toNat =
      if (apoIncrement maxCnt m cnt).2 then cnt.toNat + 1 else cnt.toNat := by
  unfold apoIncrement
  split
  · rename_i h
    obtain ⟨-, hlt⟩ : m = true ∧ cnt.toNat < maxCnt.toNat := by simpa using h
    have noWrap : (cnt + 1).toNat = cnt.toNat + 1 := by bv_omega
    exact noWrap
  · rfl

theorem apoDecode_fst (t cnt : Byte) (inc : Bool) :
    (apoDecode t cnt inc).1 = (inc && decide (t ≠ 0 ∧ cnt.toNat + 1 = t.toNat)) := by
  have onto : decide (t ≠ 0 ∧ cnt.toNat + 1 = t.toNat) = decide (t ≠ 0 ∧ cnt = t - 1) :=
    decide_eq_decide.mpr (and_congr_right fun ht => by bv_omega)
  rw [onto]
  simp [apoDecode, Bool.and_assoc, bne, beq_eq_decide]

theorem apoDecode_snd (t cnt : Byte) (inc : Bool) :
    (apoDecode t cnt inc).2 = (inc && decide (t ≠ 0 ∧ cnt.toNat = t.toNat)) := by
  simp [apoDecode, ← BitVec.toNat_inj, Bool.and_assoc, bne, beq_eq_decide]

/-- Settles O12: APO_INCREMENT, APO_DECODE and APO_ACTIVE in turn, from the counter after a press's reset. -/
theorem cycleCountsApoMinutes : Obligations.CycleCountsApoMinutes := by
  intro o s h
  refine ⟨_, exec_cycle_runs h, (cycleApoBefore o s).toNat, _, ?_, rfl, ?_⟩
  · exact apply_ite BitVec.toNat _ _ _
  · rw [apoActivePort, runCycle_store, runCycle_sched, cycleSched_eq, ← apoIncrement_snd]
    exact ⟨apoIncrement_fst_toNat _ _ _, apoDecode_fst _ _ _, apoDecode_snd _ _ _, apoActive_eq_decide _ _⟩

/-! ### The events from reset -/

/-- Where a counter `c` of period `p` stands that was full at reset, has stepped `n` times and has fired `f` times: `n` steps
lie behind it, and `c` more would complete the next period. -/
structure CounterAfter (p n f : Nat) (c : Half) : Prop where
  range : counterInRange c p
  steps : n + c.toNat = (f + 1) * p

theorem counterAfter_reset {p : Nat} (hp : 1 ≤ p ∧ p ≤ 65535) : CounterAfter p 0 0 (BitVec.ofNat 16 p) := by
  have full := toNat_ofNat_period hp.2
  exact ⟨by rw [counterInRange, full]; omega, by rw [full]; omega⟩

theorem CounterAfter.step {p n f : Nat} {c : Half} (h : CounterAfter p n f c) (hp : 1 ≤ p ∧ p ≤ 65535) :
    CounterAfter p (n + 1) (f + if (countdown c p).2 then 1 else 0) (countdown c p).1 := by
  obtain ⟨⟨pos, le⟩, steps⟩ := h
  refine ⟨countdown_range ⟨pos, le⟩ hp, ?_⟩
  rw [countdown_fst, countdown_snd]
  by_cases hc : c = 1
  · subst hc
    have steps : n + 1 = (f + 1) * p := steps
    simp only [if_true, decide_true, toNat_ofNat_period hp.2]
    rw [Nat.succ_mul (f + 1) p, steps]
  · simp only [hc, decide_false, if_false, Bool.false_eq_true, Nat.add_zero, toNat_sub_one pos]
    omega

/-- A nested counter steps only where `on` holds. -/
theorem CounterAfter.stepIf {p n f : Nat} {c : Half} (h : CounterAfter p n f c) (hp : 1 ≤ p ∧ p ≤ 65535) (on : Bool) :
    CounterAfter p (n + if on then 1 else 0) (f + if (countdownIf on c p).2 then 1 else 0) (countdownIf on c p).1 := by
  cases on
  · exact h
  · exact h.step hp

/-- A counter has fired once in every `p` steps. -/
theorem CounterAfter.fired_eq {p n f : Nat} {c : Half} (h : CounterAfter p n f c) : f = n / p := by
  obtain ⟨⟨pos, le⟩, steps⟩ := h
  exact (Nat.div_eq_of_lt_le (by rw [Nat.add_mul] at steps; omega) (by omega)).symm

/-- The five counters after `k` SCHED_ADVANCE calls from reset: CEL, LOG and TEN have stepped `k` times, PID as often as CEL
fired and MIN as often as TEN fired (40_tick_scheduler.md R102). -/
structure CountersAfter (c : Config) (t : Byte) (k : Nat) : Prop where
  cel : CounterAfter c.pCel k (firings c t (·.cel) k) (schedAfter c t k).cntCel
  pid : CounterAfter c.pPid (firings c t (·.cel) k) (firings c t (·.pid) k) (schedAfter c t k).cntPid
  log : CounterAfter c.pLog k (firings c t (·.log) k) (schedAfter c t k).cntLog
  ten : CounterAfter c.pTen k (firings c t (·.ten) k) (schedAfter c t k).cntTen
  min : CounterAfter c.pMin (firings c t (·.ten) k) (firings c t (·.min) k) (schedAfter c t k).cntMin

theorem countersAfter {c : Config} (hc : c.wellFormed = true) (t : Byte) (k : Nat) : CountersAfter c t k := by
  obtain ⟨-, hcel, hpid, hlog, hten, hmin⟩ := periods_of_wellFormed hc
  induction k with
  | zero =>
    exact ⟨counterAfter_reset hcel, counterAfter_reset hpid, counterAfter_reset hlog, counterAfter_reset hten,
      counterAfter_reset hmin⟩
  | succ k ih =>
    exact ⟨ih.cel.step hcel, ih.pid.stepIf hpid _, ih.log.step hlog, ih.ten.step hten, ih.min.stepIf hmin _⟩

/-- PID fires only with CEL, and MIN only with TEN (40_tick_scheduler.md R102). -/
theorem schedAfter_nested (c : Config) (t : Byte) (k : Nat) :
    ((schedAfter c t k).sflags.pid = true → (schedAfter c t k).sflags.cel = true) ∧
      ((schedAfter c t k).sflags.min = true → (schedAfter c t k).sflags.ten = true) := by
  have outer {on : Bool} {n : Half} {p : Nat} (h : (countdownIf on n p).2 = true) : on = true := by
    rw [countdownIf_snd] at h
    exact Bool.and_elim_left h
  cases k with
  | zero => exact ⟨nofun, nofun⟩
  | succ k => exact ⟨outer, outer⟩

/-- Settles O13: each event fires once per period of its counter's steps, and those of PID and MIN are the firings of CEL and
TEN. -/
theorem schedulerFiresByItsPeriods : Obligations.SchedulerFiresByItsPeriods := by
  intro c t k hc
  obtain ⟨cel, pid, log, ten, min⟩ := countersAfter hc t k
  refine ⟨cel.fired_eq, ?_, log.fired_eq, ten.fired_eq, ?_, schedAfter_nested c t k⟩
  · rw [pid.fired_eq, cel.fired_eq, Nat.div_div_eq_div_mul]
  · rw [min.fired_eq, ten.fired_eq, Nat.div_div_eq_div_mul]

end Sys2Proof.Machine
end

section
/-! The PID controller (41_pid.md): PID_SET_ICLAMP and PID_CLEAR on its registers, the magnitude of every intermediate of
PID_UPDATE, and the registers and the duty that a PID event of an enabled, regulated heater leaves. -/

namespace Sys2Proof.Machine

/-! ### PID_SET_ICLAMP -/

theorem pidSetIclamp_iclamp {c : Config} (hc : c.wellFormed = true) (s : Half) (p : Pid) :
    ((pidSetIclamp c s p).iclamp.toNat : Int) = c.iclampFn.apply s := by
  obtain ⟨h0, h1⟩ := iclampFn_range hc s
  exact toHalf_toNat h0 h1

theorem pidSetIclamp_acc {c : Config} (hc : c.wellFormed = true) (s : Half) (p : Pid) :
    (pidSetIclamp c s p).acc.toInt = clamp p.acc.toInt (-(c.iclampFn.apply s)) (c.iclampFn.apply s) := by
  obtain ⟨h0, h1⟩ := iclampFn_range hc s
  exact toHalf_toInt (by unfold clamp; omega) (by unfold clamp; omega)

/-- Settles O21: PID_ICLAMP_FN's value fits the register, and so does the accumulator clamped to it. -/
theorem setIclampPullsAccumulatorIn : Obligations.SetIclampPullsAccumulatorIn :=
  fun _ s p hc => ⟨pidSetIclamp_iclamp hc s p, pidSetIclamp_acc hc s p, rfl⟩

/-! ### PID_CLEAR -/

/-- R123: PID_CLEAR leaves the registers of reset, but for the clamp. -/
theorem pidClear_eq_reset (c : Config) (p : Pid) :
    pidClear p = { (State.powerOn c []).pid with iclamp := p.iclamp } := rfl

/-- Settles O22: the two updates start from the same registers. -/
theorem clearThenUpdateIsFresh : Obligations.ClearThenUpdateIsFresh := by
  intro c sp pv p fresh
  rw [pidClear_eq_reset c p]
  exact ⟨rfl, rfl⟩

/-! ### The magnitude of PID_UPDATE's intermediates -/

theorem abs_half_sub_le (a b : Half) : |(a.toNat : Int) - b.toNat| ≤ 65535 := by
  have ha := a.isLt
  have hb := b.isLt
  rw [abs_le]
  omega

/-- The limit or the product: the multiply is reached only within the threshold, which then is not negative. -/
theorem abs_pTerm_le {c : Config} (h : 0 ≤ c.pidPLimit) (err : Int) :
    |pTerm c err| ≤ max c.pidPLimit (c.pidErrThresh * c.kp) := by
  unfold pTerm
  split_ifs with above below
  · exact (abs_of_nonneg h).trans_le (le_max_left _ _)
  · exact (abs_neg _).trans_le ((abs_of_nonneg h).trans_le (le_max_left _ _))
  · have within : |err| ≤ c.pidErrThresh := abs_le.mpr ⟨not_lt.mp below, not_lt.mp above⟩
    calc |err * c.kp| = |err| * c.kp := by rw [abs_mul, Nat.abs_cast]
      _ ≤ c.pidErrThresh * c.kp := mul_le_mul_of_nonneg_right within (Int.natCast_nonneg _)
      _ ≤ _ := le_max_right _ _

theorem abs_mul_ki_le {acc : Int} (h : |acc| ≤ 32767) (c : Config) : |acc * c.ki| ≤ 32767 * c.ki := by
  rw [abs_mul, Nat.abs_cast]
  exact mul_le_mul_of_nonneg_right h (Int.natCast_nonneg _)

/-- `tdiv` by a divisor that is not negative is monotone in the magnitude, because it truncates toward zero. -/
theorem abs_tdiv_le {a b k : Int} (hk : 0 ≤ k) (h : |a| ≤ b) : |tdiv a k| ≤ tdiv b k := by
  lift b to Nat using (abs_nonneg a).trans h
  lift k to Nat using hk
  rw [Int.abs_eq_natAbs] at h
  rw [tdiv, tdiv, Int.abs_eq_natAbs, Int.natAbs_tdiv, Int.natAbs_natCast, ← Int.ofNat_tdiv]
  exact_mod_cast Nat.div_le_div_right (by omega)

theorem abs_iTerm_le {c : Config} (hk : 0 ≤ c.pidKiDiv) {acc : Int} (h : |acc| ≤ 32767) :
    |iTerm c acc| ≤ tdiv (32767 * c.ki) c.pidKiDiv := abs_tdiv_le hk (abs_mul_ki_le h c)

theorem abs_dTerm_le (c : Config) (pv : Half) (p : Pid) : |dTerm c pv p| ≤ 65535 * c.kd := by
  rw [dTerm_eq, abs_mul, Nat.abs_cast, mul_comm]
  exact mul_le_mul_of_nonneg_right (abs_half_sub_le _ _) (Int.natCast_nonneg _)

/-- Settles O23: the three terms are bounded by the three summands of `wf_int32`, none of which is negative, so each term and
their sum are bounded by the check. -/
theorem pidArithmeticFitsInt32 : Obligations.PidArithmeticFitsInt32 := by
  intro c sp pv p hc hP hK hp
  obtain ⟨-, hki, hsum⟩ := (int32Ok_iff c).mp (passes_of_wellFormed hc .wfInt32)
  have acc : |nextAcc sp pv p| ≤ 32767 := abs_le.mpr (nextAcc_range hp)
  have err : -65535 ≤ pidErr sp pv ∧ pidErr sp pv ≤ 65535 := abs_le.mp (abs_half_sub_le sp pv)
  have sample := abs_le.mp (abs_half_sub_le (derivGet p.dbuf p.didx) pv)
  have product := abs_le.mp (abs_mul_ki_le acc c)
  have pBound := abs_le.mp (abs_pTerm_le hP (pidErr sp pv))
  have iBound := abs_le.mp (abs_iTerm_le hK acc)
  have dBound := abs_le.mp (abs_dTerm_le c pv p)
  obtain ⟨iclamp, accLow, accHigh, -⟩ := hp
  simp only [List.forall_mem_cons, List.not_mem_nil, false_implies, implies_true, and_true]
  omega

/-! ### What the heater FSM does to the controller -/

theorem afterClear_acc (rr : Bool) (p : Pid) : (afterClear rr p).acc.toInt = if rr then 0 else p.acc.toInt := by
  cases rr <;> rfl

@[simp] theorem afterClear_iclamp (rr : Bool) (p : Pid) : (afterClear rr p).iclamp = p.iclamp := by cases rr <;> rfl

@[simp] theorem afterClear_dbuf (rr : Bool) (p : Pid) : (afterClear rr p).dbuf = if rr then {} else p.dbuf := by
  cases rr <;> rfl

@[simp] theorem afterClear_didx (rr : Bool) (p : Pid) : (afterClear rr p).didx = if rr then 0 else p.didx := by
  cases rr <;> rfl

@[simp] theorem afterSetpoint_dbuf (c : Config) (op : OpParams) (h : Heater) (p : Pid) :
    (afterSetpoint c op h p).dbuf = p.dbuf := by
  unfold afterSetpoint; split <;> rfl

@[simp] theorem afterSetpoint_didx (c : Config) (op : OpParams) (h : Heater) (p : Pid) :
    (afterSetpoint c op h p).didx = p.didx := by
  unfold afterSetpoint; split <;> rfl

/-- Changed or not, the setpoint comparison leaves the accumulator clamped to the bound it leaves: without a change it is
inside that bound already. -/
theorem afterSetpoint_acc {c : Config} (hc : c.wellFormed = true) (op : OpParams) (h : Heater) {p : Pid} (hp : PidInv p) :
    (afterSetpoint c op h p).acc.toInt =
      clamp p.acc.toInt (-((afterSetpoint c op h p).iclamp.toNat : Int)) (afterSetpoint c op h p).iclamp.toNat := by
  unfold afterSetpoint
  split
  · rw [pidSetIclamp_acc hc, pidSetIclamp_iclamp hc]
  · obtain ⟨-, low, high, -⟩ := hp
    rw [clamp, max_eq_left low, min_eq_left high]

theorem afterSetpoint_pidInv {c : Config} (hc : c.wellFormed = true) (op : OpParams) (h : Heater) {p : Pid}
    (hp : PidInv p) : PidInv (afterSetpoint c op h p) := by
  unfold afterSetpoint
  split
  · exact pidSetIclamp_inv hc hp _
  · exact hp

theorem afterClear_pidInv (rr : Bool) {p : Pid} (hp : PidInv p) : PidInv (afterClear rr p) := by
  cases rr with
  | false => exact hp
  | true => exact pidClear_inv hp

theorem pidUpdate_acc {p : Pid} (h : PidInv p) (c : Config) (sp pv : Half) :
    (pidUpdate c sp pv p).acc.toInt = nextAcc sp pv p := by
  obtain ⟨low, high⟩ := nextAcc_range (sp := sp) (pv := pv) h
  exact toHalf_toInt (by omega) high

/-! ### A PID event of an enabled, regulated heater -/

/-- The controller from which a PID event updates: after the setpoint comparison and the clear (42_heater_fsm.md R143,
R144). -/
def eventStart (o : CycleOperands) (s : State) : Pid :=
  afterClear (hasButton o.longHeld .heat) (afterSetpoint s.cfg s.store.op s.heater s.pid)

theorem runCycle_regulated {o : CycleOperands} {s : State} (hen : (runCycle o s).heater.hs.en = true)
    (hev : (runCycle o s).sched.sflags.pid = true ∨ (runCycle o s).heater.hs.spc = true)
    (hsp : s.store.op.setpoint.toInt < s.cfg.maxSetTemp.toInt) :
    (runCycle o s).pid = pidUpdate s.cfg o.spInt o.pv (eventStart o s) ∧
      (runCycle o s).heater.duty = pidDuty s.cfg o.spInt o.pv (eventStart o s) := by
  have regulated : unregulated s.cfg s.store.op = false := decide_eq_false (not_le.mpr hsp)
  simp only [runCycle_sched, runCycle_heater, runCycle_pid, cycleHeat, heaterStep_hs, ← Bool.or_eq_true] at hen hev ⊢
  rw [heaterStep_pid, heaterStep_duty, if_pos hev, if_pos hev, hen]
  simp [eventPid, eventDuty, regulated, eventStart]

theorem runCycle_rr (o : CycleOperands) (s : State) : (runCycle o s).heater.hs.rr = hasButton o.longHeld .heat := by
  simp only [runCycle_heater, cycleHeat, heaterStep_hs, heaterButtons_rr]

theorem eventStart_acc {s : State} (hc : s.cfg.wellFormed = true) (hp : PidInv s.pid) (o : CycleOperands) :
    (eventStart o s).acc.toInt =
      if hasButton o.longHeld .heat then 0
      else clamp s.pid.acc.toInt (-((eventStart o s).iclamp.toNat : Int)) (eventStart o s).iclamp.toNat := by
  rw [eventStart, afterClear_acc, afterClear_iclamp, ← afterSetpoint_acc hc _ _ hp]

theorem eventStart_dbuf (o : CycleOperands) (s : State) :
    (eventStart o s).dbuf = if hasButton o.longHeld .heat then {} else s.pid.dbuf := by
  rw [eventStart, afterClear_dbuf, afterSetpoint_dbuf]

theorem eventStart_didx (o : CycleOperands) (s : State) :
    (eventStart o s).didx = if hasButton o.longHeld .heat then 0 else s.pid.didx := by
  rw [eventStart, afterClear_didx, afterSetpoint_didx]

/-- Settles O16: the cycle is one PID_UPDATE of the controller at `eventStart`, whose registers are those before the cycle after
PID_SET_ICLAMP and PID_CLEAR; both keep the invariants, so that every store is exact. -/
theorem regulatedCycleComputesPid : Obligations.RegulatedCycleComputesPid := by
  intro o s hrun hc hp
  refine ⟨_, exec_cycle_runs hrun, fun hen hev hsp => ?_⟩
  obtain ⟨hpid, hduty⟩ := runCycle_regulated hen hev hsp
  have hstart : PidInv (eventStart o s) := afterClear_pidInv _ (afterSetpoint_pidInv hc _ _ hp)
  have hacc := pidUpdate_acc hstart s.cfg o.spInt o.pv
  rw [runCycle_rr, hpid, hduty, hacc]
  exact ⟨(eventStart o s).iclamp.toNat, (eventStart o s).acc.toInt, pidErr o.spInt o.pv,
    (derivGet (eventStart o s).dbuf (eventStart o s).didx).toNat, pTerm s.cfg (pidErr o.spInt o.pv),
    iTerm s.cfg (nextAcc o.spInt o.pv (eventStart o s)), dTerm s.cfg o.pv (eventStart o s),
    clamp (pidOut s.cfg o.spInt o.pv (eventStart o s)) 0 s.cfg.dutyMax, (eventStart o s).dbuf, (eventStart o s).didx,
    rfl, eventStart_acc hc hp o, eventStart_dbuf o s, eventStart_didx o s, rfl, rfl, rfl, rfl, dTerm_eq _ _ _, rfl, rfl,
    dutyOf_toNat, rfl, nextDidx_toNat, (pidUpdate_inv hstart s.cfg o.spInt o.pv).dsum⟩

end Sys2Proof.Machine
end

section
/-! The heater FSM (42_heater_fsm.md): the status bits and the remembered setpoint that a control cycle leaves, and the duty and
the controller after a PID event of an unregulated or a disabled heater and in a cycle without one. -/

namespace Sys2Proof.Machine

/-! ### The status bits -/

/-- The toggle comes before the override, so an override cycle leaves the heater disabled either way (42_heater_fsm.md R142). -/
theorem heaterButtons_en (o : CycleOperands) (a : Bool) (hs : HeaterBits) :
    (heaterButtons o a hs).en = ((hs.en ^^ hasButton o.relShort .heat) && !(a || sensorErr o)) := by
  have toggled : (hs.en ^^ hasButton o.relShort .heat) = if hasButton o.relShort .heat then !hs.en else hs.en := by
    cases hasButton o.relShort .heat <;> simp
  rw [toggled]
  unfold heaterButtons
  cases a || sensorErr o with
  | true => simp
  | false => simp only [Bool.false_eq_true, if_false]; split <;> simp

theorem runCycle_en (o : CycleOperands) (s : State) :
    (runCycle o s).heater.hs.en =
      ((s.heater.hs.en ^^ hasButton o.relShort .heat) && !(cycleApo o s || sensorErr o)) := by
  rw [runCycle_heater, cycleHeat, heaterStep_hs]
  exact heaterButtons_en _ _ _

theorem runCycle_cal (o : CycleOperands) (s : State) : (runCycle o s).heater.hs.cal = s.heater.hs.cal := by
  rw [runCycle_heater, cycleHeat, heaterStep_hs]
  exact heaterButtons_cal _ _ _

theorem runCycle_spc (o : CycleOperands) (s : State) :
    (runCycle o s).heater.hs.spc = setpointChanged s.store.op s.heater := by
  rw [runCycle_heater, cycleHeat, heaterStep_hs]

/-- Settles O14: the three bits are HEATER_STEP's, and `apo_active` as the cycle sampled it is still the port's value after. -/
theorem cycleTogglesThenOverridesHeater : Obligations.CycleTogglesThenOverridesHeater := by
  intro o s h
  refine ⟨_, exec_cycle_runs h, runCycle_rr o s, ?_, runCycle_cal o s⟩
  rw [apoActivePort_runCycle]
  exact runCycle_en o s

/-! ### The setpoint comparison -/

theorem setpointChanged_eq_decide (op : OpParams) (h : Heater) :
    setpointChanged op h = decide (h.lastSpValid = false ∨ op.setpoint ≠ h.lastSp) := by
  simp [setpointChanged, bne, beq_eq_decide]

/-- An unchanged setpoint is the remembered one, so that the cycle remembers its setpoint on either branch
(42_heater_fsm.md R143). -/
theorem heaterStep_remembers_setpoint (c : Config) (op : OpParams) (o : CycleOperands) (f a : Bool) (h : Heater) (p : Pid) :
    (heaterStep c op o f a h p).1.lastSp = op.setpoint ∧ (heaterStep c op o f a h p).1.lastSpValid = true := by
  obtain ⟨last, valid⟩ :
      (heaterStep c op o f a h p).1.lastSp = (if setpointChanged op h then op.setpoint else h.lastSp) ∧
        (heaterStep c op o f a h p).1.lastSpValid = (setpointChanged op h || h.lastSpValid) := by
    unfold heaterStep; simp only; split <;> exact ⟨rfl, rfl⟩
  rw [last, valid]
  cases changed : setpointChanged op h with
  | true => exact ⟨rfl, rfl⟩
  | false =>
    obtain ⟨known, same⟩ : h.lastSpValid = true ∧ op.setpoint = h.lastSp := by simpa [setpointChanged] using changed
    exact ⟨same.symm, known⟩

theorem eventPid_iclamp (c : Config) (op : OpParams) (o : CycleOperands) (en : Bool) (p : Pid) :
    (eventPid c op o en p).iclamp = p.iclamp := by
  unfold eventPid; split <;> rfl

/-- Only the setpoint comparison writes the clamp: neither PID_CLEAR nor PID_UPDATE does (41_pid.md R122). -/
theorem heaterStep_iclamp (c : Config) (op : OpParams) (o : CycleOperands) (f a : Bool) (h : Heater) (p : Pid) :
    (heaterStep c op o f a h p).2.iclamp =
      if setpointChanged op h then BitVec.ofInt 16 (c.iclampFn.apply op.setpoint) else p.iclamp := by
  rw [heaterStep_pid, apply_ite Pid.iclamp, eventPid_iclamp, afterClear_iclamp, afterSetpoint]
  cases setpointChanged op h with
  | true => simp [pidSetIclamp, toHalf]
  | false => simp

/-- Settles O15: each register is the one that the setpoint comparison leaves. -/
theorem cycleDetectsSetpointChange : Obligations.CycleDetectsSetpointChange := by
  intro o s h
  refine ⟨_, exec_cycle_runs h, ?_⟩
  obtain ⟨last, valid⟩ :=
    heaterStep_remembers_setpoint s.cfg s.store.op o (cycleSched o s).sflags.pid (cycleApo o s) s.heater s.pid
  rw [runCycle_spc]
  exact ⟨setpointChanged_eq_decide _ _, last, valid, heaterStep_iclamp _ _ _ _ _ _ _⟩

/-! ### A PID event of a heater that is not regulated -/

/-- A PID event writes the duty and the controller of its enable bit (42_heater_fsm.md R144). -/
theorem runCycle_pidEvent {o : CycleOperands} {s : State}
    (hev : (runCycle o s).sched.sflags.pid = true ∨ (runCycle o s).heater.hs.spc = true) :
    (runCycle o s).heater.duty =
        eventDuty s.cfg s.store.op o (runCycle o s).heater.hs.en (eventStart o s) ∧
      (runCycle o s).pid = eventPid s.cfg s.store.op o (runCycle o s).heater.hs.en (eventStart o s) := by
  simp only [runCycle_sched, runCycle_heater, runCycle_pid, cycleHeat, heaterStep_hs, ← Bool.or_eq_true] at hev ⊢
  rw [heaterStep_pid, heaterStep_duty, if_pos hev, if_pos hev]
  exact ⟨rfl, rfl⟩

theorem eventStart_cleared {o : CycleOperands} {s : State} (h : hasButton o.longHeld .heat = true) :
    eventStart o s = { acc := 0, iclamp := (eventStart o s).iclamp, dbuf := {}, dsum := 0, didx := 0 } := by
  rw [eventStart, h]; rfl

theorem eventStart_kept {o : CycleOperands} {s : State} (h : hasButton o.longHeld .heat = false) :
    eventStart o s = afterSetpoint s.cfg s.store.op s.heater s.pid := by
  rw [eventStart, h]; rfl

/-- A PID event that runs no PID_UPDATE clears the controller on a reset request, and else leaves it as it was, but for
PID_SET_ICLAMP on a setpoint change (42_heater_fsm.md R143, R144). -/
theorem runCycle_pid_of_noUpdate {o : CycleOperands} {s : State} (hpid : (runCycle o s).pid = eventStart o s) :
    ((runCycle o s).heater.hs.rr = true →
      (runCycle o s).pid = { acc := 0, iclamp := (runCycle o s).pid.iclamp, dbuf := {}, dsum := 0, didx := 0 }) ∧
    ((runCycle o s).heater.hs.rr = false → (runCycle o s).heater.hs.spc = false → (runCycle o s).pid = s.pid) ∧
    ((runCycle o s).heater.hs.rr = false → (runCycle o s).heater.hs.spc = true →
      (runCycle o s).pid = pidSetIclamp s.cfg s.store.op.setpoint s.pid) := by
  rw [hpid, runCycle_rr, runCycle_spc]
  refine ⟨eventStart_cleared, fun kept same => ?_, fun kept changed => ?_⟩
  · rw [eventStart_kept kept, afterSetpoint, same]; rfl
  · rw [eventStart_kept kept, afterSetpoint, if_pos changed]

/-- Settles O17: at or above the largest setpoint the event writes DUTY_MAX and runs no update. -/
theorem unregulatedHeaterGetsFullDuty : Obligations.UnregulatedHeaterGetsFullDuty := by
  intro o s h
  refine ⟨_, exec_cycle_runs h, fun hen hev hsp => ?_⟩
  have unreg : unregulated s.cfg s.store.op = true := decide_eq_true hsp
  obtain ⟨hduty, hpid⟩ := runCycle_pidEvent hev
  have full : (runCycle o s).heater.duty = dutyOf s.cfg.dutyMax := by rw [hduty, eventDuty, hen, unreg]; rfl
  have noUpdate : (runCycle o s).pid = eventStart o s := by rw [hpid, eventPid, hen, unreg]; rfl
  refine ⟨fun h0 h1 => ?_, runCycle_pid_of_noUpdate noUpdate⟩
  rw [full, dutyOf_toNat h0 h1]

/-- Settles O18: a disabled heater's event writes 0 and runs no update. -/
theorem disabledHeaterGetsZeroAtPidEvent : Obligations.DisabledHeaterGetsZeroAtPidEvent := by
  intro o s h
  refine ⟨_, exec_cycle_runs h, fun hen hev => ?_⟩
  obtain ⟨hduty, hpid⟩ := runCycle_pidEvent hev
  rw [hen] at hduty hpid
  exact ⟨hduty, runCycle_pid_of_noUpdate hpid⟩

/-! ### A cycle without a PID event -/

theorem runCycle_pid_of_no_event {o : CycleOperands} {s : State} (hpid : (runCycle o s).sched.sflags.pid = false)
    (hspc : (runCycle o s).heater.hs.spc = false) : (runCycle o s).pid = s.pid := by
  rw [runCycle_spc] at hspc
  rw [runCycle_sched] at hpid
  rw [runCycle_pid, cycleHeat, heaterStep_pid, hpid, hspc]
  rfl

/-- Settles O19: neither the duty nor the controller is written without a PID event. -/
theorem dutyHoldsBetweenPidEvents : Obligations.DutyHoldsBetweenPidEvents := by
  intro o s h
  exact ⟨_, exec_cycle_runs h, fun hpid hspc => ⟨runCycle_duty_of_no_event hpid hspc, runCycle_pid_of_no_event hpid hspc⟩⟩

end Sys2Proof.Machine
end

section
/-! The roll/motor FSM (43_roll_fsm.md): the registers that a control cycle leaves under the interlock, under the APO
override and in manual mode with each of its button events, with a resume and with the cycle logic. -/

namespace Sys2Proof.Machine

/-! ### Which branch a cycle takes -/

theorem interlock_iff (o : CycleOperands) :
    interlock o = true ↔
      (hasButton o.raw .fwd = true ∧ hasButton o.raw .rev = true) ∨
        (hasButton o.pressed .fwd = true ∧ hasButton o.pressed .rev = true) := by
  simp [interlock]

theorem interlock_eq_false {o : CycleOperands} (hraw : ¬ (hasButton o.raw .fwd = true ∧ hasButton o.raw .rev = true))
    (hpressed : ¬ (hasButton o.pressed .fwd = true ∧ hasButton o.pressed .rev = true)) : interlock o = false :=
  Bool.eq_false_iff.mpr fun h => ((interlock_iff o).mp h).elim hraw hpressed

theorem longEdge_eq_false {o : CycleOperands} {prev : Bool} (h : ¬ (hasButton o.longHeld .cyc = true ∧ prev = false)) :
    longEdge o prev = false := by
  simpa [longEdge] using h

/-- Around the branch it takes, a cycle forgets `resume` on APO exit and writes the history registers and the
direction-changed flag (43_roll_fsm.md R160, R167, R171). -/
theorem runCycle_roll_of_branch {o : CycleOperands} {s : State} {m : Roll}
    (hm : rollBranch s.cfg s.store.op o (apoActivePort (runCycle o s)) (rollClear s.roll) = m) :
    (runCycle o s).roll =
      { m with
        resume := if s.roll.prevApo = true ∧ apoActivePort (runCycle o s) = false then .stop else m.resume
        prevApo := apoActivePort (runCycle o s), prevCycLong := hasButton o.longHeld .cyc
        dchg := decide (m.dir ≠ s.roll.dir) } := by
  rw [apoActivePort_runCycle] at hm ⊢
  subst hm
  simp [cycleRoll, rollStep, bne, beq_eq_decide]

/-- Settles O24: the interlock's branch writes `dir` alone. -/
theorem interlockStopsMotor : Obligations.InterlockStopsMotor := by
  intro o s hrun hlock
  refine ⟨_, exec_cycle_runs hrun, ?_⟩
  have branch : rollBranch s.cfg s.store.op o (apoActivePort (runCycle o s)) (rollClear s.roll) =
      { rollClear s.roll with dir := .stop } := if_pos ((interlock_iff o).mpr hlock)
  have changed : decide (s.roll.dir ≠ .stop) = decide (Direction.stop ≠ s.roll.dir) := decide_eq_decide.mpr ne_comm
  rw [changed]
  exact runCycle_roll_of_branch branch

/-! ### The APO override -/

theorem hot_iff (c : Config) (o : CycleOperands) :
    hot c o = true ↔
      o.noSensor = true ∨ o.shorted = true ∨ o.tempC.toInt > c.apoRollThresh.toInt + c.apoRollHyst.toInt := by
  simp [hot, sensorErr, or_assoc]

/-- The direction and the resume direction the APO override leaves (43_roll_fsm.md R163). -/
def overrideDirs (c : Config) (o : CycleOperands) (r : Roll) : Direction × Direction :=
  if hot c o then (if r.dir = .stop then .fwd else r.dir, .stop)
  else if o.tempC.toInt ≤ c.apoRollThresh.toInt ∧ r.dir ≠ .stop then (.stop, .fwd)
  else (r.dir, r.resume)

theorem apoOverride_eq (c : Config) (o : CycleOperands) (r : Roll) :
    apoOverride c o r = { r with dir := (overrideDirs c o r).1, resume := (overrideDirs c o r).2 } := by
  have cool : (decide (o.tempC.toInt ≤ c.apoRollThresh.toInt) && r.dir != .stop) = true ↔
      o.tempC.toInt ≤ c.apoRollThresh.toInt ∧ r.dir ≠ .stop := by simp
  simp only [apoOverride, overrideDirs, cool]
  split_ifs <;> rfl

/-- Settles O25: with APO active the branch is the override, and the cycle is no APO exit. -/
theorem apoOverrideDecidesDirection : Obligations.ApoOverrideDecidesDirection := by
  intro o s hrun hraw hpressed
  refine ⟨_, exec_cycle_runs hrun, fun hapo => ?_⟩
  have branch : rollBranch s.cfg s.store.op o (apoActivePort (runCycle o s)) (rollClear s.roll) =
      { rollClear s.roll with
        dir := (overrideDirs s.cfg o s.roll).1, resume := (overrideDirs s.cfg o s.roll).2 } := by
    rw [rollBranch, interlock_eq_false hraw hpressed, hapo]
    exact apoOverride_eq _ _ _
  refine ⟨(overrideDirs s.cfg o s.roll).1, (overrideDirs s.cfg o s.roll).2, ?_, ?_⟩
  · simp only [← hot_iff]; rfl
  · rw [runCycle_roll_of_branch branch, hapo]; simp [rollClear]

/-! ### Manual mode -/

/-- The direction after the direction buttons (43_roll_fsm.md R164). -/
def pressedDir (o : CycleOperands) (d : Direction) : Direction :=
  if hasButton o.pressed .fwd then .fwd else if hasButton o.pressed .rev then .rev else d

/-- The direction after a resume in a cycle with no direction press and no cycle toggle (43_roll_fsm.md R167). -/
def resumedDir (apoExit : Bool) (r : Roll) : Direction := if apoExit = true ∧ r.resume ≠ .stop then r.resume else r.dir

theorem manualDir_eq_false {o : CycleOperands} :
    manualDir o = false ↔ hasButton o.pressed .fwd = false ∧ hasButton o.pressed .rev = false := by
  simp [manualDir]

theorem manualDir_of_ne {o : CycleOperands} (h : hasButton o.pressed .fwd ≠ hasButton o.pressed .rev) :
    manualDir o = true := by
  unfold manualDir
  cases hf : hasButton o.pressed .fwd with
  | true => rfl
  | false => simpa [hf] using h.symm

theorem directionButtons_eq (o : CycleOperands) (r : Roll) :
    directionButtons o r =
      { r with dir := pressedDir o r.dir, fbev := { r.fbev with dirPressed := manualDir o || r.fbev.dirPressed } } := by
  unfold directionButtons pressedDir manualDir
  cases hasButton o.pressed .fwd with
  | true => rfl
  | false => cases hasButton o.pressed .rev <;> rfl

theorem directionButtons_of_no_press {o : CycleOperands} (h : manualDir o = false) (r : Roll) :
    directionButtons o r = r := by
  obtain ⟨hf, hr⟩ := manualDir_eq_false.mp h
  simp [directionButtons, hf, hr]

theorem pressedDir_of_no_press {o : CycleOperands} (h : manualDir o = false) (d : Direction) : pressedDir o d = d := by
  obtain ⟨hf, hr⟩ := manualDir_eq_false.mp h
  simp [pressedDir, hf, hr]

theorem pressedDir_of_press {o : CycleOperands} (h : manualDir o = true) (d : Direction) :
    pressedDir o d = if hasButton o.pressed .fwd then .fwd else .rev := by
  have one : hasButton o.pressed .fwd = true ∨ hasButton o.pressed .rev = true := by simpa [manualDir] using h
  rcases one with hf | hr
  · simp [pressedDir, hf]
  · simp [pressedDir, hr]

/-- A direction press or a cycle toggle keeps the resume and the cycle logic from running (43_roll_fsm.md R167, R169). -/
theorem manualMode_of_button {o : CycleOperands} {edge : Bool} (h : manualDir o = true ∨ cycToggled o edge = true)
    (op : OpParams) (apoExit : Bool) (r : Roll) :
    manualMode op o edge apoExit r = cycleButton op o edge (directionButtons o r) := by
  have busy : (!manualDir o && !cycToggled o edge) = false := by rcases h with h | h <;> simp [h]
  simp [manualMode, busy, applyResume]

/-- Without a direction press or a cycle toggle, the resume and then the cycle logic follow the cycle button. -/
theorem manualMode_of_quiet {o : CycleOperands} {edge : Bool} (hd : manualDir o = false) (ht : cycToggled o edge = false)
    (op : OpParams) (apoExit : Bool) (r : Roll) :
    manualMode op o edge apoExit r =
      if (cycleButton op o edge r).cyc then cycleLogic op o (applyResume apoExit true (cycleButton op o edge r))
      else applyResume apoExit true (cycleButton op o edge r) := by
  have cyc : ∀ r : Roll, (applyResume apoExit true r).cyc = r.cyc := fun r => by rw [applyResume_quiet]
  simp [manualMode, directionButtons_of_no_press hd, hd, ht, cyc]

theorem manualMode_of_no_event {o : CycleOperands} (hd : manualDir o = false) (ht : hasButton o.relShort .cyc = false)
    (op : OpParams) (apoExit : Bool) (r : Roll) :
    manualMode op o false apoExit r =
      if r.cyc then cycleLogic op o { r with dir := resumedDir apoExit r } else { r with dir := resumedDir apoExit r } := by
  have notToggled : cycToggled o false = false := ht
  have button : cycleButton op o false r = r := by simp [cycleButton, notToggled]
  rw [manualMode_of_quiet hd notToggled, button, applyResume_quiet]
  rfl

theorem manualMode_resumes {o : CycleOperands} {r : Roll} (hd : manualDir o = false) (ht : hasButton o.relShort .cyc = false)
    (hc : r.cyc = false) (op : OpParams) (apoExit : Bool) :
    manualMode op o false apoExit r = { r with dir := resumedDir apoExit r } := by
  rw [manualMode_of_no_event hd ht, if_neg (Bool.eq_false_iff.mp hc)]

theorem manualMode_cycles {o : CycleOperands} {r : Roll} (hd : manualDir o = false) (ht : hasButton o.relShort .cyc = false)
    (hc : r.cyc = true) (op : OpParams) (apoExit : Bool) :
    manualMode op o false apoExit r = cycleLogic op o { r with dir := resumedDir apoExit r, cyc := true } := by
  rw [manualMode_of_no_event hd ht, if_pos hc]
  simp only [hc]

/-- The long-press edge ends cycle mode, so that the cycle logic does not run (43_roll_fsm.md R165, R169). -/
theorem manualMode_longPress (op : OpParams) (o : CycleOperands) (apoExit : Bool) (r : Roll) :
    manualMode op o true apoExit r =
      { r with
        dir := pressedDir o (resumedDir apoExit r), cyc := false, epReset := true
        fbev := { r.fbev with dirPressed := manualDir o || r.fbev.dirPressed, pointReset := true } } := by
  cases hd : manualDir o with
  | true =>
    rw [manualMode_of_button (.inl hd), directionButtons_eq, pressedDir_of_press hd, pressedDir_of_press hd, hd]
    rfl
  | false =>
    rw [manualMode_of_quiet hd rfl, applyResume_quiet, pressedDir_of_no_press hd]
    rfl

/-- A short release without a long-press edge toggles cycle mode after the direction buttons (43_roll_fsm.md R166). -/
theorem manualMode_shortRelease {o : CycleOperands} (h : hasButton o.relShort .cyc = true) (op : OpParams) (apoExit : Bool)
    (r : Roll) : manualMode op o false apoExit r = cycleToggle op o (directionButtons o r) := by
  have toggled : cycToggled o false = true := h
  rw [manualMode_of_button (.inr toggled)]
  simp [cycleButton, toggled]

theorem manualMode_press {o : CycleOperands} (hd : manualDir o = true) (ht : hasButton o.relShort .cyc = false)
    (op : OpParams) (apoExit : Bool) (r : Roll) : manualMode op o false apoExit r = directionButtons o r := by
  have notToggled : cycToggled o false = false := ht
  rw [manualMode_of_button (.inl hd)]
  simp [cycleButton, notToggled]

/-- A cycle in manual mode: no interlock, and APO not active (43_roll_fsm.md R160, R164). -/
theorem runCycle_roll_of_manual {o : CycleOperands} {s : State} {edge : Bool} {m : Roll} (hi : interlock o = false)
    (hapo : apoActivePort (runCycle o s) = false) (he : longEdge o s.roll.prevCycLong = edge)
    (hm : manualMode s.store.op o edge s.roll.prevApo (rollClear s.roll) = m) :
    (runCycle o s).roll =
      { m with
        resume := if s.roll.prevApo then .stop else s.roll.resume, prevApo := false
        prevCycLong := hasButton o.longHeld .cyc, dchg := decide (m.dir ≠ s.roll.dir) } := by
  have branch : rollBranch s.cfg s.store.op o (apoActivePort (runCycle o s)) (rollClear s.roll) = m := by
    rw [rollBranch, hi, hapo, ← hm, ← he]
    simp [rollClear]
  have resume : m.resume = s.roll.resume := by rw [← hm, manualMode_resume]; rfl
  rw [runCycle_roll_of_branch branch, hapo, resume]
  simp

/-- Settles O26: the press is the only write of the branch. -/
theorem directionPressSetsDirection : Obligations.DirectionPressSetsDirection := by
  intro o s hrun hraw hone hshort hlong
  have hi : interlock o = false := interlock_eq_false hraw fun ⟨hf, hr⟩ => hone (hf.trans hr.symm)
  have branch := manualMode_press (manualDir_of_ne hone) hshort s.store.op s.roll.prevApo (rollClear s.roll)
  rw [directionButtons_eq, manualDir_of_ne hone] at branch
  exact ⟨_, exec_cycle_runs hrun, fun hapo => ⟨pressedDir o s.roll.dir, pressedDir_of_press (manualDir_of_ne hone) _,
    runCycle_roll_of_manual hi hapo (longEdge_eq_false hlong) branch⟩⟩

/-- Settles O27: the branch is the long press's. -/
theorem longPressResetsEndpoints : Obligations.LongPressResetsEndpoints := by
  intro o s hrun hraw hpressed hlong hprev
  refine ⟨_, exec_cycle_runs hrun, fun hapo => ⟨_, rfl, ?_⟩⟩
  have edge : longEdge o s.roll.prevCycLong = true := by simp [longEdge, hlong, hprev]
  rw [runCycle_roll_of_manual (interlock_eq_false hraw hpressed) hapo edge (manualMode_longPress _ _ _ _), hlong]
  simp only [manualDir, rollClear, Bool.or_false]
  rfl

/-! ### The toggle of cycle mode -/

theorem cycleMayStart_iff (op : OpParams) (o : CycleOperands) :
    cycleMayStart op o = true ↔ o.epValid = true ∧ 1 ≤ op.rollCycles.toNat := by simp [cycleMayStart]

theorem cycleToggle_stops {r : Roll} {op : OpParams} {o : CycleOperands} (h : r.cyc = true) :
    cycleToggle op o r = { r with cyc := false, dir := .stop, fbev := { r.fbev with cycleStopped := true } } := if_pos h

theorem cycleToggle_starts {r : Roll} {op : OpParams} {o : CycleOperands} (h : r.cyc = false)
    (hs : o.epValid = true ∧ 1 ≤ op.rollCycles.toNat) :
    cycleToggle op o r =
      { r with cyc := true, cyclesDone := 0, dir := .fwd, fbev := { r.fbev with cycleStarted := true } } := by
  rw [cycleToggle, h, (cycleMayStart_iff op o).mpr hs]; rfl

theorem cycleToggle_fails {r : Roll} {op : OpParams} {o : CycleOperands} (h : r.cyc = false)
    (hs : ¬ (o.epValid = true ∧ 1 ≤ op.rollCycles.toNat)) :
    cycleToggle op o r = { r with fbev := { r.fbev with cycleStartFail := true } } := by
  rw [cycleToggle, h, Bool.eq_false_iff.mpr (mt (cycleMayStart_iff op o).mp hs)]; rfl

/-- Settles O28: the branch is the toggle of cycle mode after the direction buttons, with its three outcomes. -/
theorem shortReleaseTogglesCycleMode : Obligations.ShortReleaseTogglesCycleMode := by
  intro o s hrun hraw hpressed hshort hlong
  refine ⟨_, exec_cycle_runs hrun, fun hapo => ⟨manualDir o, pressedDir o s.roll.dir, ?_⟩⟩
  have branch := manualMode_shortRelease hshort s.store.op s.roll.prevApo (rollClear s.roll)
  have roll {m : Roll} (h : cycleToggle s.store.op o (directionButtons o (rollClear s.roll)) = m) :=
    runCycle_roll_of_manual (interlock_eq_false hraw hpressed) hapo (longEdge_eq_false hlong) (branch.trans h)
  rw [directionButtons_eq, rollClear, Bool.or_false] at roll
  cases hcyc : s.roll.cyc with
  | true => exact ⟨_, _, _, _, rfl, rfl, rfl, roll (cycleToggle_stops hcyc)⟩
  | false =>
    by_cases may : o.epValid = true ∧ 1 ≤ s.store.op.rollCycles.toNat
    · simp only [if_pos may]
      exact ⟨_, _, _, _, rfl, rfl, rfl, roll (cycleToggle_starts hcyc may)⟩
    · simp only [if_neg may]
      exact ⟨_, _, _, _, rfl, rfl, rfl, (roll (cycleToggle_fails hcyc may)).trans (by rw [hcyc])⟩

/-! ### The resume and the cycle logic -/

/-- Settles O29: with cycle mode off the branch is the resume alone. -/
theorem resumeIsAppliedOnceOnApoExit : Obligations.ResumeIsAppliedOnceOnApoExit := by
  intro o s hrun hraw hf hr hshort hlong hcyc
  have hi : interlock o = false := interlock_eq_false hraw (by simp [hf])
  have branch :=
    manualMode_resumes (r := rollClear s.roll) (manualDir_eq_false.mpr ⟨hf, hr⟩) hshort hcyc s.store.op s.roll.prevApo
  exact ⟨_, exec_cycle_runs hrun, fun hapo => ⟨resumedDir s.roll.prevApo s.roll, rfl,
    runCycle_roll_of_manual hi hapo (longEdge_eq_false hlong) branch⟩⟩

theorem nextCyclesDone_toNat (n : Byte) : (nextCyclesDone n).toNat = min (n.toNat + 1) 255 := by
  unfold nextCyclesDone
  split <;> bv_omega

theorem nextCyclesDone_eq (n : Byte) : nextCyclesDone n = BitVec.ofNat 8 (min (n.toNat + 1) 255) := by
  rw [← nextCyclesDone_toNat, BitVec.ofNat_toNat, BitVec.setWidth_eq]

theorem cycleLogic_reverses {r : Roll} {op : OpParams} {o : CycleOperands} (h : r.dir = .fwd ∧ o.atFwdEnd = true) :
    cycleLogic op o r = { r with dir := .rev, fbev := { r.fbev with dirAuto := true } } := if_pos (by simpa using h)

theorem cycleLogic_completes {r : Roll} {op : OpParams} {o : CycleOperands} (h : r.dir = .rev ∧ o.atRevEnd = true)
    (hn : op.rollCycles.toNat ≤ min (r.cyclesDone.toNat + 1) 255) :
    cycleLogic op o r =
      { r with
        cyclesDone := BitVec.ofNat 8 (min (r.cyclesDone.toNat + 1) 255), dir := .stop, cyc := false, ccomp := true
        fbev := { r.fbev with cycleComplete := true } } := by
  rw [← nextCyclesDone_toNat] at hn
  rw [← nextCyclesDone_eq]
  simp [cycleLogic, h, hn]

theorem cycleLogic_continues {r : Roll} {op : OpParams} {o : CycleOperands} (h : r.dir = .rev ∧ o.atRevEnd = true)
    (hn : ¬ op.rollCycles.toNat ≤ min (r.cyclesDone.toNat + 1) 255) :
    cycleLogic op o r =
      { r with
        cyclesDone := BitVec.ofNat 8 (min (r.cyclesDone.toNat + 1) 255), dir := .fwd
        fbev := { r.fbev with dirAuto := true } } := by
  rw [← nextCyclesDone_toNat] at hn
  rw [← nextCyclesDone_eq]
  simp [cycleLogic, h, hn]

theorem cycleLogic_between {r : Roll} {op : OpParams} {o : CycleOperands} (hf : ¬ (r.dir = .fwd ∧ o.atFwdEnd = true))
    (hr : ¬ (r.dir = .rev ∧ o.atRevEnd = true)) : cycleLogic op o r = r := by
  rw [cycleLogic, if_neg (by simpa using hf), if_neg (by simpa using hr)]

/-- Settles O30: the branch is the cycle logic from the resumed direction, with its four outcomes. -/
theorem cycleLogicFollowsEndpoints : Obligations.CycleLogicFollowsEndpoints := by
  intro o s hrun hraw hf hr hshort hlong hcyc
  refine ⟨_, exec_cycle_runs hrun, fun hapo => ⟨resumedDir s.roll.prevApo s.roll, ?_⟩⟩
  have hi : interlock o = false := interlock_eq_false hraw (by simp [hf])
  have branch :=
    manualMode_cycles (r := rollClear s.roll) (manualDir_eq_false.mpr ⟨hf, hr⟩) hshort hcyc s.store.op s.roll.prevApo
  have roll {m : Roll} (h : cycleLogic s.store.op o _ = m) :=
    runCycle_roll_of_manual hi hapo (longEdge_eq_false hlong) (branch.trans h)
  have kept : BitVec.ofNat 8 s.roll.cyclesDone.toNat = s.roll.cyclesDone := by simp
  by_cases fwdEnd : resumedDir s.roll.prevApo s.roll = .fwd ∧ o.atFwdEnd = true
  · simp only [if_pos fwdEnd]
    refine ⟨_, _, _, _, _, rfl, rfl, ?_⟩
    rw [kept]
    exact roll (cycleLogic_reverses fwdEnd)
  · simp only [if_neg fwdEnd]
    by_cases revEnd : resumedDir s.roll.prevApo s.roll = .rev ∧ o.atRevEnd = true
    · simp only [if_pos revEnd]
      by_cases done : s.store.op.rollCycles.toNat ≤ min (s.roll.cyclesDone.toNat + 1) 255
      · simp only [if_pos done]
        exact ⟨_, _, _, _, _, rfl, rfl, roll (cycleLogic_completes revEnd done)⟩
      · simp only [if_neg done]
        exact ⟨_, _, _, _, _, rfl, rfl, roll (cycleLogic_continues revEnd done)⟩
    · simp only [if_neg revEnd]
      refine ⟨_, _, _, _, _, rfl, rfl, ?_⟩
      rw [kept]
      exact roll (cycleLogic_between fwdEnd revEnd)

end Sys2Proof.Machine
end

section
/-! The parameter store (44_param_store.md): the vectors of the CRC and the single-byte changes it detects, what the saves and
PS_LOAD leave of a block, and what a load finds after a round trip, a corrupted byte or a torn save. -/

namespace Sys2Proof.Machine

/-! ### The CRC -/

/-- Settles O33: each value is the one R190's pseudocode computes. -/
theorem crcVectors : Obligations.CrcVectors := by
  unfold Obligations.CrcVectors
  decide +kernel

theorem crcByte_left_inj (b : Byte) : Function.Injective fun c => crcByte 0x8C c b :=
  fun _ _ h => (BitVec.xor_left_inj _).mp (crcShift_inj h)

theorem crcByte_right_inj (c : Byte) : Function.Injective (crcByte 0x8C c) :=
  fun _ _ h => (BitVec.xor_right_inj _).mp (crcShift_inj h)

/-- Two running CRCs that differ still differ after any further bytes. -/
theorem foldl_crcByte_inj (bs : List Byte) : Function.Injective fun c => bs.foldl (crcByte 0x8C) c := by
  induction bs with
  | nil => exact fun _ _ h => h
  | cons b bs ih => exact ih.comp (crcByte_left_inj b)

/-- A change of one byte of a range changes its running CRC, whatever the CRC before it. -/
theorem foldl_crcByte_bytesAt_write_ne {m : Memory} {a : Nat} {v : Byte} (hv : v ≠ Memory.read m a) {base len : Nat}
    (hlo : base ≤ a) (hhi : a < base + len) (c : Byte) :
    (bytesAt (Memory.write m a v) base len).foldl (crcByte 0x8C) c ≠ (bytesAt m base len).foldl (crcByte 0x8C) c := by
  induction len generalizing base c with
  | zero => omega
  | succ len ih =>
    simp only [bytesAt_succ, List.foldl_cons]
    by_cases hab : a = base
    · subst hab
      have tail : bytesAt (Memory.write m a v) (a + 1) len = bytesAt m (a + 1) len :=
        bytesAt_congr fun b hb _ => Memory.read_write_ne (by omega) m v
      rw [tail, Memory.read_write_same]
      exact fun h => hv (crcByte_right_inj c (foldl_crcByte_inj _ h))
    · rw [Memory.read_write_ne (Ne.symm hab)]
      exact ih (by omega) (by omega) _

/-- A change of any one byte of a valid block, CRC byte included, is detected (44_param_store.md R198). -/
theorem blockValid_write_eq_false {m : Memory} {base len a : Nat} {v : Byte} (hm : blockValid 0x8C m base len = true)
    (hv : v ≠ Memory.read m a) (hlo : base ≤ a) (hhi : a ≤ base + len) :
    blockValid 0x8C (Memory.write m a v) base len = false := by
  have hcrc : crc8 0x8C (bytesAt m base len) = Memory.read m (base + len) := eq_of_beq hm
  refine beq_eq_false_iff_ne.mpr ?_
  by_cases hend : a = base + len
  · subst hend
    have image : bytesAt (Memory.write m (base + len) v) base len = bytesAt m base len :=
      bytesAt_congr fun b _ hb => Memory.read_write_ne (by omega) m v
    rw [image, Memory.read_write_same, hcrc]
    exact hv.symm
  · rw [Memory.read_write_ne (Ne.symm hend), ← hcrc]
    exact foldl_crcByte_bytesAt_write_ne hv hlo (by omega) 0

/-! ### The saves and the write commands -/

theorem blockStored_congr {poly : Byte} {m m' : Memory} {base : Nat} {img : List Byte} (h : blockStored poly m base img)
    (hr : ∀ a, base ≤ a → a ≤ base + img.length → Memory.read m' a = Memory.read m a) : blockStored poly m' base img := by
  obtain ⟨himg, hcrc⟩ := h
  exact ⟨(bytesAt_congr fun b h1 h2 => hr b h1 h2.le).trans himg, (hr _ (by omega) (by omega)).trans hcrc⟩

theorem read_saved_outside {n : NvStore} {base a : Nat} {bs : List Byte} (h : ¬ (base ≤ a ∧ a < base + bs.length)) :
    Memory.read (replayWrites n (savedWrites n.bytes base bs)).bytes a = Memory.read n.bytes a :=
  (read_saved n base bs a).trans (dif_neg h)

/-- What a complete save of the active OperatingParams leaves (44_param_store.md R192, R194). -/
theorem savedOp_spec {s : State} (hn : NvFits s.cfg) :
    blockStored 0x8C (savedOp s).bytes 0 (serOp s.store.op) ∧
      (∀ a, ¬ a < 6 → Memory.read (savedOp s).bytes a = Memory.read s.nv.bytes a) ∧
      (savedOp s).history =
        s.nv.history ++ savedWrites s.nv.bytes 0 (serOp s.store.op ++ [crc8 0x8C (serOp s.store.op)]) := by
  rw [savedOp_eq hn]
  exact ⟨blockStored_saved 0x8C _ 0 _, fun a ha => read_saved_outside fun h => ha h.2, replayWrites_history _ _⟩

/-- What a complete save of the active CalibrationParams leaves (44_param_store.md R192, R195). -/
theorem savedCal_spec {s : State} (hn : NvFits s.cfg) :
    blockStored 0x8C (savedCal s).bytes 6 (serCal s.store.cal) ∧
      (∀ a, ¬ (6 ≤ a ∧ a < 15) → Memory.read (savedCal s).bytes a = Memory.read s.nv.bytes a) ∧
      (savedCal s).history =
        s.nv.history ++ savedWrites s.nv.bytes 6 (serCal s.store.cal ++ [crc8 0x8C (serCal s.store.cal)]) := by
  rw [savedCal_eq hn]
  exact ⟨blockStored_saved 0x8C _ 6 _, fun a ha => read_saved_outside ha, replayWrites_history _ _⟩

/-- Settles O35: the command runs, and its save's writes lie in the six addresses from 0. -/
theorem saveOpStoresTheRecord : Obligations.SaveOpStoresTheRecord := by
  intro s hc hf hh hl
  have hn := nvFits_of_wellFormed hc hf
  exact ⟨_, exec_psSaveOp_runs hn hh hl, rfl, savedOp_spec hn⟩

/-- Settles O36: the command runs, and its save's writes lie in the nine addresses from 6. -/
theorem saveCalStoresTheRecord : Obligations.SaveCalStoresTheRecord := by
  intro s hc hf hh hl
  have hn := nvFits_of_wellFormed hc hf
  exact ⟨_, exec_psSaveCal_runs hn hh hl, rfl, savedCal_spec hn⟩

/-- Settles O38: a running, loaded core passes both of the write commands' checks. -/
theorem writeCommandsReplaceTheRecord : Obligations.WriteCommandsReplaceTheRecord := by
  intro s hh hl
  have performs (o : Host.Outcome State Fault Refusal) : unlessHalted s (ifLoaded s o) = o :=
    (unlessHalted_running hh _).trans (ifLoaded_loaded hl o)
  exact ⟨fun _ => performs _, fun _ => performs _⟩

/-! ### The blocks PS_LOAD takes -/

theorem loadedOf_valid {n : NvStore} {base len : Nat} (h : blockValid 0x8C n.bytes base len = true) (d : List Byte) :
    loadedOf 0x8C n base len d = { img := bytesAt n.bytes base len, dflt := false, nv := n } := if_pos h

theorem loadedOf_invalid {n : NvStore} {base len : Nat} (h : blockValid 0x8C n.bytes base len = false) (d : List Byte) :
    loadedOf 0x8C n base len d =
      { img := d, dflt := true, nv := replayWrites n (savedWrites n.bytes base (d ++ [crc8 0x8C d])) } :=
  if_neg (ne_true_of_eq_false h)

/-- PS_LOAD takes a stored block as it is. -/
theorem loadedOf_stored {n : NvStore} {base len : Nat} {img : List Byte} (h : blockStored 0x8C n.bytes base img)
    (hl : img.length = len) (d : List Byte) : loadedOf 0x8C n base len d = { img := img, dflt := false, nv := n } := by
  rw [loadedOf_valid (blockValid_of_stored h hl), ← hl, h.1]

/-- PS_LOAD's step for a block leaves every address outside the block alone. -/
theorem read_loadedOf_outside {base len a : Nat} {d : List Byte} (hd : d.length = len) (ha : a < base ∨ base + len < a)
    (n : NvStore) : Memory.read (loadedOf 0x8C n base len d).nv.bytes a = Memory.read n.bytes a := by
  rw [loadedOf_nv]
  refine replayWrites_read_ne fun c hc => ?_
  have := defaultWrites_range hd hc
  omega

theorem read_loadedOp_of_ge {s : State} (hn : NvFits s.cfg) {a : Nat} (ha : 6 ≤ a) :
    Memory.read (loadedOp s).nv.bytes a = Memory.read s.nv.bytes a := by
  rw [loadedOp_eq hn]
  exact read_loadedOf_outside hn.defOp (.inr (by omega)) _

theorem read_loadedCal_outside {s : State} (hn : NvFits s.cfg) {a : Nat} (ha : a < 6 ∨ 14 < a) :
    Memory.read (loadedCal s).nv.bytes a = Memory.read (loadedOp s).nv.bytes a := by
  rw [loadedCal_eq hn]
  exact read_loadedOf_outside hn.defCal ha _

/-- The OperatingParams block's step leaves the CalibrationParams block as valid as it was. -/
theorem blockValid_loadedOp_cal {s : State} (hn : NvFits s.cfg) :
    blockValid 0x8C (loadedOp s).nv.bytes 6 8 = blockValid 0x8C s.nv.bytes 6 8 :=
  blockValid_congr 0x8C fun _ ha _ => read_loadedOp_of_ge hn ha

/-- Settles O37: each block's step leaves the other block's bytes alone, and its two cases are those of VALIDATE. -/
theorem loadTakesImageOrDefault : Obligations.LoadTakesImageOrDefault := by
  intro s hc hf hh
  have hn := nvFits_of_wellFormed hc hf
  refine ⟨_, exec_psLoad_runs hn hh, rfl, rfl, fun valid => ?_, fun invalid => ?_, fun valid => ?_, fun invalid => ?_,
    fun a ha => ?_, ?_⟩
  · have op := (loadedOp_eq hn).trans (loadedOf_valid valid _)
    refine ⟨by simp [op], by simp [op], fun a ha => ?_⟩
    rw [afterLoad_nv, read_loadedCal_outside hn (.inl ha), op]
  · have op := (loadedOp_eq hn).trans (loadedOf_invalid invalid _)
    have stored : blockStored 0x8C (loadedOp s).nv.bytes 0 s.cfg.defOp := by
      rw [op]; exact blockStored_saved 0x8C s.nv 0 _
    refine ⟨by simp [op], by simp [op], blockStored_congr stored fun a _ ha => read_loadedCal_outside hn (.inl ?_)⟩
    rw [hn.defOp] at ha
    omega
  · have cal := (loadedCal_eq hn).trans (loadedOf_valid ((blockValid_loadedOp_cal hn).trans valid) _)
    have image : bytesAt (loadedOp s).nv.bytes 6 8 = bytesAt s.nv.bytes 6 8 :=
      bytesAt_congr fun _ ha _ => read_loadedOp_of_ge hn ha
    refine ⟨by simp [cal, image], by simp [cal], fun a ha _ => ?_⟩
    rw [afterLoad_nv, cal]
    exact read_loadedOp_of_ge hn ha
  · have cal := (loadedCal_eq hn).trans (loadedOf_invalid ((blockValid_loadedOp_cal hn).trans invalid) _)
    refine ⟨by simp [cal], by simp [cal], ?_⟩
    rw [afterLoad_nv, cal]
    exact blockStored_saved 0x8C _ 6 _
  · rw [afterLoad_nv, read_loadedCal_outside hn (.inr (by omega)), read_loadedOp_of_ge hn (by omega)]
  · rw [afterLoad_nv, loadedCal_nv hn, replayWrites_history, List.append_assoc]
    rfl

/-! ### Round trip and corruption -/

/-- PS_LOAD from a store that holds the images of both records takes these records and leaves the store as it is. -/
theorem exec_psLoad_stored {s : State} (hn : NvFits s.cfg) (hh : s.sys.halted = false) {op : OpParams} {cal : CalParams}
    (hop : blockStored 0x8C s.nv.bytes 0 (serOp op)) (hcal : blockStored 0x8C s.nv.bytes 6 (serCal cal)) :
    exec .psLoad s = .next { s with store := { op := op, cal := cal, loaded := true, defaultsUsed := {} } } := by
  have opBlock : loadedOp s = { img := serOp op, dflt := false, nv := s.nv } :=
    (loadedOp_eq hn).trans (loadedOf_stored hop rfl _)
  have calBlock : loadedCal s = { img := serCal cal, dflt := false, nv := s.nv } := by
    rw [loadedCal_eq hn, opBlock]
    exact loadedOf_stored hcal rfl _
  rw [exec_psLoad_runs hn hh, opBlock, calBlock, afterLoad, deOp_serOp, deCal_serCal]

/-- Settles O39: the second save leaves the first one's block stored, and PS_LOAD takes stored blocks as they are. -/
theorem saveThenLoadRoundTrip : Obligations.SaveThenLoadRoundTrip := by
  intro s hc hf hh hl
  have hn := nvFits_of_wellFormed hc hf
  obtain ⟨op1, -, -⟩ := savedOp_spec hn
  obtain ⟨cal2, outside, -⟩ := savedCal_spec (s := { s with nv := savedOp s }) hn
  have op2 : blockStored 0x8C (savedCal { s with nv := savedOp s }).bytes 0 (serOp s.store.op) := by
    refine blockStored_congr op1 fun a _ ha => outside a fun h => ?_
    have : a ≤ 0 + 5 := ha
    omega
  have load := exec_psLoad_stored (s := { s with nv := savedCal { s with nv := savedOp s } }) hn hh op2 cal2
  exact ⟨_, _, _, exec_psSaveOp_runs hn hh hl, exec_psSaveCal_runs hn hh hl, load, rfl, rfl, rfl, rfl⟩

/-- Settles O40: the change makes the block invalid, so PS_LOAD stores its default, which the second PS_LOAD takes as a stored
block. -/
theorem singleByteCorruptionHeals : Obligations.SingleByteCorruptionHeals := by
  intro s a v hc hf hh hv
  have hn := nvFits_of_wellFormed hc hf
  obtain ⟨t, run1, frame, -, -, op1, -, cal1, -, -⟩ :=
    loadTakesImageOrDefault { s with nv := { s.nv with bytes := Memory.write s.nv.bytes a v } } hc hf hh
  have hcfg : t.cfg = s.cfg := by rw [frame]
  have hsys : t.sys = s.sys := by rw [frame]
  obtain ⟨u, run2, -, -, op2, -, cal2, -, -, -⟩ :=
    loadTakesImageOrDefault t (hcfg ▸ hc) (hcfg ▸ hf) (hsys ▸ hh)
  refine ⟨t, u, run1, run2, fun valid ha => ?_, fun valid hlo hhi => ?_⟩
  · obtain ⟨op, used, stored⟩ := op1 (blockValid_write_eq_false valid hv (by omega) (by omega))
    obtain ⟨op', used', -⟩ := op2 (blockValid_of_stored stored hn.defOp)
    have image : bytesAt t.nv.bytes 0 5 = s.cfg.defOp := by simpa [hn.defOp] using stored.1
    exact ⟨op, used, op'.trans (congrArg deOp image), used'⟩
  · obtain ⟨cal, used, stored⟩ := cal1 (blockValid_write_eq_false valid hv hlo (by omega))
    obtain ⟨cal', used', -⟩ := cal2 (blockValid_of_stored stored hn.defCal)
    have image : bytesAt t.nv.bytes 6 8 = s.cfg.defCal := by simpa [hn.defCal] using stored.1
    exact ⟨cal, used, cal'.trans (congrArg deCal image), used'⟩

/-! ### A torn save -/

/-- PS_SAVE_OP cut by reset leaves the first `k` writes of its save, and a core that runs (20_memory.md R74). -/
theorem step_psSaveOp_cut {s : State} {a : Agent} {k : Nat} {ts : List Turn} {rest : List Byte}
    (hc : s.cfg.wellFormed = true) (hf : s.cfg.nvFormat = {}) (hh : s.sys.halted = false) (hl : s.store.loaded = true)
    (hs : s.env.schedule = .commandCut a k :: ts) (hd : decode (pendingBytes a s.env) = .command .psSaveOp rest) :
    ∃ t, step s = .next t ∧ t.cfg = s.cfg ∧ t.sys.halted = false ∧
      t.nv = replayWrites s.nv
        ((savedWrites s.nv.bytes 0 (serOp s.store.op ++ [crc8 0x8C (serOp s.store.op)])).take k) := by
  have hn := nvFits_of_wellFormed hc hf
  exact ⟨_, step_commandCut hc hh hs hd rfl (exec_psSaveOp_runs hn hh hl), rfl, rfl,
    tornReset_nv (s := dropTurn ts s) (savedOp_eq (s := dropTurn ts s) hn) k⟩

/-- An NV store whose OperatingParams block is six bytes 0: a valid block, since the CRC of five bytes 0 is 0. -/
def zeroBlock : Memory := (List.range 6).map fun a => (a, 0)

/-- A record whose image begins with 0x01 and the CRC of that byte, 0x5E. Over `zeroBlock` these two bytes leave a valid
block, the first of them alone does not, and the third byte of the image makes it another one. -/
def collidingOp : OpParams := { setpoint := 0x5E01, rollCycles := 1, soundEn := 0, apoTimeout := 0 }

/-- About to save `collidingOp` over `zeroBlock`, with reset falling after `k` of the writes. -/
def tornStart (k : Nat) : State :=
  { State.powerOn Config.exampleE zeroBlock with
    store :=
      { op := collidingOp, cal := { c1 := 0, r1 := 0, c2 := 0, r2 := 0 }, loaded := true, defaultsUsed := {} }
    env := { hostIn := [0x11], schedule := [.commandCut .host k] } }

/-- The bytes the torn save leaves: those of its first `k` writes over `zeroBlock`. -/
def tornBytes (k : Nat) : Memory :=
  (replayWrites { bytes := zeroBlock, history := [] }
    ((savedWrites zeroBlock 0 (serOp collidingOp ++ [crc8 0x8C (serOp collidingOp)])).take k)).bytes

/-- The torn save, and the PS_LOAD after it, which validates the bytes the save left. -/
theorem tornStart_load (k : Nat) :
    ∃ t u, step (tornStart k) = .next t ∧ t.nv.bytes = tornBytes k ∧ exec .psLoad t = .next u ∧
      (blockValid 0x8C (tornBytes k) 0 5 = true →
        u.store.op = deOp (bytesAt (tornBytes k) 0 5) ∧ u.store.defaultsUsed.op = false) ∧
      (blockValid 0x8C (tornBytes k) 0 5 = false → u.store.defaultsUsed.op = true) := by
  have hc : Config.exampleE.wellFormed = true := by decide +kernel
  obtain ⟨t, cut, hcfg, hrun, hnv⟩ :=
    step_psSaveOp_cut (s := tornStart k) hc rfl rfl rfl rfl (decodeOfEncode .psSaveOp [])
  have bytes : t.nv.bytes = tornBytes k := congrArg NvStore.bytes hnv
  obtain ⟨u, load, -, -, valid, invalid, -⟩ := loadTakesImageOrDefault t (hcfg ▸ hc) (hcfg ▸ rfl) hrun
  rw [bytes] at valid invalid
  refine ⟨t, u, cut, bytes, load, fun h => ?_, fun h => ?_⟩
  · obtain ⟨op, used, -⟩ := valid h
    exact ⟨op, used⟩
  · obtain ⟨-, used, -⟩ := invalid h
    exact used

/-- Settles O58: over `zeroBlock` the first two writes of the save collide with the CRC byte that is still there, and the first
one alone does not. -/
theorem tornSaveMayPassOrFail : Obligations.TornSaveMayPassOrFail := by
  intro accepted
  cases accepted with
  | false =>
    obtain ⟨t, u, cut, -, load, -, invalid⟩ := tornStart_load 1
    exact ⟨tornStart 1, t, u, rfl, rfl, by decide +kernel, ⟨1, [], rfl⟩, rfl, cut, load, invalid (by decide +kernel), nofun⟩
  | true =>
    obtain ⟨t, u, cut, bytes, load, valid, -⟩ := tornStart_load 2
    obtain ⟨op, used⟩ := valid (by decide +kernel)
    refine ⟨tornStart 2, t, u, rfl, rfl, by decide +kernel, ⟨2, [], rfl⟩, rfl, cut, load, used, fun _ => ?_⟩
    rw [op, bytes]
    decide +kernel

end Sys2Proof.Machine
end

section
/-! The system commands (45_system.md): the calibration bit, which no command but SET_CAL_MODE uses, the registers and NV bytes
that a control cycle leaves alone, a CYCLE that waits for `ready`, power loss, and the halted core. -/

namespace Sys2Proof.Machine

/-! ### The calibration bit -/

/-- The state with another calibration bit (45_system.md R216). -/
def withCal (v : Bool) (s : State) : State :=
  { s with heater := { s.heater with hs := { s.heater.hs with cal := v } } }

/-- An outcome's next state changed by `f`; a fault or a refusal stays. -/
def mapNext (f : State → State) : Host.Outcome State Fault Refusal → Host.Outcome State Fault Refusal
  | .next t => .next (f t)
  | .fault e => .fault e
  | .refused r => .refused r

theorem unlessHalted_withCal {v : Bool} {s : State} {o o' : Host.Outcome State Fault Refusal}
    (h : o' = mapNext (withCal v) o) : unlessHalted (withCal v s) o' = mapNext (withCal v) (unlessHalted s o) := by
  subst h
  exact (apply_ite (mapNext (withCal v)) (s.sys.halted = true) (.next s) o).symm

theorem ifLoaded_withCal {v : Bool} {s : State} {o o' : Host.Outcome State Fault Refusal}
    (h : o' = mapNext (withCal v) o) : ifLoaded (withCal v s) o' = mapNext (withCal v) (ifLoaded s o) := by
  subst h
  exact (apply_ite (mapNext (withCal v)) (s.store.loaded = true) o (.next (raiseFault .notLoaded s))).symm

/-- An NV operation that does not see the bit answers alike, whatever the bit is. -/
theorem ofNv_withCal (v : Bool) (r : Except Fault NvStore) (f : NvStore → State) :
    ofNv r (fun n => withCal v (f n)) = mapNext (withCal v) (ofNv r f) := by
  cases r <;> rfl

theorem heaterButtons_withCal (o : CycleOperands) (a v : Bool) (hs : HeaterBits) :
    heaterButtons o a { hs with cal := v } = { heaterButtons o a hs with cal := v } := by
  unfold heaterButtons; simp only; split <;> split <;> rfl

/-- HEATER_STEP carries the bit through and lets no other register see it (42_heater_fsm.md R145). -/
theorem heaterStep_withCal (c : Config) (op : OpParams) (o : CycleOperands) (f a v : Bool) (h : Heater) (p : Pid) :
    heaterStep c op o f a { h with hs := { h.hs with cal := v } } p =
      ({ (heaterStep c op o f a h p).1 with hs := { (heaterStep c op o f a h p).1.hs with cal := v } },
        (heaterStep c op o f a h p).2) := by
  have event : pidEvent f op { h with hs := { h.hs with cal := v } } = pidEvent f op h := rfl
  unfold heaterStep
  rw [heaterButtons_withCal, event]
  cases pidEvent f op h <;> rfl

theorem runCycle_withCal (o : CycleOperands) (v : Bool) (s : State) :
    runCycle o (withCal v s) = withCal v (runCycle o s) := by
  have heat : cycleHeat o (withCal v s) = _ := heaterStep_withCal _ _ _ _ _ v s.heater s.pid
  unfold runCycle
  rw [heat]
  rfl

theorem execCycle_withCal (o : CycleOperands) (v : Bool) (s : State) :
    execCycle o (withCal v s) = mapNext (withCal v) (execCycle o s) := by
  have ready : (withCal v s).tick.ready = s.tick.ready := rfl
  refine unlessHalted_withCal ?_
  rw [ready, apply_ite (mapNext (withCal v)), apply_ite (mapNext (withCal v)),
    ← ifLoaded_withCal (congrArg Host.Outcome.next (runCycle_withCal o v s))]
  rfl

theorem execPsLoad_withCal (v : Bool) (s : State) : execPsLoad (withCal v s) = mapNext (withCal v) (execPsLoad s) := by
  have blocks : loadBlocks (withCal v s).cfg (withCal v s).nv = loadBlocks s.cfg s.nv := rfl
  refine unlessHalted_withCal ?_
  rw [blocks]
  cases loadBlocks s.cfg s.nv <;> rfl

/-- A command but SET_CAL_MODE runs from another calibration bit as it runs from this one (45_system.md R216). -/
theorem exec_withCal {i : Instr} (hi : ∀ w rsv, i ≠ .setCalMode w rsv) (v : Bool) (s : State) :
    exec i (withCal v s) = mapNext (withCal v) (exec i s) := by
  cases i with
  | tick => exact unlessHalted_withCal rfl
  | cycle o => exact execCycle_withCal o v s
  | psLoad => exact execPsLoad_withCal v s
  | psSaveOp => exact unlessHalted_withCal (ifLoaded_withCal (ofNv_withCal v (saveOp s) fun n => { s with nv := n }))
  | psSaveCal => exact unlessHalted_withCal (ifLoaded_withCal (ofNv_withCal v (saveCal s) fun n => { s with nv := n }))
  | psWriteOp p | psWriteCal p => exact unlessHalted_withCal (ifLoaded_withCal rfl)
  | powerLoss => exact unlessHalted_withCal (ofNv_withCal v (finalSave s) (afterPowerLoss s))
  | setCalMode w rsv => exact absurd rfl (hi w rsv)

/-- Settles O44: the two outcomes differ in the bit alone; run with the bit the state has, they show that it is kept. -/
theorem calModeChangesNothingElse : Obligations.CalModeChangesNothingElse := by
  intro i s t v hi h
  have other (w : Bool) : exec i (withCal w s) = .next (withCal w t) := by rw [exec_withCal hi, h]; rfl
  have same : t = withCal s.heater.hs.cal t := Host.Outcome.next.inj (h.symm.trans (other s.heater.hs.cal))
  refine ⟨?_, other v⟩
  rw [same]
  rfl

/-- Settles O43: a running core passes the only two checks of SET_CAL_MODE. -/
theorem setCalModeWritesCal : Obligations.SetCalModeWritesCal := by
  intro v s hh
  exact unlessHalted_running hh _

/-! ### The control cycle -/

/-- Settles O31: each register is the one `runCycle` writes or leaves. -/
theorem cycleFrame : Obligations.CycleFrame := by
  intro o s h
  exact ⟨_, exec_cycle_runs h, rfl, rfl, rfl, fun _ => rfl⟩

theorem exec_cycle_holds {o : CycleOperands} {s : State} (hh : s.sys.halted = false) (ho : o.reservedClear = true)
    (hr : s.tick.ready = false) : exec (.cycle o) s = .next s := by
  simp [exec, execCycle, unlessHalted_running hh, ho, hr]

theorem runCommand_waits {a : Agent} {s : State} {i : Instr} {rest : List Byte} (hh : s.sys.halted = false)
    (hd : decode (pendingBytes a s.env) = .command i rest) (hw : waits i s = true) : runCommand a s = .next s := by
  simp [runCommand, hh, hd, hw]

/-- Settles O32: the CYCLE waits, so that its bytes stay pending. -/
theorem cycleHoldsUntilReady : Obligations.CycleHoldsUntilReady := by
  intro o s hh ho hr
  refine ⟨exec_cycle_holds hh ho hr, fun a ts rest hc hs hd => ?_⟩
  have hw : waits (.cycle o) (dropTurn ts s) = true := by simp [waits, ho, hr]
  rw [step_command hc hs]
  exact runCommand_waits (s := dropTurn ts s) hh ((pendingBytes_dropTurn a ts s).symm ▸ hd) hw

/-! ### Power loss and the halted core -/

/-- Settles O45: POWER_LOSS runs, and its save, where it makes one, is that of PS_SAVE_OP. -/
theorem powerLossSavesAndHalts : Obligations.PowerLossSavesAndHalts := by
  intro s hc hf hh
  have hn := nvFits_of_wellFormed hc hf
  refine ⟨_, exec_powerLoss_runs hn hh, rfl, ?_⟩
  rw [afterPowerLoss_nv]
  cases hl : s.store.loaded with
  | false => exact ⟨fun _ => rfl, nofun, fun _ _ => rfl⟩
  | true =>
    obtain ⟨stored, outside, history⟩ := savedOp_spec hn
    exact ⟨nofun, fun _ => ⟨stored, history⟩, outside⟩

theorem exec_halted {s : State} (hh : s.sys.halted = true) (i : Instr) : exec i s = .next s := by
  cases i with
  | tick | cycle o | psLoad | psSaveOp | psSaveCal | psWriteOp p | psWriteCal p | setCalMode v rsv | powerLoss =>
    exact unlessHalted_halted hh _

theorem runCommand_halted {s : State} (hh : s.sys.halted = true) (a : Agent) : runCommand a s = .next s := if_pos hh

/-- Settles O50: a command's turn on a halted core is taken and does nothing, so that of the kinds of turn only the two in
which reset falls leave the halted state. -/
theorem haltedCoreTakesNoCommand : Obligations.HaltedCoreTakesNoCommand := by
  intro s hh
  refine ⟨exec_halted hh, fun a ts hc hs => ?_, fun t h ht => ?_⟩
  · rw [step_command hc hs]
    exact runCommand_halted (s := dropTurn ts s) hh a
  · obtain ⟨-, ⟨-, rfl⟩ | ⟨ts, hs, -⟩ | ⟨a, ts, -, hr⟩ | ⟨a, k, ts, u, hs, -, -⟩⟩ := step_cases h
    · exact nomatch hh.symm.trans ht
    · exact .inl ⟨ts, hs⟩
    · obtain rfl := Host.Outcome.next.inj ((runCommand_halted (s := dropTurn ts s) hh a).symm.trans hr)
      exact nomatch hh.symm.trans ht
    · exact .inr ⟨a, k, ts, hs⟩

end Sys2Proof.Machine
end

section
/-! The core's faults (60_exceptions.md): which commands raise F_NOT_LOADED before the first PS_LOAD and which never do, and
that no turn but a reset clears a fault bit. -/

namespace Sys2Proof.Machine

/-! ### F_NOT_LOADED -/

theorem unlessHalted_ifLoaded_unloaded {s : State} (hh : s.sys.halted = false) (hl : s.store.loaded = false)
    (o : Host.Outcome State Fault Refusal) : unlessHalted s (ifLoaded s o) = .next (raiseFault .notLoaded s) := by
  rw [unlessHalted_running hh, ifLoaded_unloaded hl]

/-- A CYCLE that passes its first two checks comes to that of `loaded` (45_system.md R210). -/
theorem exec_cycle_ready {o : CycleOperands} {s : State} (ho : o.reservedClear = true) (hr : s.tick.ready = true) :
    exec (.cycle o) s = unlessHalted s (ifLoaded s (.next (runCycle o s))) := by
  simp [exec, execCycle, ho, hr]

theorem unlessHalted_notLoaded {s t : State} {o : Host.Outcome State Fault Refusal} (h : unlessHalted s o = .next t)
    (ho : o = .next t → t.sys.fault.notLoaded = s.sys.fault.notLoaded) :
    t.sys.fault.notLoaded = s.sys.fault.notLoaded := by
  rcases unlessHalted_next h with ⟨-, rfl⟩ | ⟨-, h⟩
  · rfl
  · exact ho h

theorem exec_tick_notLoaded {s t : State} (h : exec .tick s = .next t) :
    t.sys.fault.notLoaded = s.sys.fault.notLoaded := by
  refine unlessHalted_notLoaded h fun h => ?_
  obtain rfl := Host.Outcome.next.inj h
  rfl

theorem exec_psLoad_notLoaded {s t : State} (h : exec .psLoad s = .next t) :
    t.sys.fault.notLoaded = s.sys.fault.notLoaded := by
  refine unlessHalted_notLoaded h fun h => ?_
  split at h
  · obtain rfl := Host.Outcome.next.inj h
    rfl
  · cases h

/-- The fault that SET_CAL_MODE can raise is F_BAD_OPERAND (30_encoding.md R90). -/
theorem exec_setCalMode_notLoaded {v : Bool} {rsv : BitVec 7} {s t : State} (h : exec (.setCalMode v rsv) s = .next t) :
    t.sys.fault.notLoaded = s.sys.fault.notLoaded := by
  refine unlessHalted_notLoaded h fun h => ?_
  split at h
  · obtain rfl := Host.Outcome.next.inj h
    rfl
  · obtain rfl := Host.Outcome.next.inj h
    rfl

/-- POWER_LOSS before the first PS_LOAD skips its save and raises nothing (45_system.md R217). -/
theorem exec_powerLoss_notLoaded {s t : State} (h : exec .powerLoss s = .next t) :
    t.sys.fault.notLoaded = s.sys.fault.notLoaded := by
  refine unlessHalted_notLoaded h fun h => ?_
  obtain ⟨n, -, rfl⟩ := ofNv_next h
  rfl

/-- Settles O48: the five commands come to the check of `loaded`, which none of the other four makes. -/
theorem unloadedCommandsRaiseNotLoaded : Obligations.UnloadedCommandsRaiseNotLoaded := by
  refine ⟨fun i s hh hl hi => ?_, fun i s t hi h => ?_⟩
  · have raises := unlessHalted_ifLoaded_unloaded hh hl
    obtain rfl | rfl | ⟨p, rfl⟩ | ⟨p, rfl⟩ | ⟨o, rfl, ho, hr⟩ := hi
    · exact raises _
    · exact raises _
    · exact raises _
    · exact raises _
    · exact (exec_cycle_ready ho hr).trans (raises _)
  · obtain rfl | rfl | ⟨v, rsv, rfl⟩ | rfl := hi
    · exact exec_psLoad_notLoaded h
    · exact exec_tick_notLoaded h
    · exact exec_setCalMode_notLoaded h
    · exact exec_powerLoss_notLoaded h

/-! ### No fault bit is cleared -/

/-- Every fault bit set in `f` is set in `g`. -/
def FaultsKept (f g : FaultBits) : Prop :=
  (f.illegalCmd = true → g.illegalCmd = true) ∧ (f.badOperand = true → g.badOperand = true) ∧
    (f.notLoaded = true → g.notLoaded = true)

theorem FaultsKept.of_eq {f g : FaultBits} (h : g = f) : FaultsKept f g := h ▸ ⟨id, id, id⟩

theorem faultsKept_setFaultBit (f : FaultBits) (k : FaultCode) : FaultsKept f (setFaultBit f k) := by
  cases k with
  | illegalCmd => exact ⟨fun _ => rfl, id, id⟩
  | badOperand => exact ⟨id, fun _ => rfl, id⟩
  | notLoaded => exact ⟨id, id, fun _ => rfl⟩

/-- Of what a command does, only `raise` names the fault register (60_exceptions.md R230). -/
theorem Effect.fault_eq {i : Instr} {s t : State} (he : Effect i s t) : t.sys.fault = s.sys.fault := by
  cases i with
  | tick | psWriteOp p | psWriteCal p | setCalMode v rsv => obtain rfl := he; rfl
  | cycle o => obtain ⟨-, rfl⟩ := he; rfl
  | psLoad | psSaveOp | psSaveCal | powerLoss => obtain ⟨rfl, -⟩ := he; rfl

theorem exec_faultsKept {i : Instr} {s t : State} (h : exec i s = .next t) : FaultsKept s.sys.fault t.sys.fault := by
  rcases exec_cases h with rfl | ⟨-, k, rfl⟩ | ⟨-, he⟩
  · exact .of_eq rfl
  · exact faultsKept_setFaultBit s.sys.fault k
  · exact .of_eq he.fault_eq

theorem runCommand_faultsKept {a : Agent} {s t : State} (h : runCommand a s = .next t) :
    FaultsKept s.sys.fault t.sys.fault := by
  rcases runCommand_cases h with rfl | ⟨-, op, rest, -, rfl⟩ | ⟨-, i, rest, -, -, he⟩
  · exact .of_eq rfl
  · exact faultsKept_setFaultBit s.sys.fault .illegalCmd
  · exact exec_faultsKept (s := advance a rest s) he

/-- Settles O49: of the kinds of turn, the two without a reset are the empty one and an agent's. -/
theorem faultBitsAreSticky : Obligations.FaultBitsAreSticky := by
  intro s t h hreset hcut
  obtain ⟨-, ⟨-, rfl⟩ | ⟨ts, hs, -⟩ | ⟨a, ts, -, hr⟩ | ⟨a, k, ts, u, hs, -, -⟩⟩ := step_cases h
  · exact FaultsKept.of_eq rfl
  · exact absurd hs (hreset ts)
  · exact runCommand_faultsKept (s := dropTurn ts s) hr
  · exact absurd hs (hcut a k ts)

end Sys2Proof.Machine
end

section
/-! Reset (70_reset_and_hazards.md): the register values of R250 at power-on, the reset event between two commands, and the
machine's invariants at both reset states. -/

namespace Sys2Proof.Machine

/-! ### The reset values -/

/-- The reset value of `iclamp` is PID_I_LIMIT wherever the register holds it (10_state.md R29). -/
theorem powerOn_iclamp_toNat {c : Config} (m : Memory) (h0 : 0 ≤ c.pidILimit) (h1 : c.pidILimit ≤ 65535) :
    ((State.powerOn c m).pid.iclamp.toNat : Int) = c.pidILimit :=
  resetIclamp_toNat h0 h1

/-- Settles O54: `State.powerOn` writes R250's value into every register but `iclamp`, which `resetIclamp` gives its own. -/
theorem resetValues : Obligations.ResetValues := by
  intro c m
  exact ⟨State.powerOn c m, rfl, rfl, rfl, rfl, powerOn_iclamp_toNat m, rfl, rfl, rfl, rfl, rfl, rfl, rfl, rfl⟩

/-! ### The reset event -/

/-- Reset between two commands asks for nothing but the configuration's checks: a halted core takes it too
(70_reset_and_hazards.md R252). -/
theorem step_reset {s : State} {ts : List Turn} (hc : s.cfg.wellFormed = true) (hs : s.env.schedule = .reset :: ts) :
    step s = .next (resetEvent (dropTurn ts s)) := by
  rw [step_of_wellFormed hc, takeTurn, hs]

/-- Settles O55: the step of a reset turn is the reset event, which keeps of the old state only what `State.powerOn` takes as
arguments, the NV events and the environment. -/
theorem resetEventKeepsNv : Obligations.ResetEventKeepsNv := by
  intro s ts hc hs
  rw [step_reset hc hs]
  rfl

/-! ### The invariants at reset -/

/-- Configuration E of 95_test_vectors.md passes the nine checks (00_scope.md R10). -/
theorem exampleE_wellFormed : Config.exampleE.wellFormed = true := by decide +kernel

/-- `State.reset` is configuration E's power-on state with an NV store that lists no byte (log entries 1 and 2). -/
theorem reset_inv : Inv State.reset := powerOn_inv exampleE_wellFormed rfl nofun

/-- Settles O60: power-on establishes the invariants (`powerOn_inv`), and the model's reset state is one of its instances. -/
theorem invariantsHoldAtReset : Obligations.InvariantsHoldAtReset :=
  ⟨fun _ _ => powerOn_inv, reset_inv⟩

end Sys2Proof.Machine
end
